-- ==== Sys2Proof/Word.lean ====
section
/-! DEFINITION. The word types of MADP. Bit 0 is the least significant bit (00_scope R12); every
value is unsigned (00_scope R13). -/

namespace Sys2Proof

/-- A byte of a host access (20_memory R83). -/
abbrev Byte := BitVec 8

/-- A host-visible register, an entropy answer and the storage of one share (10_state section 3, R31). -/
abbrev Word := BitVec 64

/-- A command word (30_encoding R100). -/
abbrev CmdWord := BitVec 32

/-- The number of a slot as a command spells it (30_encoding R103). -/
abbrev SlotNo := BitVec 5

end Sys2Proof
end

