-- ==== Sys2Proof/Config.lean ====
section
/-! DEFINITION. What an implementation of MADP fixes: the two OPEN parameters of 00_scope R8 and R9.
They stay arguments of the model: `State.cfg` carries them, so a statement about every state is a
statement about every configuration (notes/assumptions/1.md). -/

namespace Sys2Proof

/-- The implementation parameters (00_scope R8, R9; 10_state R44, R49). -/
structure Params where
  /-- `MAX_ORDER`, the configured maximum security order (R8). -/
  maxOrder : Nat
  /-- `NMV`, the number of masked-value slots (R9). -/
  nmv : Nat
  deriving DecidableEq, Repr

/-- The bounds the spec sets: 1 to 15 orders (R8) and 2 to 32 slots (R9). -/
def Params.ok (p : Params) : Bool :=
  decide (1 ≤ p.maxOrder) && decide (p.maxOrder ≤ 15) && decide (2 ≤ p.nmv) && decide (p.nmv ≤ 32)

/-- The reference configuration of the test vectors (R11): not a property of the hardware. -/
def Params.reference : Params := { maxOrder := 3, nmv := 16 }

end Sys2Proof
end

