-- ==== Sys2Proof/Syntax.lean ====
section
/-! DEFINITION. MADP's commands as syntax: one constructor per row of spec/opcode_table.json, its
arguments the fields of the row's format (30_encoding R102 to R107). -/

namespace Sys2Proof

/-- The domain of a masked value (10_state R31, R36). -/
inductive Domain where
  | boolean  -- the secret is the XOR of the shares (10_state R34)
  | arith    -- the secret is the sum of the shares (10_state R35)
  deriving DecidableEq, Repr

/-- The four share widths (00_scope R10). -/
inductive Width where
  | w8 | w16 | w32 | w64
  deriving DecidableEq, Repr

/-- A command. `rd`, `rs1`, `rs2` are slot numbers, `ord` a security order, `cnt` an element count,
`shamt` a shift count and `zero` CLONE's flag `z` (30_encoding R103 to R107). -/
inductive Instr where
  | nop
  | alloc (rd : SlotNo) (dom : Domain) (ord : BitVec 4) (wc : Width)
  | mask (rd : SlotNo) (dom : Domain) (ord : BitVec 4) (wc : Width)
  | unmask (rd : SlotNo)
  | refresh (rd : SlotNo)
  | clone (rd rs1 : SlotNo) (zero : Bool)
  | free (rd : SlotNo)
  | allocm (rd : SlotNo) (cnt : BitVec 5) (dom : Domain) (ord : BitVec 4) (wc : Width)
  | freem (rd : SlotNo) (cnt : BitVec 5)
  | info (rd : SlotNo)
  | xor (rd rs1 rs2 : SlotNo)
  | and (rd rs1 rs2 : SlotNo)
  | or (rd rs1 rs2 : SlotNo)
  | not (rd : SlotNo)
  | shr (rd : SlotNo) (shamt : BitVec 6)
  | shl (rd : SlotNo) (shamt : BitVec 6)
  | rotr (rd : SlotNo) (shamt : BitVec 6)
  | rotl (rd : SlotNo) (shamt : BitVec 6)
  | add (rd rs1 rs2 : SlotNo)
  | sub (rd rs1 rs2 : SlotNo)
  | mult (rd rs1 rs2 : SlotNo)
  | btoa (rd : SlotNo)
  | atob (rd : SlotNo)
  | towide (rd rs1 : SlotNo) (wc : Width)
  | tonarrow (rd rs1 : SlotNo) (wc : Width)
  deriving DecidableEq, Repr

end Sys2Proof
end

