-- ==== Sys2Proof/WellFormed.lean ====
section
/-! DEFINITION. Which commands spell a command on an implementation with `nmv` slots: the two range
checks that 30_encoding R112 adds to the opcode table. A command that fails one completes with
ILLEGAL (60_exceptions R322). -/

namespace Sys2Proof

/-- A slot field names an existing slot (30_encoding R112). -/
def slotExists (p : Params) (r : SlotNo) : Bool := decide (r.toNat < p.nmv)

/-- The range of a batch command lies in the slot file (30_encoding R112). -/
def batchExists (p : Params) (rd : SlotNo) (cnt : BitVec 5) : Bool :=
  decide (rd.toNat + cnt.toNat ≤ p.nmv)

/-- Every slot field the format uses is below NMV, and the range of ALLOCM and FREEM ends at NMV at
the latest (30_encoding R112). -/
def Instr.wellFormed (p : Params) : Instr → Bool
  | .nop => true
  | .alloc rd _ _ _ => slotExists p rd
  | .mask rd _ _ _ => slotExists p rd
  | .unmask rd => slotExists p rd
  | .refresh rd => slotExists p rd
  | .clone rd rs1 _ => slotExists p rd && slotExists p rs1
  | .free rd => slotExists p rd
  | .allocm rd cnt _ _ _ => slotExists p rd && batchExists p rd cnt
  | .freem rd cnt => slotExists p rd && batchExists p rd cnt
  | .info rd => slotExists p rd
  | .xor rd rs1 rs2 => slotExists p rd && slotExists p rs1 && slotExists p rs2
  | .and rd rs1 rs2 => slotExists p rd && slotExists p rs1 && slotExists p rs2
  | .or rd rs1 rs2 => slotExists p rd && slotExists p rs1 && slotExists p rs2
  | .not rd => slotExists p rd
  | .shr rd _ => slotExists p rd
  | .shl rd _ => slotExists p rd
  | .rotr rd _ => slotExists p rd
  | .rotl rd _ => slotExists p rd
  | .add rd rs1 rs2 => slotExists p rd && slotExists p rs1 && slotExists p rs2
  | .sub rd rs1 rs2 => slotExists p rd && slotExists p rs1 && slotExists p rs2
  | .mult rd rs1 rs2 => slotExists p rd && slotExists p rs1 && slotExists p rs2
  | .btoa rd => slotExists p rd
  | .atob rd => slotExists p rd
  | .towide rd rs1 _ => slotExists p rd && slotExists p rs1
  | .tonarrow rd rs1 _ => slotExists p rd && slotExists p rs1

end Sys2Proof
end

