-- ==== Sys2Proof/Decode.lean ====
section
/-! DEFINITION. The command decoder and the encoder (30_encoding R100 to R112). A command word is
decoded by its opcode and its format's reserved bits; the range checks on slot fields depend on NMV
and are the first check of every command's meaning (Sys2Proof/Machine/Operands.lean). -/

namespace Sys2Proof

/-- The 25 opcodes of 30_encoding R109. -/
inductive Op where
  | nop | alloc | mask | unmask | refresh | clone | free | allocm | freem | info
  | xor | and | or | not | shr | shl | rotr | rotl
  | add | sub | mult
  | btoa | atob
  | towide | tonarrow
  deriving DecidableEq, Repr

/-- The formats of 30_encoding R102. -/
inductive Format where
  | fmtZ | fmtN | fmtNB | fmtB | fmtR1 | fmtRC | fmtR3 | fmtSH | fmtW
  deriving DecidableEq, Repr

/-- Why a word spells no command (30_encoding R108, R110). -/
inductive DecodeError where
  /-- The opcode is in no row of R109 (R110; 0x22 among them). -/
  | reservedOpcode (op : BitVec 6)
  /-- The opcode is assigned and a reserved bit of its format is 1 (R108). -/
  | reservedBits (op : Op)
  deriving DecidableEq, Repr

/-- Every opcode, in the order of R109. -/
def allOps : List Op :=
  [.nop, .alloc, .mask, .unmask, .refresh, .clone, .free, .allocm, .freem, .info] ++
  [.xor, .and, .or, .not, .shr, .shl, .rotr, .rotl] ++
  [.add, .sub, .mult] ++ [.btoa, .atob] ++ [.towide, .tonarrow]

/-- The opcode field, bits [31:26] (30_encoding R101, R109). -/
def opCode : Op → BitVec 6
  | .nop => 0x00 | .alloc => 0x01 | .mask => 0x02 | .unmask => 0x03 | .refresh => 0x04
  | .clone => 0x05 | .free => 0x06 | .allocm => 0x07 | .freem => 0x08 | .info => 0x09
  | .xor => 0x10 | .and => 0x11 | .or => 0x12 | .not => 0x13
  | .shr => 0x14 | .shl => 0x15 | .rotr => 0x16 | .rotl => 0x17
  | .add => 0x18 | .sub => 0x19 | .mult => 0x1A
  | .btoa => 0x20 | .atob => 0x21
  | .towide => 0x28 | .tonarrow => 0x29

/-- The format column of 30_encoding R109. -/
def opFormat : Op → Format
  | .nop => .fmtZ
  | .alloc | .mask => .fmtN
  | .unmask | .refresh | .free | .info | .not | .btoa | .atob => .fmtR1
  | .clone => .fmtRC
  | .allocm => .fmtNB
  | .freem => .fmtB
  | .xor | .and | .or | .add | .sub | .mult => .fmtR3
  | .shr | .shl | .rotr | .rotl => .fmtSH
  | .towide | .tonarrow => .fmtW

/-- The mask of a format: a 1 at every opcode bit and every reserved bit (30_encoding R102, R109). -/
def formatMask : Format → CmdWord
  | .fmtZ => 0xFFFFFFFF
  | .fmtN => 0xFC1FF80F
  | .fmtNB => 0xFC00F80F
  | .fmtB => 0xFC00FFFF
  | .fmtR1 => 0xFC1FFFFF
  | .fmtRC => 0xFC00FFEF
  | .fmtR3 => 0xFC0007FF
  | .fmtSH => 0xFC1FFFC0
  | .fmtW => 0xFC00FF9F

/-- `match(op)`: the opcode with every reserved bit 0 (30_encoding R109). -/
def opMatch (o : Op) : CmdWord := opCode o ++ 0#26

/-- `mask(op)` (30_encoding R109). -/
def opMask (o : Op) : CmdWord := formatMask (opFormat o)

/-- The row of R109 with this opcode, if there is one. -/
def opOfCode (c : BitVec 6) : Option Op := allOps.find? (fun o => opCode o == c)

/-- The width a width code selects (30_encoding R104). -/
def widthOfCode (c : BitVec 2) : Width :=
  match c.toNat with
  | 0 => .w8
  | 1 => .w16
  | 2 => .w32
  | _ => .w64

/-- The width code of a width (10_state R31, 30_encoding R104). -/
def widthCode : Width → BitVec 2
  | .w8 => 0
  | .w16 => 1
  | .w32 => 2
  | .w64 => 3

/-- The domain a domain bit selects (30_encoding R104). -/
def domainOfBit (b : BitVec 1) : Domain := if b = 0#1 then .boolean else .arith

/-- The domain bit: 0 Boolean, 1 Arithmetic (30_encoding R104). -/
def domainBit : Domain → BitVec 1
  | .boolean => 0
  | .arith => 1

/-- `op` = word[31:26] (30_encoding R101). -/
def fieldOp (c : CmdWord) : BitVec 6 := c.extractLsb' 26 6
/-- `rd` = word[25:21] (30_encoding R103). -/
def fieldRd (c : CmdWord) : SlotNo := c.extractLsb' 21 5
/-- `rs1` = word[20:16] (30_encoding R103). -/
def fieldRs1 (c : CmdWord) : SlotNo := c.extractLsb' 16 5
/-- `rs2` = word[15:11] (30_encoding R103). -/
def fieldRs2 (c : CmdWord) : SlotNo := c.extractLsb' 11 5
/-- `cnt` = word[20:16] (30_encoding R105). -/
def fieldCnt (c : CmdWord) : BitVec 5 := c.extractLsb' 16 5
/-- `ord` = word[10:7] (30_encoding R104). -/
def fieldOrd (c : CmdWord) : BitVec 4 := c.extractLsb' 7 4
/-- `wc` = word[6:5] (30_encoding R104). -/
def fieldWc (c : CmdWord) : Width := widthOfCode (c.extractLsb' 5 2)
/-- `dom` = word[4] (30_encoding R104). -/
def fieldDom (c : CmdWord) : Domain := domainOfBit (c.extractLsb' 4 1)
/-- `z` = word[4] (30_encoding R107). -/
def fieldZero (c : CmdWord) : Bool := c.extractLsb' 4 1 == 1#1
/-- `shamt` = word[5:0] (30_encoding R106). -/
def fieldShamt (c : CmdWord) : BitVec 6 := c.extractLsb' 0 6

/-- The command of an opcode with the fields of its format (30_encoding R102). -/
def fieldsOf (o : Op) (c : CmdWord) : Instr :=
  match o with
  | .nop => .nop
  | .alloc => .alloc (fieldRd c) (fieldDom c) (fieldOrd c) (fieldWc c)
  | .mask => .mask (fieldRd c) (fieldDom c) (fieldOrd c) (fieldWc c)
  | .unmask => .unmask (fieldRd c)
  | .refresh => .refresh (fieldRd c)
  | .clone => .clone (fieldRd c) (fieldRs1 c) (fieldZero c)
  | .free => .free (fieldRd c)
  | .allocm => .allocm (fieldRd c) (fieldCnt c) (fieldDom c) (fieldOrd c) (fieldWc c)
  | .freem => .freem (fieldRd c) (fieldCnt c)
  | .info => .info (fieldRd c)
  | .xor => .xor (fieldRd c) (fieldRs1 c) (fieldRs2 c)
  | .and => .and (fieldRd c) (fieldRs1 c) (fieldRs2 c)
  | .or => .or (fieldRd c) (fieldRs1 c) (fieldRs2 c)
  | .not => .not (fieldRd c)
  | .shr => .shr (fieldRd c) (fieldShamt c)
  | .shl => .shl (fieldRd c) (fieldShamt c)
  | .rotr => .rotr (fieldRd c) (fieldShamt c)
  | .rotl => .rotl (fieldRd c) (fieldShamt c)
  | .add => .add (fieldRd c) (fieldRs1 c) (fieldRs2 c)
  | .sub => .sub (fieldRd c) (fieldRs1 c) (fieldRs2 c)
  | .mult => .mult (fieldRd c) (fieldRs1 c) (fieldRs2 c)
  | .btoa => .btoa (fieldRd c)
  | .atob => .atob (fieldRd c)
  | .towide => .towide (fieldRd c) (fieldRs1 c) (fieldWc c)
  | .tonarrow => .tonarrow (fieldRd c) (fieldRs1 c) (fieldWc c)

/-- Decoding, total on all 2^32 words (30_encoding R112, first part): the opcode selects the row, and
the word spells its command when it agrees with the row's match on every fixed bit. -/
def decode (c : CmdWord) : Except DecodeError Instr :=
  match opOfCode (fieldOp c) with
  | none => .error (.reservedOpcode (fieldOp c))
  | some o => if c &&& opMask o = opMatch o then .ok (fieldsOf o c) else .error (.reservedBits o)

/-- The opcode of a command (30_encoding R109). -/
def instrOp : Instr → Op
  | .nop => .nop
  | .alloc .. => .alloc
  | .mask .. => .mask
  | .unmask .. => .unmask
  | .refresh .. => .refresh
  | .clone .. => .clone
  | .free .. => .free
  | .allocm .. => .allocm
  | .freem .. => .freem
  | .info .. => .info
  | .xor .. => .xor
  | .and .. => .and
  | .or .. => .or
  | .not .. => .not
  | .shr .. => .shr
  | .shl .. => .shl
  | .rotr .. => .rotr
  | .rotl .. => .rotl
  | .add .. => .add
  | .sub .. => .sub
  | .mult .. => .mult
  | .btoa .. => .btoa
  | .atob .. => .atob
  | .towide .. => .towide
  | .tonarrow .. => .tonarrow

/-- Format Z (30_encoding R102). -/
def packZ (o : BitVec 6) : CmdWord := o ++ 0#26
/-- Format N (30_encoding R102). -/
def packN (o : BitVec 6) (rd : SlotNo) (ord : BitVec 4) (wc : BitVec 2) (dom : BitVec 1) : CmdWord :=
  o ++ rd ++ 0#10 ++ ord ++ wc ++ dom ++ 0#4
/-- Format NB (30_encoding R102). -/
def packNB (o : BitVec 6) (rd : SlotNo) (cnt : BitVec 5) (ord : BitVec 4) (wc : BitVec 2)
    (dom : BitVec 1) : CmdWord :=
  o ++ rd ++ cnt ++ 0#5 ++ ord ++ wc ++ dom ++ 0#4
/-- Format B (30_encoding R102). -/
def packB (o : BitVec 6) (rd : SlotNo) (cnt : BitVec 5) : CmdWord := o ++ rd ++ cnt ++ 0#16
/-- Format R1 (30_encoding R102). -/
def packR1 (o : BitVec 6) (rd : SlotNo) : CmdWord := o ++ rd ++ 0#21
/-- Format RC (30_encoding R102). -/
def packRC (o : BitVec 6) (rd rs1 : SlotNo) (z : BitVec 1) : CmdWord :=
  o ++ rd ++ rs1 ++ 0#11 ++ z ++ 0#4
/-- Format R3 (30_encoding R102). -/
def packR3 (o : BitVec 6) (rd rs1 rs2 : SlotNo) : CmdWord := o ++ rd ++ rs1 ++ rs2 ++ 0#11
/-- Format SH (30_encoding R102). -/
def packSH (o : BitVec 6) (rd : SlotNo) (shamt : BitVec 6) : CmdWord := o ++ rd ++ 0#15 ++ shamt
/-- Format W (30_encoding R102). -/
def packW (o : BitVec 6) (rd rs1 : SlotNo) (wc : BitVec 2) : CmdWord :=
  o ++ rd ++ rs1 ++ 0#9 ++ wc ++ 0#5

/-- The word of a command (30_encoding R102, R109). -/
def encode (i : Instr) : CmdWord :=
  let o := opCode (instrOp i)
  match i with
  | .nop => packZ o
  | .alloc rd dom ord wc => packN o rd ord (widthCode wc) (domainBit dom)
  | .mask rd dom ord wc => packN o rd ord (widthCode wc) (domainBit dom)
  | .unmask rd => packR1 o rd
  | .refresh rd => packR1 o rd
  | .clone rd rs1 zero => packRC o rd rs1 (BitVec.ofBool zero)
  | .free rd => packR1 o rd
  | .allocm rd cnt dom ord wc => packNB o rd cnt ord (widthCode wc) (domainBit dom)
  | .freem rd cnt => packB o rd cnt
  | .info rd => packR1 o rd
  | .xor rd rs1 rs2 => packR3 o rd rs1 rs2
  | .and rd rs1 rs2 => packR3 o rd rs1 rs2
  | .or rd rs1 rs2 => packR3 o rd rs1 rs2
  | .not rd => packR1 o rd
  | .shr rd shamt => packSH o rd shamt
  | .shl rd shamt => packSH o rd shamt
  | .rotr rd shamt => packSH o rd shamt
  | .rotl rd shamt => packSH o rd shamt
  | .add rd rs1 rs2 => packR3 o rd rs1 rs2
  | .sub rd rs1 rs2 => packR3 o rd rs1 rs2
  | .mult rd rs1 rs2 => packR3 o rd rs1 rs2
  | .btoa rd => packR1 o rd
  | .atob rd => packR1 o rd
  | .towide rd rs1 wc => packW o rd rs1 (widthCode wc)
  | .tonarrow rd rs1 wc => packW o rd rs1 (widthCode wc)

/-- The command the decoder reads from the bits `w` of a table row of `nbits` bits: the bits above
`nbits` are 0, and a command is one 32-bit word (30_encoding R100). -/
def decodeTableWord (nbits w : Nat) : Option Instr :=
  if nbits ≤ 32 then (decode (BitVec.ofNat 32 (w % 2 ^ nbits))).toOption else none

end Sys2Proof
end

