-- ==== Sys2Proof/Machine/State.lean ====
section
/-! DEFINITION. The state of MADP (10_state.md) and, in the field `env`, the outside world it meets:
the entropy source's answers, the host's accesses and the order in which the agents move. -/

namespace Sys2Proof.Machine

/-- Why the model stops. A failing command does not stop it: it completes with a code in STATUS.ERR
(60_exceptions R320). -/
inductive Fault where
  /-- Raised by the host's turn for an access that the window refuses: a width other than 8, an offset
  that is no multiple of 8, offset 0x38 or an offset outside the window (20_memory R80, R82, R85). The
  host has no step (00_scope R20; 93 U10: stuck). Safe: the run stops where the spec gives no step. -/
  | hostStuck (off width : Nat)
  deriving DecidableEq, Repr

/-- Why the model gives a step no meaning. -/
inductive Refusal where
  /-- For an instruction without a meaning in `exec`. Safe. No arm of `exec` raises it. -/
  | notModelled (mnemonic : String)
  deriving DecidableEq, Repr

/-- The result codes of 60_exceptions R321 (codes 6 to 15 are never written and are no constructor). -/
inductive ErrCode where
  | ok | invalidOrder | allocation | domainMismatch | conversionFailure | illegal
  deriving DecidableEq, Repr

/-- One slot: a masked value or a free place for one (10_state R31). -/
structure Slot where
  /-- Live or free. -/
  valid : Bool
  /-- Which invariant gives the secret (10_state R36). -/
  dom : Domain
  /-- The security order; the share count is `ord + 1`. -/
  ord : BitVec 4
  /-- The share width. -/
  wc : Width
  /-- `sh[0..MAX_ORDER]`, each zero-extended to 64 bits (10_state R32). -/
  sh : List Word
  deriving DecidableEq, Repr

/-- A free slot: every field zero, every share included (10_state R32). -/
def Slot.free (p : Params) : Slot :=
  { valid := false, dom := .boolean, ord := 0, wc := .w8, sh := List.replicate (p.maxOrder + 1) 0 }

/-- The pending command: the accepted word and the copy `DIN_L` of DIN (10_state R46). -/
structure Pending where
  word : CmdWord
  dinL : Word
  deriving DecidableEq, Repr

/-- An answer of the entropy source to one request (20_memory R90, R92). -/
inductive Answer where
  | word (e : Word)  -- the 64-bit word
  | fail             -- entropy failure
  deriving DecidableEq, Repr

/-- A host access (20_memory R81, R82) or a poll loop (30_encoding R114). -/
inductive HostOp where
  /-- Read `width` bytes at byte offset `off`. -/
  | read (off width : Nat)
  /-- Write these bytes at byte offset `off`, the byte of the lowest offset first (20_memory R83). -/
  | write (off : Nat) (bytes : List Byte)
  /-- `wait`: repeat reading STATUS until BUSY is 0 (30_encoding R114; notes/assumptions/6.md). -/
  | wait
  deriving DecidableEq, Repr

/-- Which agent moves (00_scope R7), or the reset input (70_reset R360). -/
inductive Turn where
  | host
  | datapath
  | entropy (a : Answer)  -- the source delivers an answer
  | reset
  deriving DecidableEq, Repr

/-- The outside world: the model's own fields, no state of MADP. The first three lists are free inputs.
DESIGN CHOICE: all four are empty at reset (notes/assumptions/2.md, 4.md, 7.md, 9.md). -/
structure Env where
  /-- The answers the entropy source has ready for the coming draws, the next one first. No law binds
  them (20_memory R90). Empty: the source has not answered yet (20_memory R91;
  notes/assumptions/2.md). -/
  answers : List Answer
  /-- The host's coming accesses, in program order (20_memory R87). -/
  host : List HostOp
  /-- Which agents move at the coming steps. Empty: the datapath while a command is pending, else
  the host. -/
  turns : List Turn
  /-- What host reads returned: offset and bytes, the latest read first. -/
  reads : List (Nat × List Byte)
  deriving DecidableEq, Repr

/-- The state (10_state.md). -/
structure State where
  /-- MAX_ORDER and NMV, which CONFIG shows; constant (10_state R44, R49). -/
  cfg : Params
  /-- The slot file `x[0..NMV-1]` (10_state R31). -/
  slots : List Slot
  /-- DIN (10_state R38). -/
  din : Word
  /-- DOUT (10_state R39). -/
  dout : Word
  /-- STATUS.OVR (10_state R40). -/
  ovr : Bool
  /-- STATUS.FATAL (10_state R40). -/
  fatal : Bool
  /-- STATUS.ERR (10_state R40, 60_exceptions R321). -/
  err : ErrCode
  /-- LASTCMD (10_state R41). -/
  lastCmd : CmdWord
  /-- RCNT (10_state R42). -/
  rcnt : Word
  /-- CCNT (10_state R43). -/
  ccnt : Word
  /-- The pending command; STATUS.BUSY is `pending.isSome` (10_state R40, R46). -/
  pending : Option Pending
  /-- The outside world. -/
  env : Env
  deriving DecidableEq, Repr

/-- An outside world with nothing in it. -/
def Env.empty : Env := { answers := [], host := [], turns := [], reads := [] }

/-- The state after reset for the parameters `p` (10_state R50, 70_reset R360). -/
def State.resetOf (p : Params) : State :=
  { cfg := p, slots := List.replicate p.nmv (Slot.free p), din := 0, dout := 0, ovr := false,
    fatal := false, err := .ok, lastCmd := 0, rcnt := 0, ccnt := 0, pending := none,
    env := Env.empty }

/-- The state after reset, in the reference configuration of 00_scope R11. DESIGN CHOICE: the spec
leaves both parameters open (notes/assumptions/1.md). -/
def State.reset : State := State.resetOf Params.reference

end Sys2Proof.Machine
end

