-- ==== Sys2Proof/Machine/Flags.lean ====
section
/-! DEFINITION. The views of the host-visible registers (10_state R40 to R44). MADP has no condition
codes (10_state R45): the only status a command writes is STATUS.ERR, with RCNT and CCNT. -/

namespace Sys2Proof.Machine

/-- The 4-bit result code (60_exceptions R321). -/
def errCode : ErrCode → BitVec 4
  | .ok => 0
  | .invalidOrder => 1
  | .allocation => 2
  | .domainMismatch => 3
  | .conversionFailure => 4
  | .illegal => 5

/-- STATUS.BUSY (10_state R40): 1 from acceptance of a command to its completion. -/
def State.busy (s : State) : Bool := s.pending.isSome

/-- STATUS (10_state R40): reserved bits read 0. -/
def State.status (s : State) : Word :=
  0#52 ++ errCode s.err ++ 0#5 ++ BitVec.ofBool s.fatal ++ BitVec.ofBool s.ovr ++ BitVec.ofBool s.busy

/-- CONFIG (10_state R44). -/
def State.config (s : State) : Word :=
  0#48 ++ BitVec.ofNat 8 s.cfg.nmv ++ 0#4 ++ BitVec.ofNat 4 s.cfg.maxOrder

/-- LASTCMD (10_state R41): bits [63:32] read 0. -/
def State.lastCmdReg (s : State) : Word := 0#32 ++ s.lastCmd

/-- The DIN copy a command reads (10_state R46, 70_reset R373). A state without a pending command
answers what acceptance would copy (DESIGN CHOICE, notes/assumptions/11.md); no step runs a command there. -/
def State.dinL (s : State) : Word :=
  match s.pending with
  | some q => q.dinL
  | none => s.din

end Sys2Proof.Machine
end

