-- ==== Sys2Proof/Machine/Ops.lean ====
section
/-! DEFINITION. The shared operations: random draws, the slot file, and the three ways a command
ends: completion with its effect, completion with an error code, and the fatal event. -/

namespace Sys2Proof.Machine

/-! ## Random draws (00_scope R17, 20_memory R90 to R92) -/

/-- What a running command sees of the entropy port: the answers still to come and the draws made. -/
structure Port where
  answers : List Answer
  count : Nat
  deriving DecidableEq, Repr

/-- Why a running command did not get its random word. -/
inductive DrawStop where
  /-- The source has not answered yet (20_memory R91). -/
  | blocked
  /-- Entropy failure (20_memory R92), with the answers behind the failing one. -/
  | failed (rest : List Answer)
  deriving DecidableEq, Repr

/-- A computation that may draw random words, in a fixed order. -/
abbrev Draw := StateT Port (Except DrawStop)

/-- `DRAW(w)`: the next answer's low `w` bits, counted once (00_scope R17, 20_memory R90). -/
def draw (w : Nat) : Draw (BitVec w) := fun p =>
  match p.answers with
  | [] => .error .blocked
  | .fail :: rest => .error (.failed rest)
  | .word e :: rest => .ok (e.setWidth w, { answers := rest, count := p.count + 1 })

/-- `n` draws of width `w`, in order. -/
def drawMany (w : Nat) : Nat → Draw (List (BitVec w))
  | 0 => pure []
  | n + 1 => do
    let r ← draw w
    let rs ← drawMany w n
    pure (r :: rs)

/-! ## Widths and the slot file (00_scope R16, 10_state R31) -/

/-- `W(wc) = 8 << wc` (00_scope R16, 30_encoding R104). -/
def widthBits : Width → Nat
  | .w8 => 8
  | .w16 => 16
  | .w32 => 32
  | .w64 => 64

/-- `x[i]`; outside the slot file it answers a free slot (DESIGN CHOICE, notes/assumptions/12.md). -/
def slotAt (p : Params) (x : List Slot) (i : Nat) : Slot := x.getD i (Slot.free p)

/-- `x[i] <- r`; outside the slot file it writes nothing (DESIGN CHOICE, notes/assumptions/12.md). -/
def setSlot (x : List Slot) (i : Nat) (r : Slot) : List Slot := x.set i r

/-- Slot `i` of the state's slot file. -/
def State.slot (s : State) (i : Nat) : Slot := slotAt s.cfg s.slots i

/-- The share count `n = ord + 1` of a slot (00_scope R16). -/
def shareCount (r : Slot) : Nat := r.ord.toNat + 1

/-- `sh[0..n-1]` of a slot as `w`-bit values. -/
def readShares (r : Slot) (w : Nat) : List (BitVec w) :=
  (List.range (shareCount r)).map fun k => (r.sh.getD k 0).setWidth w

/-- `sh[0..n-1] <- o`, each share zero-extended to 64 bits (10_state R32). -/
def writeShares (r : Slot) {w : Nat} (o : List (BitVec w)) : Slot :=
  { r with sh := o.map (BitVec.setWidth 64) ++ r.sh.drop o.length }

/-- A live slot with the shares `o`, every share behind them 0 (40_lifecycle R143, 44_width R301). -/
def newSlot (p : Params) (dom : Domain) (ord : BitVec 4) (wc : Width) {w : Nat}
    (o : List (BitVec w)) : Slot :=
  { valid := true, dom := dom, ord := ord, wc := wc,
    sh := o.map (BitVec.setWidth 64) ++ List.replicate (p.maxOrder + 1 - o.length) 0 }

/-- A live slot with zeroed shares (40_lifecycle R141). -/
def zeroSlot (p : Params) (dom : Domain) (ord : BitVec 4) (wc : Width) : Slot :=
  { valid := true, dom := dom, ord := ord, wc := wc, sh := List.replicate (p.maxOrder + 1) 0 }

/-! ## How a command ends -/

/-- What a command writes besides the counters and STATUS: the slot file and DOUT. -/
structure Effect where
  slots : List Slot
  dout : Word
  deriving DecidableEq, Repr

/-- Completion of a successful command (70_reset R374): slot file, DOUT, RCNT plus the draws made,
CCNT + 1, ERR = OK, BUSY = 0. -/
def commit (s : State) (e : Effect) (p : Port) : State :=
  { s with
    slots := e.slots, dout := e.dout, rcnt := s.rcnt + BitVec.ofNat 64 p.count,
    ccnt := s.ccnt + 1, err := .ok, pending := none,
    env := { s.env with answers := p.answers } }

/-- Completion of a failed command (60_exceptions R327): ERR <- code, CCNT + 1, BUSY <- 0 and
nothing else. -/
def failWith (s : State) (e : ErrCode) : State :=
  { s with ccnt := s.ccnt + 1, err := e, pending := none }

/-- The fatal event (60_exceptions R329): the command is abandoned, every slot cleared, FATAL <- 1 and
BUSY <- 0; the answers up to the failing one are used up. -/
def fatalEvent (s : State) (rest : List Answer) : State :=
  { s with
    slots := s.slots.map (fun _ => Slot.free s.cfg), fatal := true, pending := none,
    env := { s.env with answers := rest } }

/-- The code of the first check that fails (60_exceptions R328); a check is a condition that must hold
and the code it reports. -/
def firstFail : List (Bool × ErrCode) → Option ErrCode
  | [] => none
  | (c, e) :: rest => if c then firstFail rest else some e

/-- A command's run (70_reset R371): the checks in their order, then the pseudocode with its draws,
then the completion. While a draw has no answer the command stays pending and nothing changes
(20_memory R86, R91; DEDUCED, notes/assumptions/3.md). Scratch is no state (10_state R47;
notes/assumptions/8.md). -/
def runCommand (s : State) (checks : List (Bool × ErrCode)) (body : Draw Effect) :
    Host.Outcome State Fault Refusal :=
  match firstFail checks with
  | some e => .next (failWith s e)
  | none =>
    match body { answers := s.env.answers, count := 0 } with
    | .ok (e, p) => .next (commit s e p)
    | .error .blocked => .next s
    | .error (.failed rest) => .next (fatalEvent s rest)

/-- The reset input (70_reset R360): every piece of state takes its reset value; the outside world is
no state of MADP and goes on (DESIGN CHOICE, notes/assumptions/10.md). -/
def resetInput (s : State) : State := { State.resetOf s.cfg with env := s.env }

end Sys2Proof.Machine
end

