-- ==== Sys2Proof/Machine/Operands.lean ====
section
/-! DEFINITION. The operand forms and the checks of every command, by their priority P1 to P4
(60_exceptions R322 to R328, 30_encoding R112). -/

namespace Sys2Proof.Machine

/-- SIG of a slot: `{ord, wc}` (10_state R33). -/
def sig (r : Slot) : BitVec 6 := r.ord ++ widthCode r.wc

/-- P1: a slot field is below NMV (30_encoding R112). -/
def slotInRange (s : State) (r : SlotNo) : Bool := decide (r.toNat < s.cfg.nmv)

/-- P1: the range of ALLOCM and FREEM ends at NMV at the latest (30_encoding R112). -/
def batchInRange (s : State) (rd : SlotNo) (cnt : BitVec 5) : Bool :=
  decide (rd.toNat + cnt.toNat ≤ s.cfg.nmv)

/-- P2: `1 <= ord <= MAX_ORDER` (60_exceptions R323). -/
def orderOk (s : State) (ord : BitVec 4) : Bool :=
  decide (1 ≤ ord.toNat) && decide (ord.toNat ≤ s.cfg.maxOrder)

/-- P2: a batch has at least two elements (60_exceptions R323). -/
def countOk (cnt : BitVec 5) : Bool := decide (2 ≤ cnt.toNat)

/-- The slot is live (00_scope glossary). -/
def isLive (s : State) (i : Nat) : Bool := (s.slot i).valid

/-- Every slot `i .. i + k - 1` is free (60_exceptions R325). -/
def allFree (s : State) (i k : Nat) : Bool := (List.range k).all fun j => !isLive s (i + j)

/-- Width 16 has no gadgets (00_scope R10). -/
def hasGadgets (r : Slot) : Bool := decide (r.wc ≠ .w16)

/-- P3 of the binary gadgets (41_boolean R199, 42_arithmetic R234). -/
def binaryOperandsOk (s : State) (rd rs1 rs2 : SlotNo) : Bool :=
  isLive s rs1.toNat && isLive s rs2.toNat && isLive s rd.toNat &&
  decide (sig (s.slot rs1.toNat) = sig (s.slot rs2.toNat)) &&
  decide (sig (s.slot rs2.toNat) = sig (s.slot rd.toNat)) &&
  hasGadgets (s.slot rs1.toNat)

/-- P3 of the unary Boolean gadgets (41_boolean R199). -/
def unaryOperandOk (s : State) (rd : SlotNo) : Bool :=
  isLive s rd.toNat && hasGadgets (s.slot rd.toNat)

/-- Every slot `i .. i + k - 1` is live with the signature of slot `i` (44_width R301). -/
def allCompatible (s : State) (i k : Nat) : Bool :=
  (List.range k).all fun j => isLive s (i + j) && decide (sig (s.slot (i + j)) = sig (s.slot i))

/-- `k = shamt mod w` (30_encoding R106). -/
def shiftCount (shamt : BitVec 6) (w : Nat) : Nat := shamt.toNat % w

end Sys2Proof.Machine
end

