-- ==== Sys2Proof/Machine/Shares.lean ====
section
/-! DEFINITION. The functions on share vectors that the commands share: reduction, splitting,
refreshing, and the Domain-Oriented-Masking products (40_lifecycle section 1, 41_boolean R190,
42_arithmetic R232). A share vector is a list of `w`-bit values (00_scope R15). -/

namespace Sys2Proof.Machine

/-- `XOR(s)` (00_scope R15). -/
def xorAll {w : Nat} (s : List (BitVec w)) : BitVec w := s.foldr (· ^^^ ·) 0

/-- `SUM(s)` modulo 2^w (00_scope R15). -/
def sumAll {w : Nat} (s : List (BitVec w)) : BitVec w := s.foldr (· + ·) 0

/-- `a ^ b` on share vectors (00_scope R15). -/
def vecXor {w : Nat} (a b : List (BitVec w)) : List (BitVec w) := List.zipWith (· ^^^ ·) a b

/-- `a & b` on share vectors (00_scope R15). -/
def vecAnd {w : Nat} (a b : List (BitVec w)) : List (BitVec w) := List.zipWith (· &&& ·) a b

/-- `a + b` on share vectors (00_scope R15). -/
def vecAdd {w : Nat} (a b : List (BitVec w)) : List (BitVec w) := List.zipWith (· + ·) a b

/-- `a - b` on share vectors (00_scope R15). -/
def vecSub {w : Nat} (a b : List (BitVec w)) : List (BitVec w) := List.zipWith (· - ·) a b

/-- `a * b` share by share (42_arithmetic R232). -/
def vecMul {w : Nat} (a b : List (BitVec w)) : List (BitVec w) := List.zipWith (· * ·) a b

/-- `a << d` on a share vector (00_scope R13, R15). -/
def vecShl {w : Nat} (a : List (BitVec w)) (d : Nat) : List (BitVec w) := a.map fun v : BitVec w => v <<< d

/-- `o[i] <- f(o[i])`. -/
def updateShare {w : Nat} (o : List (BitVec w)) (i : Nat) (f : BitVec w → BitVec w) :
    List (BitVec w) :=
  o.set i (f (o.getD i 0))

/-- `Secret(s, d, n)` (40_lifecycle R152). -/
def secretOf {w : Nat} (d : Domain) (s : List (BitVec w)) : BitVec w :=
  match d with
  | .boolean => xorAll s
  | .arith => sumAll s

/-- The secret a slot represents: `Secret` (40_lifecycle R152) of its shares by its domain, zero-extended
to 64 bits (10_state R34 to R36). DESIGN CHOICE: the spec leaves the secret of a free slot undefined
(R36, 93 U13), and this function, being total, answers 0 for one; no command reads it
(notes/assumptions/17.md). -/
def slotSecret (r : Slot) : Word :=
  (secretOf r.dom (readShares r (widthBits r.wc))).setWidth 64

/-- `MaskShares(v, d, n, w)` (40_lifecycle R142): n - 1 draws. -/
def maskShares {w : Nat} (v : BitVec w) (d : Domain) (n : Nat) : Draw (List (BitVec w)) := do
  let rs ← drawMany w (n - 1)
  match d with
  | .boolean => pure ((v ^^^ xorAll rs) :: rs)
  | .arith => pure ((v - sumAll rs) :: rs)

/-- One round `i` of RefreshShares (40_lifecycle R145). -/
def refreshRound {w : Nat} (d : Domain) (s : List (BitVec w)) (i : Nat) :
    Draw (List (BitVec w)) := do
  let r ← draw w
  match d with
  | .boolean => pure (updateShare (updateShare s 0 (· ^^^ r)) i (· ^^^ r))
  | .arith => pure (updateShare (updateShare s 0 (· - r)) i (· + r))

/-- `RefreshShares(s, d, n, w)` (40_lifecycle R145): n - 1 draws. -/
def refreshShares {w : Nat} (s : List (BitVec w)) (d : Domain) : Draw (List (BitVec w)) :=
  (List.range' 1 (s.length - 1)).foldlM (refreshRound d) s

/-- `pairs(n)`: every pair 0 <= i < j <= n - 1 in lexicographic order (00_scope R18). -/
def pairs (n : Nat) : List (Nat × Nat) :=
  (List.range n).flatMap fun i => (List.range' (i + 1) (n - 1 - i)).map fun j => (i, j)

/-- One pair of DomAnd (41_boolean R190). -/
def domAndRound {w : Nat} (a b o : List (BitVec w)) (ij : Nat × Nat) : Draw (List (BitVec w)) := do
  let r ← draw w
  let o := updateShare o ij.1 (· ^^^ ((a.getD ij.1 0 &&& b.getD ij.2 0) ^^^ r))
  pure (updateShare o ij.2 (· ^^^ ((a.getD ij.2 0 &&& b.getD ij.1 0) ^^^ r)))

/-- `DomAnd(a, b, n, w)` (41_boolean R190): n(n-1)/2 draws. -/
def domAnd {w : Nat} (a b : List (BitVec w)) : Draw (List (BitVec w)) :=
  (pairs a.length).foldlM (domAndRound a b) (vecAnd a b)

/-- One pair of DomMult (42_arithmetic R232). -/
def domMultRound {w : Nat} (a b o : List (BitVec w)) (ij : Nat × Nat) : Draw (List (BitVec w)) := do
  let r ← draw w
  let o := updateShare o ij.1 (· + a.getD ij.1 0 * b.getD ij.2 0 + r)
  pure (updateShare o ij.2 (· + a.getD ij.2 0 * b.getD ij.1 0 - r))

/-- `DomMult(a, b, n, w)` (42_arithmetic R232): n(n-1)/2 draws for the pairs, n - 1 for the refresh. -/
def domMult {w : Nat} (a b : List (BitVec w)) : Draw (List (BitVec w)) := do
  let o ← (pairs a.length).foldlM (domMultRound a b) (vecMul a b)
  refreshShares o .arith

end Sys2Proof.Machine
end

