-- ==== Sys2Proof/Machine/Domain.lean ====
section
/-! DEFINITION. The domain converter and the commands BTOA and ATOB (43_domain.md). -/

namespace Sys2Proof.Machine

/-! ## Boolean to arithmetic -/

/-- `psi(a, b, w)` (43_domain R250). -/
def psi {w : Nat} (a b : BitVec w) : BitVec w := (a ^^^ b) - b

/-- One blinding draw of Convert, for share `i` (43_domain R251). -/
def blindRound {w : Nat} (x : List (BitVec w)) (i : Nat) : Draw (List (BitVec w)) := do
  let r ← draw w
  pure (updateShare (updateShare x i (· ^^^ r)) 0 (· ^^^ r))

/-- The vector y of Convert, from the blinded shares, with the affine parity term (43_domain R251; 93 I1). -/
def psiVector {w : Nat} (m : Nat) (x : List (BitVec w)) : List (BitVec w) :=
  let y := x.tail.map (psi (x.getD 0 0))
  if (m - 1) % 2 = 1 then updateShare y 0 (· ^^^ x.getD 0 0) else y

/-- The combination of the two recursive results at a level with m = k + 2 (43_domain R251). -/
def combine {w : Nat} (k : Nat) (z t : List (BitVec w)) : List (BitVec w) :=
  vecAdd (z.take k) (t.take k) ++ [z.getD k 0, t.getD k 0]

/-- `Convert(m, x[0..m], w)` (43_domain R251). The rule has m >= 1; level 0 is not reached (notes/assumptions/13.md). -/
def convert {w : Nat} : Nat → List (BitVec w) → Draw (List (BitVec w))
  | 0, _ => pure []
  | 1, x => pure [x.getD 0 0 ^^^ x.getD 1 0]
  | k + 2, x => do
    let x ← (List.range' 1 (k + 2)).foldlM blindRound x
    let y := psiVector (k + 2) x
    let z ← convert (k + 1) x.tail
    let t ← convert (k + 1) y
    pure (combine k z t)

/-- `B2A(s, n, w)` (43_domain R252): one zero share appended. -/
def b2a {w : Nat} (s : List (BitVec w)) : Draw (List (BitVec w)) := convert s.length (s ++ [0])

/-! ## Arithmetic to Boolean -/

/-- The masked copies `B[j]` of the arithmetic shares, each of `n` Boolean shares (43_domain R260). -/
def maskEach {w : Nat} (n : Nat) : List (BitVec w) → Draw (List (List (BitVec w)))
  | [] => pure []
  | v :: vs => do
    let b ← maskShares v .boolean n
    let bs ← maskEach n vs
    pure (b :: bs)

/-- `CSA(x, y, z, n, w)` (43_domain R262). -/
def csa {w : Nat} (x y z : List (BitVec w)) : Draw (List (BitVec w) × List (BitVec w)) := do
  let a := vecXor x y
  let s := vecXor a z
  let v ← domAnd a (vecXor x z)
  pure (s, vecShl (vecXor x v) 1)

/-- `CsaTree(B[0..m-1], n, w)` (43_domain R264), with fuel for the halving; fuel m is enough. The rule
has m >= 2; the arms without a pair answer the neutral pair (DESIGN CHOICE, notes/assumptions/13.md). -/
def csaTree {w : Nat} : Nat → List (List (BitVec w)) → Draw (List (BitVec w) × List (BitVec w))
  | 0, _ => pure ([], [])
  | f + 1, bs =>
    match bs with
    | [] => pure ([], [])
    | [s] => pure (s, s.map fun _ => 0)
    | [s, c] => pure (s, c)
    | [x, y, z] => csa x y z
    | bs => do
      let l ← csaTree f (bs.take (bs.length / 2))
      let r ← csaTree f (bs.drop (bs.length / 2))
      let tu ← csa l.1 l.2 r.1
      csa tu.1 tu.2 r.2

/-- The distances 1, 2, 4, ..., w/2 of the Kogge-Stone rounds (43_domain R270; 90 C3). -/
def ksDistances (w : Nat) : List Nat := (List.range (Nat.log2 w)).map (2 ^ ·)

/-- The Kogge-Stone rounds from generate `g` and propagate `p`; the result is the last `g` (43_domain R270). -/
def ksRounds {w : Nat} : List Nat → List (BitVec w) → List (BitVec w) → Draw (List (BitVec w))
  | [], g, _ => pure g
  | d :: ds, g, p => do
    let gs := vecShl g d
    let ps := vecShl p d
    let u ← domAnd p gs
    let p' ← domAnd p ps
    ksRounds ds (vecXor g u) p'

/-- `KSAdd(S, C, n, w)` (43_domain R270). -/
def ksAdd {w : Nat} (s c : List (BitVec w)) : Draw (List (BitVec w)) := do
  let g ← domAnd s c
  let g ← ksRounds (ksDistances w) g (vecXor s c)
  pure (vecXor (vecXor s c) (vecShl g 1))

/-- `A2B(a, n, w)` (43_domain R272). -/
def a2b {w : Nat} (a : List (BitVec w)) : Draw (List (BitVec w)) := do
  let bs ← maskEach a.length a
  let sc ← csaTree a.length bs
  ksAdd sc.1 sc.2

/-! ## Coercion (43_domain R280) and the commands -/

/-- `ToArith(i)`: BTOA's pseudocode when slot `i` is Boolean (43_domain R253, R280). -/
def toArith (p : Params) (x : List Slot) (i : Nat) : Draw (List Slot) :=
  let r := slotAt p x i
  match r.dom with
  | .arith => pure x
  | .boolean => do
    let o ← b2a (readShares r (widthBits r.wc))
    pure (setSlot x i { writeShares r o with dom := .arith })

/-- `ToBool(i)`: ATOB's pseudocode when slot `i` is arithmetic (43_domain R274, R280). -/
def toBool (p : Params) (x : List Slot) (i : Nat) : Draw (List Slot) :=
  let r := slotAt p x i
  match r.dom with
  | .boolean => pure x
  | .arith => do
    let o ← a2b (readShares r (widthBits r.wc))
    pure (setSlot x i { writeShares r o with dom := .boolean })

/-- BTOA (43_domain R253). -/
def execBtoa (rd : SlotNo) (s : State) : Host.Outcome State Fault Refusal :=
  runCommand s [(slotInRange s rd, .illegal), (isLive s rd.toNat, .domainMismatch)] do
    let x ← toArith s.cfg s.slots rd.toNat
    pure { slots := x, dout := s.dout }

/-- ATOB (43_domain R274). -/
def execAtob (rd : SlotNo) (s : State) : Host.Outcome State Fault Refusal :=
  runCommand s [(slotInRange s rd, .illegal), (isLive s rd.toNat, .domainMismatch)] do
    let x ← toBool s.cfg s.slots rd.toNat
    pure { slots := x, dout := s.dout }

end Sys2Proof.Machine
end

