-- ==== Sys2Proof/Machine/Arithmetic.lean ====
section
/-! DEFINITION. The arithmetic gadget set (42_arithmetic.md). -/

namespace Sys2Proof.Machine

/-- The frame of the arithmetic gadgets with share function `F` (42_arithmetic R234): checks, coercion
of the first and then the second source, `F` on the snapshot, the destination arithmetic. -/
def arithBinary (F : (w : Nat) → List (BitVec w) → List (BitVec w) → Draw (List (BitVec w)))
    (rd rs1 rs2 : SlotNo) (s : State) : Host.Outcome State Fault Refusal :=
  runCommand s
    [(slotInRange s rd && slotInRange s rs1 && slotInRange s rs2, .illegal),
     (binaryOperandsOk s rd rs1 rs2, .domainMismatch)]
    do
      let w := widthBits (s.slot rs1.toNat).wc
      let x ← toArith s.cfg s.slots rs1.toNat
      let x ← toArith s.cfg x rs2.toNat
      let o ← F w (readShares (slotAt s.cfg x rs1.toNat) w) (readShares (slotAt s.cfg x rs2.toNat) w)
      pure {
        slots := setSlot x rd.toNat
          { writeShares (slotAt s.cfg x rd.toNat) o with dom := .arith },
        dout := s.dout }

/-- ADD (42_arithmetic R230). -/
def execAdd (rd rs1 rs2 : SlotNo) (s : State) : Host.Outcome State Fault Refusal :=
  arithBinary (fun _ a b => pure (vecAdd a b)) rd rs1 rs2 s

/-- SUB (42_arithmetic R231). -/
def execSub (rd rs1 rs2 : SlotNo) (s : State) : Host.Outcome State Fault Refusal :=
  arithBinary (fun _ a b => pure (vecSub a b)) rd rs1 rs2 s

/-- MULT (42_arithmetic R233). -/
def execMult (rd rs1 rs2 : SlotNo) (s : State) : Host.Outcome State Fault Refusal :=
  arithBinary (fun _ a b => domMult a b) rd rs1 rs2 s

end Sys2Proof.Machine
end

