-- ==== Sys2Proof/Machine/Boolean.lean ====
section
/-! DEFINITION. The Boolean gadget set (41_boolean.md). -/

namespace Sys2Proof.Machine

/-- The frame of the binary Boolean gadgets with share function `F` (41_boolean R199, R200): checks,
coercion of the first and then the second source, `F` on the snapshot, the destination Boolean. -/
def boolBinary (F : (w : Nat) → List (BitVec w) → List (BitVec w) → Draw (List (BitVec w)))
    (rd rs1 rs2 : SlotNo) (s : State) : Host.Outcome State Fault Refusal :=
  runCommand s
    [(slotInRange s rd && slotInRange s rs1 && slotInRange s rs2, .illegal),
     (binaryOperandsOk s rd rs1 rs2, .domainMismatch)]
    do
      let w := widthBits (s.slot rs1.toNat).wc
      let x ← toBool s.cfg s.slots rs1.toNat
      let x ← toBool s.cfg x rs2.toNat
      let o ← F w (readShares (slotAt s.cfg x rs1.toNat) w) (readShares (slotAt s.cfg x rs2.toNat) w)
      pure {
        slots := setSlot x rd.toNat
          { writeShares (slotAt s.cfg x rd.toNat) o with dom := .boolean },
        dout := s.dout }

/-- The frame of the unary Boolean gadgets with share function `G` (41_boolean R199, R200). -/
def boolUnary (G : (w : Nat) → List (BitVec w) → List (BitVec w)) (rd : SlotNo) (s : State) :
    Host.Outcome State Fault Refusal :=
  runCommand s
    [(slotInRange s rd, .illegal), (unaryOperandOk s rd, .domainMismatch)]
    do
      let w := widthBits (s.slot rd.toNat).wc
      let x ← toBool s.cfg s.slots rd.toNat
      let r := slotAt s.cfg x rd.toNat
      pure {
        slots := setSlot x rd.toNat { writeShares r (G w (readShares r w)) with dom := .boolean },
        dout := s.dout }

/-- XOR (41_boolean R191). -/
def execXor (rd rs1 rs2 : SlotNo) (s : State) : Host.Outcome State Fault Refusal :=
  boolBinary (fun _ a b => pure (vecXor a b)) rd rs1 rs2 s

/-- AND (41_boolean R192). -/
def execAnd (rd rs1 rs2 : SlotNo) (s : State) : Host.Outcome State Fault Refusal :=
  boolBinary (fun _ a b => domAnd a b) rd rs1 rs2 s

/-- OR (41_boolean R193): `(a ^ b) ^ (a & b)`. -/
def execOr (rd rs1 rs2 : SlotNo) (s : State) : Host.Outcome State Fault Refusal :=
  boolBinary (fun _ a b => do
    let t ← domAnd a b
    pure (vecXor t (vecXor a b))) rd rs1 rs2 s

/-- NOT (41_boolean R194): complements share 0 only. -/
def execNot (rd : SlotNo) (s : State) : Host.Outcome State Fault Refusal :=
  boolUnary (fun _ a => updateShare a 0 (~~~ ·)) rd s

/-- SHR (41_boolean R195). -/
def execShr (rd : SlotNo) (shamt : BitVec 6) (s : State) : Host.Outcome State Fault Refusal :=
  boolUnary (fun w a => a.map fun v : BitVec w => v >>> shiftCount shamt w) rd s

/-- SHL (41_boolean R196). -/
def execShl (rd : SlotNo) (shamt : BitVec 6) (s : State) : Host.Outcome State Fault Refusal :=
  boolUnary (fun w a => a.map fun v : BitVec w => v <<< shiftCount shamt w) rd s

/-- A rotation right by `k < w` (41_boolean R197). -/
def rotr {w : Nat} (k : Nat) (v : BitVec w) : BitVec w :=
  if k = 0 then v else (v >>> k) ||| (v <<< (w - k))

/-- A rotation left by `k < w` (41_boolean R198). -/
def rotl {w : Nat} (k : Nat) (v : BitVec w) : BitVec w :=
  if k = 0 then v else (v <<< k) ||| (v >>> (w - k))

/-- ROTR (41_boolean R197). -/
def execRotr (rd : SlotNo) (shamt : BitVec 6) (s : State) : Host.Outcome State Fault Refusal :=
  boolUnary (fun w a => a.map (rotr (shiftCount shamt w))) rd s

/-- ROTL (41_boolean R198). -/
def execRotl (rd : SlotNo) (shamt : BitVec 6) (s : State) : Host.Outcome State Fault Refusal :=
  boolUnary (fun w a => a.map (rotl (shiftCount shamt w))) rd s

end Sys2Proof.Machine
end

