-- ==== Sys2Proof/Machine/Lifecycle.lean ====
section
/-! DEFINITION. The masked-value lifecycle commands (40_lifecycle.md). None of them coerces its operand. -/

namespace Sys2Proof.Machine

/-- NOP (40_lifecycle R140). -/
def execNop (s : State) : Host.Outcome State Fault Refusal :=
  runCommand s [] (pure { slots := s.slots, dout := s.dout })

/-- ALLOC (40_lifecycle R141). -/
def execAlloc (rd : SlotNo) (dom : Domain) (ord : BitVec 4) (wc : Width) (s : State) :
    Host.Outcome State Fault Refusal :=
  runCommand s
    [(slotInRange s rd, .illegal), (orderOk s ord, .invalidOrder), (!isLive s rd.toNat, .allocation)]
    (pure { slots := setSlot s.slots rd.toNat (zeroSlot s.cfg dom ord wc), dout := s.dout })

/-- MASK (40_lifecycle R143): the plaintext is the low `w` bits of DIN_L. -/
def execMask (rd : SlotNo) (dom : Domain) (ord : BitVec 4) (wc : Width) (s : State) :
    Host.Outcome State Fault Refusal :=
  runCommand s
    [(slotInRange s rd, .illegal), (orderOk s ord, .invalidOrder), (!isLive s rd.toNat, .allocation)]
    do
      let o ← maskShares (s.dinL.setWidth (widthBits wc)) dom (ord.toNat + 1)
      pure { slots := setSlot s.slots rd.toNat (newSlot s.cfg dom ord wc o), dout := s.dout }

/-- UNMASK (40_lifecycle R144): DOUT takes the zero-extended secret. -/
def execUnmask (rd : SlotNo) (s : State) : Host.Outcome State Fault Refusal :=
  runCommand s [(slotInRange s rd, .illegal), (isLive s rd.toNat, .domainMismatch)]
    (pure { slots := s.slots, dout := slotSecret (s.slot rd.toNat) })

/-- REFRESH (40_lifecycle R146). -/
def execRefresh (rd : SlotNo) (s : State) : Host.Outcome State Fault Refusal :=
  runCommand s [(slotInRange s rd, .illegal), (isLive s rd.toNat, .domainMismatch)] do
    let r := s.slot rd.toNat
    let o ← refreshShares (readShares r (widthBits r.wc)) r.dom
    pure { slots := setSlot s.slots rd.toNat (writeShares r o), dout := s.dout }

/-- CLONE (40_lifecycle R147). -/
def execClone (rd rs1 : SlotNo) (zero : Bool) (s : State) : Host.Outcome State Fault Refusal :=
  let r := s.slot rs1.toNat
  let copy := if zero then { r with sh := r.sh.map fun _ => 0 } else r
  runCommand s
    [(slotInRange s rd && slotInRange s rs1, .illegal), (isLive s rs1.toNat, .domainMismatch),
     (!isLive s rd.toNat, .allocation)]
    (pure { slots := setSlot s.slots rd.toNat copy, dout := s.dout })

/-- FREE (40_lifecycle R148). -/
def execFree (rd : SlotNo) (s : State) : Host.Outcome State Fault Refusal :=
  runCommand s [(slotInRange s rd, .illegal)]
    (pure { slots := setSlot s.slots rd.toNat (Slot.free s.cfg), dout := s.dout })

/-- ALLOCM (40_lifecycle R149): all or nothing. -/
def execAllocm (rd : SlotNo) (cnt : BitVec 5) (dom : Domain) (ord : BitVec 4) (wc : Width)
    (s : State) : Host.Outcome State Fault Refusal :=
  runCommand s
    [(slotInRange s rd && batchInRange s rd cnt, .illegal),
     (orderOk s ord && countOk cnt, .invalidOrder),
     (allFree s rd.toNat cnt.toNat, .allocation)]
    (pure {
      slots := (List.range cnt.toNat).foldl
        (fun x j => setSlot x (rd.toNat + j) (zeroSlot s.cfg dom ord wc)) s.slots,
      dout := s.dout })

/-- FREEM (40_lifecycle R150): bit `j` of DIN_L skips element `j`. -/
def execFreem (rd : SlotNo) (cnt : BitVec 5) (s : State) : Host.Outcome State Fault Refusal :=
  runCommand s
    [(slotInRange s rd && batchInRange s rd cnt, .illegal), (countOk cnt, .invalidOrder)]
    (pure {
      slots := (List.range cnt.toNat).foldl
        (fun x j => if s.dinL.getLsbD j then x else setSlot x (rd.toNat + j) (Slot.free s.cfg))
        s.slots,
      dout := s.dout })

/-- The metadata word of INFO (40_lifecycle R151): SIG at 21:16, wc at 9:8, ord at 7:4, dom at 1, valid at 0. -/
def infoWord (r : Slot) : Word :=
  0#42 ++ sig r ++ 0#6 ++ widthCode r.wc ++ r.ord ++ 0#2 ++ domainBit r.dom ++ BitVec.ofBool r.valid

/-- INFO (40_lifecycle R151). -/
def execInfo (rd : SlotNo) (s : State) : Host.Outcome State Fault Refusal :=
  runCommand s [(slotInRange s rd, .illegal)]
    (pure { slots := s.slots, dout := infoWord (s.slot rd.toNat) })

end Sys2Proof.Machine
end

