-- ==== Sys2Proof/Machine/WidthConv.lean ====
section
/-! DEFINITION. The width converter, TOWIDE and TONARROW (44_width.md). -/

namespace Sys2Proof.Machine

/-- One wide share from the narrow shares of the lanes, lane 0 first: lane `j` at bits
`[j*w + w - 1 : j*w]` (44_width R300). -/
def packLanes (w wt : Nat) (lanes : List (BitVec w)) : BitVec wt :=
  (List.range lanes.length).foldl
    (fun (o : BitVec wt) j => o ||| ((lanes.getD j 0).setWidth wt <<< (j * w))) 0

/-- Lane `j` of a wide share (44_width R300). -/
def lane {ws : Nat} (w : Nat) (v : BitVec ws) (j : Nat) : BitVec w := v.extractLsb' (j * w) w

/-- `for j in 0..k-1: ToBool(i + j)`, in this order (44_width R301). -/
def toBoolRange (p : Params) (x : List Slot) (i k : Nat) : Draw (List Slot) :=
  (List.range k).foldlM (fun x j => toBool p x (i + j)) x

/-- The wide shares packed from the slots `i .. i + k - 1`, for `n` share indices (44_width R301). -/
def wideShares (p : Params) (x : List Slot) (i k n : Nat) (w wt : Nat) : List (BitVec wt) :=
  (List.range n).map fun q =>
    packLanes w wt ((List.range k).map fun j => ((slotAt p x (i + j)).sh.getD q 0).setWidth w)

/-- TOWIDE (44_width R301). -/
def execTowide (rd rs1 : SlotNo) (wc : Width) (s : State) : Host.Outcome State Fault Refusal :=
  let src := s.slot rs1.toNat
  let w := widthBits src.wc
  let wt := widthBits wc
  let k := wt / w
  runCommand s
    [(slotInRange s rd && slotInRange s rs1, .illegal),
     (isLive s rs1.toNat, .domainMismatch),
     (decide (w < wt), .domainMismatch),
     (decide (rs1.toNat + k ≤ s.cfg.nmv), .domainMismatch),
     (allCompatible s rs1.toNat k, .domainMismatch),
     (!isLive s rd.toNat, .allocation)]
    do
      let x ← toBoolRange s.cfg s.slots rs1.toNat k
      let o := wideShares s.cfg x rs1.toNat k (shareCount src) w wt
      pure { slots := setSlot x rd.toNat (newSlot s.cfg .boolean src.ord wc o), dout := s.dout }

/-- The narrow slots written to `i`, `i + 1`, ...: lane `j` of every share of `r` (44_width R302). -/
def narrowSlots (p : Params) (x : List Slot) (i k : Nat) (r : Slot) (wc : Width) : List Slot :=
  (List.range k).foldl
    (fun x j => setSlot x (i + j)
      (newSlot p .boolean r.ord wc
        ((readShares r (widthBits r.wc)).map fun v => lane (widthBits wc) v j)))
    x

/-- TONARROW (44_width R302). -/
def execTonarrow (rd rs1 : SlotNo) (wc : Width) (s : State) : Host.Outcome State Fault Refusal :=
  let src := s.slot rs1.toNat
  let ws := widthBits src.wc
  let w := widthBits wc
  let k := ws / w
  runCommand s
    [(slotInRange s rd && slotInRange s rs1, .illegal),
     (isLive s rs1.toNat, .domainMismatch),
     (decide (w < ws), .domainMismatch),
     (decide (rd.toNat + k ≤ s.cfg.nmv) && allFree s rd.toNat k, .allocation)]
    do
      let x ← toBool s.cfg s.slots rs1.toNat
      pure {
        slots := narrowSlots s.cfg x rd.toNat k (slotAt s.cfg x rs1.toNat) wc,
        dout := s.dout }

end Sys2Proof.Machine
end

