-- ==== Sys2Proof/Machine/Dispatch.lean ====
section
/-! DEFINITION. The dispatch from a command to its meaning. -/

namespace Sys2Proof.Machine

def exec (i : Instr) (s : State) : Host.Outcome State Fault Refusal :=
  match i with
  | .nop => Sys2Proof.Machine.execNop s
  | .alloc rd dom ord wc => Sys2Proof.Machine.execAlloc rd dom ord wc s
  | .mask rd dom ord wc => Sys2Proof.Machine.execMask rd dom ord wc s
  | .unmask rd => Sys2Proof.Machine.execUnmask rd s
  | .refresh rd => Sys2Proof.Machine.execRefresh rd s
  | .clone rd rs1 zero => Sys2Proof.Machine.execClone rd rs1 zero s
  | .free rd => Sys2Proof.Machine.execFree rd s
  | .allocm rd cnt dom ord wc => Sys2Proof.Machine.execAllocm rd cnt dom ord wc s
  | .freem rd cnt => Sys2Proof.Machine.execFreem rd cnt s
  | .info rd => Sys2Proof.Machine.execInfo rd s
  | .xor rd rs1 rs2 => Sys2Proof.Machine.execXor rd rs1 rs2 s
  | .and rd rs1 rs2 => Sys2Proof.Machine.execAnd rd rs1 rs2 s
  | .or rd rs1 rs2 => Sys2Proof.Machine.execOr rd rs1 rs2 s
  | .not rd => Sys2Proof.Machine.execNot rd s
  | .shr rd shamt => Sys2Proof.Machine.execShr rd shamt s
  | .shl rd shamt => Sys2Proof.Machine.execShl rd shamt s
  | .rotr rd shamt => Sys2Proof.Machine.execRotr rd shamt s
  | .rotl rd shamt => Sys2Proof.Machine.execRotl rd shamt s
  | .add rd rs1 rs2 => Sys2Proof.Machine.execAdd rd rs1 rs2 s
  | .sub rd rs1 rs2 => Sys2Proof.Machine.execSub rd rs1 rs2 s
  | .mult rd rs1 rs2 => Sys2Proof.Machine.execMult rd rs1 rs2 s
  | .btoa rd => Sys2Proof.Machine.execBtoa rd s
  | .atob rd => Sys2Proof.Machine.execAtob rd s
  | .towide rd rs1 wc => Sys2Proof.Machine.execTowide rd rs1 wc s
  | .tonarrow rd rs1 wc => Sys2Proof.Machine.execTonarrow rd rs1 wc s

end Sys2Proof.Machine
end

