-- ==== Sys2Proof/Machine/Window.lean ====
section
/-! DEFINITION. The host register window (20_memory.md) and the acceptance of commands
(70_reset section 2). -/

namespace Sys2Proof.Machine

/-- The registers of the window (20_memory R81). -/
inductive WindowReg where
  | cmd | status | din | dout | rcnt | ccnt | config
  deriving DecidableEq, Repr

/-- The register at a byte offset (20_memory R81); none at 0x38 (R85), at an offset that is no multiple
of 8 (R82) and, DEDUCED, outside the window (R80; notes/assumptions/5.md). -/
def regAt (off : Nat) : Option WindowReg :=
  match off with
  | 0x00 => some .cmd
  | 0x08 => some .status
  | 0x10 => some .din
  | 0x18 => some .dout
  | 0x20 => some .rcnt
  | 0x28 => some .ccnt
  | 0x30 => some .config
  | _ => none

/-- The value a host read returns (20_memory R81). -/
def readReg (s : State) : WindowReg → Word
  | .cmd => s.lastCmdReg
  | .status => s.status
  | .din => s.din
  | .dout => s.dout
  | .rcnt => s.rcnt
  | .ccnt => s.ccnt
  | .config => s.config

/-- A host write to CMD (70_reset R375): ignored while FATAL (60_exceptions R329), dropped with OVR
while BUSY (R372), else accepted (R370): LASTCMD takes the word and DIN_L copies DIN.
DEDUCED: under FATAL it is ignored whatever BUSY is (notes/assumptions/14.md). -/
def writeCmd (s : State) (v : Word) : State :=
  if s.fatal then s
  else if s.busy then { s with ovr := true }
  else { s with lastCmd := v.setWidth 32, pending := some { word := v.setWidth 32, dinL := s.din } }

/-- What a host write does (20_memory R81, R85; 10_state R38 to R40). -/
def writeReg (s : State) (r : WindowReg) (v : Word) : State :=
  match r with
  | .cmd => writeCmd s v
  | .status => if v.getLsbD 1 then { s with ovr := false } else s
  | .din => { s with din := v }
  | .dout | .rcnt | .ccnt | .config => s

/-- The eight bytes of a register, byte `k` being bits `[8k+7 : 8k]` (20_memory R83). -/
def bytesOf (v : Word) : List Byte := (List.range 8).map fun k => v.extractLsb' (8 * k) 8

/-- The register value eight bytes spell (20_memory R83). -/
def wordOf (bs : List Byte) : Word :=
  bs.getD 7 0 ++ bs.getD 6 0 ++ bs.getD 5 0 ++ bs.getD 4 0 ++
  bs.getD 3 0 ++ bs.getD 2 0 ++ bs.getD 1 0 ++ bs.getD 0 0

/-- The register an access of this width reaches, if the access is not refused (20_memory R82). -/
def accessed (off width : Nat) : Option WindowReg := if width = 8 then regAt off else none

/-- A host read: the value goes to the host, MADP's state does not change (20_memory R84). -/
def hostRead (s : State) (off width : Nat) : Host.Outcome State Fault Refusal :=
  match accessed off width with
  | some r => .next { s with env := { s.env with reads := (off, bytesOf (readReg s r)) :: s.env.reads } }
  | none => .fault (.hostStuck off width)

/-- A host write (20_memory R81 to R85). -/
def hostWrite (s : State) (off : Nat) (bytes : List Byte) : Host.Outcome State Fault Refusal :=
  match accessed off bytes.length with
  | some r => .next (writeReg s r (wordOf bytes))
  | none => .fault (.hostStuck off bytes.length)

/-- The host's turn: its next access takes effect (20_memory R87). A `wait` that finds BUSY = 1 polls
again (30_encoding R114). With no access left the host is idle. -/
def hostTurn (s : State) : Host.Outcome State Fault Refusal :=
  match s.env.host with
  | [] => .next s
  | .read off width :: ops => hostRead { s with env := { s.env with host := ops } } off width
  | .write off bytes :: ops => hostWrite { s with env := { s.env with host := ops } } off bytes
  | .wait :: ops => if s.busy then .next s else .next { s with env := { s.env with host := ops } }

end Sys2Proof.Machine
end

