-- ==== Sys2Proof/Machine/Agents.lean ====
section
/-! DEFINITION. The agents' turns (00_scope R7): the datapath runs the pending command, the host makes
its next access (Sys2Proof/Machine/Window.lean), the entropy source delivers an answer, and reset is asserted. -/

namespace Sys2Proof.Machine

/-- The datapath's turn (70_reset R371): the pending command is decoded and run to its end; a word that
spells no command completes with ILLEGAL (60_exceptions R322). Idle when nothing is pending. -/
def datapathTurn (s : State) : Host.Outcome State Fault Refusal :=
  match s.pending with
  | none => .next s
  | some q =>
    match decode q.word with
    | .error _ => .next (failWith s .illegal)
    | .ok i => exec i s

/-- The entropy source's turn: one more answer is ready (20_memory R90 to R92). -/
def answerArrives (s : State) (a : Answer) : State :=
  { s with env := { s.env with answers := s.env.answers ++ [a] } }

/-- Which agent moves next: the schedule's choice; with an empty schedule the datapath while a command
is pending, else the host (DESIGN CHOICE, notes/assumptions/4.md). -/
def nextTurn (s : State) : Turn :=
  match s.env.turns with
  | t :: _ => t
  | [] => if s.busy then .datapath else .host

/-- The state with its schedule advanced by one turn. -/
def dropTurn (s : State) : State := { s with env := { s.env with turns := s.env.turns.tail } }

/-- One agent's turn. -/
def takeTurn (t : Turn) (s : State) : Host.Outcome State Fault Refusal :=
  match t with
  | .host => hostTurn s
  | .datapath => datapathTurn s
  | .entropy a => .next (answerArrives s a)
  | .reset => .next (resetInput s)

/-- The state with the command word `c` accepted (70_reset R370) and the datapath to move next. -/
def placeCommand (s : State) (c : CmdWord) : State :=
  { s with
    lastCmd := c, pending := some { word := c, dinL := s.din },
    env := { s.env with turns := .datapath :: s.env.turns } }

end Sys2Proof.Machine
end

