-- ==== Sys2Proof/Machine/Step.lean ====
section
/-! DEFINITION. One step: the agent whose turn it is moves (00_scope R7). A command's step is its
completion, at which all of its effects appear (20_memory R86, 70_reset R374). -/

namespace Sys2Proof.Machine

/-- One step of MADP and the outside world. -/
def step (s : State) : Host.Outcome State Fault Refusal := takeTurn (nextTurn s) (dropTurn s)

/-- `s` with the command of a table row accepted, so that the next step runs exactly it: MADP fetches
nothing (10_state R30), a command is taken from a CMD write (DESIGN CHOICE, notes/assumptions/7.md). -/
def State.withFetchWord (s : State) (nbits w : Nat) : State :=
  placeCommand s (BitVec.ofNat 32 (w % 2 ^ nbits))

end Sys2Proof.Machine
end

