-- ==== Sys2Proof/Safety.lean ====
section
/-! DEFINITION. What the statements are made of, written from the spec's tables and not from the
meanings: the invariant of 10_state R32, the error causes of 60_exceptions R322 to R325 with their
priority R328, the draw counts of every command, and the shapes of a completed, failed and fatal
command. -/

namespace Sys2Proof.Machine

/-! ## The invariant -/

/-- The slot invariants (10_state R31, R32): MAX_ORDER + 1 shares; a free slot is all zero; a live slot
has a legal order, its shares fit its width and every share behind the order is 0. -/
def Slot.ok (p : Params) (r : Slot) : Bool :=
  decide (r.sh.length = p.maxOrder + 1) &&
  if r.valid then
    decide (1 ≤ r.ord.toNat) && decide (r.ord.toNat ≤ p.maxOrder) &&
    (List.range (p.maxOrder + 1)).all fun k =>
      decide ((r.sh.getD k 0).toNat < 2 ^ widthBits r.wc) &&
      (decide (k ≤ r.ord.toNat) || decide (r.sh.getD k 0 = 0))
  else decide (r = Slot.free p)

/-- LASTCMD shows the pending command (10_state R41, R46), and nothing is pending under FATAL
(70_reset R375, a sentence the spec marks "[derived]"; DEDUCED, notes/assumptions/14.md). -/
def pendingOk (s : State) : Bool :=
  match s.pending with
  | none => true
  | some q => decide (q.word = s.lastCmd) && !s.fatal

/-- The invariant of the machine: legal parameters (00_scope R8, R9), NMV slots, each as R32 says,
the pending command as R41 and R375 say, and every slot free under FATAL (60_exceptions R329). -/
def State.Inv (s : State) : Prop :=
  s.cfg.ok = true ∧ s.slots.length = s.cfg.nmv ∧ s.slots.all (Slot.ok s.cfg) = true ∧
  pendingOk s = true ∧ (s.fatal = true → s.slots.all (fun r => decide (r = Slot.free s.cfg)) = true)

/-! ## The error causes (60_exceptions R322 to R325), by command -/

/-- Slot `r` is live. -/
def liveSlot (s : State) (r : SlotNo) : Bool := (s.slot r.toNat).valid

/-- Equal signatures: equal order and width (10_state R33). -/
def sameSig (a b : Slot) : Bool := decide (a.ord = b.ord) && decide (a.wc = b.wc)

/-- `ord` is 0 or above MAX_ORDER (60_exceptions R323). -/
def badOrder (s : State) (ord : BitVec 4) : Bool :=
  decide (ord = 0) || decide (s.cfg.maxOrder < ord.toNat)

/-- The width of slot `r`, in bits. -/
def slotBits (s : State) (r : SlotNo) : Nat := widthBits (s.slot r.toNat).wc

/-- P2, INVALID_ORDER (60_exceptions R323). -/
def invalidOrderCause (s : State) : Instr → Bool
  | .alloc _ _ ord _ => badOrder s ord
  | .mask _ _ ord _ => badOrder s ord
  | .allocm _ cnt _ ord _ => badOrder s ord || decide (cnt.toNat < 2)
  | .freem _ cnt => decide (cnt.toNat < 2)
  | .nop | .unmask .. | .refresh .. | .clone .. | .free .. | .info .. | .xor .. | .and .. | .or ..
  | .not .. | .shr .. | .shl .. | .rotr .. | .rotl .. | .add .. | .sub .. | .mult .. | .btoa ..
  | .atob .. | .towide .. | .tonarrow .. => false

/-- The row of XOR, AND, OR, ADD, SUB and MULT in 60_exceptions R324. -/
def binaryMismatch (s : State) (rd rs1 rs2 : SlotNo) : Bool :=
  !liveSlot s rd || !liveSlot s rs1 || !liveSlot s rs2 ||
  !sameSig (s.slot rs1.toNat) (s.slot rs2.toNat) || !sameSig (s.slot rs1.toNat) (s.slot rd.toNat) ||
  decide ((s.slot rs1.toNat).wc = .w16)

/-- The row of NOT, SHR, SHL, ROTR and ROTL in 60_exceptions R324. -/
def unaryMismatch (s : State) (rd : SlotNo) : Bool :=
  !liveSlot s rd || decide ((s.slot rd.toNat).wc = .w16)

/-- P3, DOMAIN_MISMATCH (the table of 60_exceptions R324). -/
def domainMismatchCause (s : State) : Instr → Bool
  | .unmask rd | .refresh rd | .btoa rd | .atob rd => !liveSlot s rd
  | .clone _ rs1 _ => !liveSlot s rs1
  | .xor rd rs1 rs2 | .and rd rs1 rs2 | .or rd rs1 rs2 => binaryMismatch s rd rs1 rs2
  | .add rd rs1 rs2 | .sub rd rs1 rs2 | .mult rd rs1 rs2 => binaryMismatch s rd rs1 rs2
  | .not rd | .shr rd _ | .shl rd _ | .rotr rd _ | .rotl rd _ => unaryMismatch s rd
  | .towide _ rs1 wc =>
    !liveSlot s rs1 || decide (widthBits wc ≤ slotBits s rs1) ||
    decide (s.cfg.nmv < rs1.toNat + widthBits wc / slotBits s rs1) ||
    (List.range (widthBits wc / slotBits s rs1)).any fun j =>
      !(s.slot (rs1.toNat + j)).valid || !sameSig (s.slot (rs1.toNat + j)) (s.slot rs1.toNat)
  | .tonarrow _ rs1 wc => !liveSlot s rs1 || decide (slotBits s rs1 ≤ widthBits wc)
  | .nop | .alloc .. | .mask .. | .free .. | .allocm .. | .freem .. | .info .. => false

/-- P4, ALLOCATION (60_exceptions R325). -/
def allocationCause (s : State) : Instr → Bool
  | .alloc rd _ _ _ => liveSlot s rd
  | .mask rd _ _ _ => liveSlot s rd
  | .clone rd _ _ => liveSlot s rd
  | .allocm rd cnt _ _ _ => (List.range cnt.toNat).any fun j => (s.slot (rd.toNat + j)).valid
  | .towide rd _ _ => liveSlot s rd
  | .tonarrow rd rs1 wc =>
    decide (s.cfg.nmv < rd.toNat + slotBits s rs1 / widthBits wc) ||
    (List.range (slotBits s rs1 / widthBits wc)).any fun j => (s.slot (rd.toNat + j)).valid
  | .nop | .unmask .. | .refresh .. | .free .. | .freem .. | .info .. | .xor .. | .and .. | .or ..
  | .not .. | .shr .. | .shl .. | .rotr .. | .rotl .. | .add .. | .sub .. | .mult .. | .btoa ..
  | .atob .. => false

/-- The code a command reports, if any: the first cause in the order P1, P2, P3, P4 (60_exceptions
R328). -/
def errorOf (s : State) (i : Instr) : Option ErrCode :=
  if !i.wellFormed s.cfg then some .illegal
  else if invalidOrderCause s i then some .invalidOrder
  else if domainMismatchCause s i then some .domainMismatch
  else if allocationCause s i then some .allocation
  else none

/-! ## Draw counts -/

/-- `D_B2A(n) = Rc(n)` (43_domain R254). -/
def b2aDraws : Nat → Nat
  | 0 => 0
  | 1 => 0
  | m + 2 => (m + 2) + 2 * b2aDraws (m + 1)

/-- `n(n-1)/2`, the draws of one DOM product (41_boolean R190). -/
def pairDraws (n : Nat) : Nat := n * (n - 1) / 2

/-- `D_A2B(n, w)` (43_domain R275). -/
def a2bDraws (n w : Nat) : Nat := n * (n - 1) * (n + 2 * Nat.log2 w + 1) / 2

/-- The draws of ToArith on a slot (43_domain R253, R280). -/
def toArithDraws (r : Slot) : Nat :=
  match r.dom with
  | .boolean => b2aDraws (shareCount r)
  | .arith => 0

/-- The draws of ToBool on a slot (43_domain R274, R280). -/
def toBoolDraws (r : Slot) : Nat :=
  match r.dom with
  | .boolean => 0
  | .arith => a2bDraws (shareCount r) (widthBits r.wc)

/-- The draws of coercing two sources to Boolean: the second finds a repeated slot coerced (41_boolean R200). -/
def bothToBoolDraws (s : State) (rs1 rs2 : SlotNo) : Nat :=
  toBoolDraws (s.slot rs1.toNat) + if rs1 = rs2 then 0 else toBoolDraws (s.slot rs2.toNat)

/-- The draws of coercing two sources to arithmetic (42_arithmetic R234). -/
def bothToArithDraws (s : State) (rs1 rs2 : SlotNo) : Nat :=
  toArithDraws (s.slot rs1.toNat) + if rs1 = rs2 then 0 else toArithDraws (s.slot rs2.toNat)

/-- The random words a command draws when its checks pass, as the commands' rules count them. -/
def drawsOf (s : State) : Instr → Nat
  | .nop | .alloc .. | .unmask .. | .clone .. | .free .. | .allocm .. | .freem .. | .info .. => 0
  | .mask _ _ ord _ => ord.toNat
  | .refresh rd => (s.slot rd.toNat).ord.toNat
  | .xor _ rs1 rs2 => bothToBoolDraws s rs1 rs2
  | .and _ rs1 rs2 | .or _ rs1 rs2 =>
    bothToBoolDraws s rs1 rs2 + pairDraws (shareCount (s.slot rs1.toNat))
  | .not rd | .shr rd _ | .shl rd _ | .rotr rd _ | .rotl rd _ => toBoolDraws (s.slot rd.toNat)
  | .add _ rs1 rs2 | .sub _ rs1 rs2 => bothToArithDraws s rs1 rs2
  | .mult _ rs1 rs2 =>
    bothToArithDraws s rs1 rs2 + pairDraws (shareCount (s.slot rs1.toNat)) +
      (shareCount (s.slot rs1.toNat) - 1)
  | .btoa rd => toArithDraws (s.slot rd.toNat)
  | .atob rd => toBoolDraws (s.slot rd.toNat)
  | .towide _ rs1 wc =>
    ((List.range (widthBits wc / slotBits s rs1)).map fun j =>
      toBoolDraws (s.slot (rs1.toNat + j))).sum
  | .tonarrow _ rs1 _ => toBoolDraws (s.slot rs1.toNat)

/-! ## The shapes of an end state -/

/-- Everything a completed command leaves as it was, and what every completed command writes besides
the slot file and DOUT (70_reset R374): `k` draws were made and `rest` are the answers not used. -/
def Completed (s t : State) (k : Nat) (rest : List Answer) : Prop :=
  t.cfg = s.cfg ∧ t.din = s.din ∧ t.ovr = s.ovr ∧ t.fatal = s.fatal ∧ t.lastCmd = s.lastCmd ∧
  t.err = .ok ∧ t.rcnt = s.rcnt + BitVec.ofNat 64 k ∧ t.ccnt = s.ccnt + 1 ∧ t.pending = none ∧
  t.env = { s.env with answers := rest } ∧ t.slots.length = s.slots.length

/-- The state after a command that failed with code `e` (60_exceptions R327). -/
def failedState (s : State) (e : ErrCode) : State :=
  { cfg := s.cfg, slots := s.slots, din := s.din, dout := s.dout, ovr := s.ovr, fatal := s.fatal,
    err := e, lastCmd := s.lastCmd, rcnt := s.rcnt, ccnt := s.ccnt + 1, pending := none,
    env := s.env }

/-- The state after the fatal event (60_exceptions R329). -/
def fatalState (s : State) (rest : List Answer) : State :=
  { cfg := s.cfg, slots := List.replicate s.slots.length (Slot.free s.cfg), din := s.din,
    dout := s.dout, ovr := s.ovr, fatal := true, err := s.err, lastCmd := s.lastCmd, rcnt := s.rcnt,
    ccnt := s.ccnt, pending := none,
    env := { answers := rest, host := s.env.host, turns := s.env.turns, reads := s.env.reads } }

/-- Every slot outside `l` is unchanged. -/
def OtherSlotsKept (s t : State) (l : List Nat) : Prop := ∀ i, i ∉ l → t.slot i = s.slot i

/-- Slot `r'` is slot `r` in domain `d` (43_domain R280): same secret, order, width and unused shares,
and unchanged if it was in that domain. -/
def CoercedTo (d : Domain) (r r' : Slot) : Prop :=
  r'.valid = r.valid ∧ r'.ord = r.ord ∧ r'.wc = r.wc ∧ r'.dom = d ∧
  slotSecret r' = slotSecret r ∧
  (∀ k, shareCount r ≤ k → r'.sh.getD k 0 = r.sh.getD k 0) ∧ (r.dom = d → r' = r)

/-- Slot `r'` is slot `r` with the secret `v` in domain `d`: order, width and unused shares are kept. -/
def HoldsSecret (d : Domain) (v : Word) (r r' : Slot) : Prop :=
  r'.valid = true ∧ r'.ord = r.ord ∧ r'.wc = r.wc ∧ r'.dom = d ∧ slotSecret r' = v ∧
  ∀ k, shareCount r ≤ k → r'.sh.getD k 0 = r.sh.getD k 0

/-- `v` modulo 2^w, as a register value (00_scope R13). -/
def lowBits (w : Nat) (v : Word) : Word := (v.setWidth w).setWidth 64

/-- What a completed binary gadget `i` leaves (41_boolean R200, 42_arithmetic R234): the draws counted,
the destination holding the secret `v` in domain `d`, each source coerced to `d`, every other slot and
DOUT unchanged. `ws` are the words drawn. `share` is the function of a gadget that works share by share:
share `k` of the destination is that function of the shares `k` of the coerced sources `a` and `b`,
whatever slots are equal (00_scope R19). A coerced source is the source itself if it was in domain `d`,
and what its slot holds afterwards if it is not the destination. -/
def BinaryGadgetResult (s : State) (i : Instr) (d : Domain) (v : Word)
    (share : Option (Word → Word → Word)) (rd rs1 rs2 : SlotNo) : Prop :=
  ∀ (ws : List Word) (rest : List Answer),
    s.env.answers = ws.map .word ++ rest → ws.length = drawsOf s i →
    ∃ t, exec i s = .next t ∧ Completed s t (drawsOf s i) rest ∧ t.dout = s.dout ∧
      OtherSlotsKept s t [rd.toNat, rs1.toNat, rs2.toNat] ∧
      HoldsSecret d v (s.slot rd.toNat) (t.slot rd.toNat) ∧
      (rs1 ≠ rd → CoercedTo d (s.slot rs1.toNat) (t.slot rs1.toNat)) ∧
      (rs2 ≠ rd → CoercedTo d (s.slot rs2.toNat) (t.slot rs2.toNat)) ∧
      ∀ f, share = some f → ∃ a b : Slot,
        CoercedTo d (s.slot rs1.toNat) a ∧ (rs1 ≠ rd → a = t.slot rs1.toNat) ∧
        CoercedTo d (s.slot rs2.toNat) b ∧ (rs2 ≠ rd → b = t.slot rs2.toNat) ∧
        (rs1 = rs2 → a = b) ∧
        ∀ k, k < shareCount (s.slot rd.toNat) →
          (t.slot rd.toNat).sh.getD k 0 =
            lowBits (slotBits s rd) (f (a.sh.getD k 0) (b.sh.getD k 0))

/-- What a completed unary Boolean gadget `i` leaves (41_boolean R200): slot `rd` Boolean, its secret the
value `g 0` gives for the old one, every other slot and DOUT unchanged. A slot that was Boolean has
share `k` replaced by the value `g k` gives for it. -/
def UnaryGadgetResult (s : State) (i : Instr) (g : Nat → Word → Word) (rd : SlotNo) : Prop :=
  ∀ (ws : List Word) (rest : List Answer),
    s.env.answers = ws.map .word ++ rest → ws.length = drawsOf s i →
    ∃ t, exec i s = .next t ∧ Completed s t (drawsOf s i) rest ∧ t.dout = s.dout ∧
      OtherSlotsKept s t [rd.toNat] ∧
      HoldsSecret .boolean (g 0 (slotSecret (s.slot rd.toNat))) (s.slot rd.toNat)
        (t.slot rd.toNat) ∧
      ((s.slot rd.toNat).dom = .boolean → ∀ k, k < shareCount (s.slot rd.toNat) →
        (t.slot rd.toNat).sh.getD k 0 =
          g k (lowBits (slotBits s rd) ((s.slot rd.toNat).sh.getD k 0)))

/-- What a completed domain conversion `i` leaves (43_domain R253, R274): slot `rd` in domain `d` with
its secret, unchanged if it was there, every other slot and DOUT unchanged. -/
def ConversionResult (s : State) (i : Instr) (d : Domain) (rd : SlotNo) : Prop :=
  ∀ (ws : List Word) (rest : List Answer),
    s.env.answers = ws.map .word ++ rest → ws.length = drawsOf s i →
    ∃ t, exec i s = .next t ∧ Completed s t (drawsOf s i) rest ∧ t.dout = s.dout ∧
      OtherSlotsKept s t [rd.toNat] ∧ CoercedTo d (s.slot rd.toNat) (t.slot rd.toNat)

/-- The state after the host's next access has been taken from its list, with `ops` left. -/
def afterHostOp (s : State) (ops : List HostOp) : State :=
  { s with env := { s.env with host := ops, turns := s.env.turns.tail } }

/-- The accesses the window allows: 8 bytes wide at 0x00, 0x08, ..., 0x30 (20_memory R81, R82, R85). -/
def AccessAllowed (off width : Nat) : Prop := width = 8 ∧ off % 8 = 0 ∧ off < 0x38

/-- The end of a run of a host program (70_reset R377): no access is left and BUSY = 0 or FATAL = 1. -/
def RunEnded (s : State) : Prop := s.env.host = [] ∧ (s.busy = false ∨ s.fatal = true)

/-- A safe step: the machine does not stop. The only stop is a refused host access (20_memory R82). -/
def SafeStep (s : State) : Prop := ∃ t, step s = .next t

end Sys2Proof.Machine
end

