-- ==== Sys2Proof/Certificates/Slice0/Obligations.lean ====
section
/-! DEFINITION. The statements for the provers. `ws.map .word ++ rest` as the entropy source's answers
says that the next answers are the words `ws`, and `errorOf s i = none` that every check of the
command passes (60_exceptions R322 to R328, Sys2Proof/Safety.lean). -/

open Sys2Proof Sys2Proof.Machine

/-! ## Encoding (30_encoding) -/

/-- Words written out in the spec, one or more of every format of 30_encoding R102, decode to their commands
(30_encoding R113, 95_test_vectors V101 to V108). -/
def Obligations.SpecWordsDecode : Prop :=
  decode 0x00000000 = .ok .nop ∧
  decode 0x04600140 = .ok (.alloc 3 .boolean 2 .w32) ∧
  decode 0x080000F0 = .ok (.mask 0 .arith 1 .w64) ∧
  decode 0x1C050090 = .ok (.allocm 0 5 .arith 1 .w8) ∧
  decode 0x14200010 = .ok (.clone 1 0 true) ∧
  decode 0x20100000 = .ok (.freem 0 16) ∧
  decode 0x40A31800 = .ok (.xor 5 3 3) ∧
  decode 0x5C800009 = .ok (.rotl 4 9) ∧
  decode 0x68400800 = .ok (.mult 2 0 1) ∧
  decode 0x80400000 = .ok (.btoa 2) ∧
  decode 0xA4C40000 = .ok (.tonarrow 6 4 .w8)

/-- Decoding the word of a command gives the command back, every operand at every value (30_encoding
R102 to R112). -/
def Obligations.DecodeEncodeRoundTrip : Prop := ∀ i : Instr, decode (encode i) = .ok i

/-- A word that decodes is the word of its command: each command has one word (30_encoding R108, R112). -/
def Obligations.EncodeDecodeRoundTrip : Prop :=
  ∀ (c : CmdWord) (i : Instr), decode c = .ok i → encode i = c

/-- A pending word whose opcode is reserved completes with ILLEGAL (30_encoding R110). -/
def Obligations.ReservedOpcodesAreIllegal : Prop :=
  ∀ (s : State) (q : Pending), s.pending = some q → nextTurn s = .datapath →
    (let op := (q.word.extractLsb' 26 6).toNat
     (0x0A ≤ op ∧ op ≤ 0x0F) ∨ (0x1B ≤ op ∧ op ≤ 0x1F) ∨ (0x22 ≤ op ∧ op ≤ 0x27) ∨
       (0x2A ≤ op ∧ op ≤ 0x3F)) →
    step s = .next (failedState (dropTurn s) .illegal)

/-- A pending word with a reserved bit set completes with ILLEGAL, and bits [63:32] of a CMD write do
not matter (30_encoding R108). -/
def Obligations.ReservedBitsAreIllegal : Prop :=
  (∀ (s : State) (q : Pending) (o : Op), s.pending = some q → nextTurn s = .datapath →
    q.word.extractLsb' 26 6 = opCode o → q.word &&& opMask o ≠ opMatch o →
    step s = .next (failedState (dropTurn s) .illegal)) ∧
  (∀ (s : State) (v v' : Word), v.setWidth 32 = v'.setWidth 32 → writeCmd s v = writeCmd s v')

/-- The all-zero word is NOP, and a word with opcode 0 and any other bit set is illegal (30_encoding R111). -/
def Obligations.OpcodeZeroIsNop : Prop :=
  decode 0 = .ok .nop ∧
  ∀ (s : State) (q : Pending), s.pending = some q → nextTurn s = .datapath →
    q.word.extractLsb' 26 6 = 0 → q.word ≠ 0 →
    step s = .next (failedState (dropTurn s) .illegal)

/-! ## Steps, reset and the invariant -/

/-- When the datapath moves and the pending word decodes, the step is `exec` of the command, in the
state with the schedule advanced (70_reset R371). Which agent moves is the model's schedule
(notes/assumptions/4.md). -/
def Obligations.StepRunsPendingCommand : Prop :=
  ∀ (s : State) (q : Pending) (i : Instr), s.pending = some q → decode q.word = .ok i →
    s.env.turns = [] ∨ s.env.turns.head? = some .datapath →
    step s = exec i { s with env := { s.env with turns := s.env.turns.tail } }

/-- What reset leaves, for every configuration (10_state R50). That `State.reset` itself has the
reference configuration is the model's choice (notes/assumptions/1.md), and so is the empty `env`. -/
def Obligations.ResetStateValues : Prop :=
  ∀ (p : Params) (i : Nat),
    (State.resetOf p).slot i =
      { valid := false, dom := .boolean, ord := 0, wc := .w8,
        sh := List.replicate (p.maxOrder + 1) 0 } ∧
    (State.resetOf p).slots.length = p.nmv ∧
    (State.resetOf p).din = 0 ∧ (State.resetOf p).dout = 0 ∧ (State.resetOf p).lastCmd = 0 ∧
    (State.resetOf p).rcnt = 0 ∧ (State.resetOf p).ccnt = 0 ∧ (State.resetOf p).status = 0 ∧
    (State.resetOf p).pending = none ∧ (State.resetOf p).cfg = p ∧
    State.reset = State.resetOf Params.reference

/-- Reset may be asserted in any state: everything takes its reset value and a pending command is
abandoned (70_reset R360). That the outside world's lists go on is the model's choice
(notes/assumptions/10.md). -/
def Obligations.ResetAtAnyTime : Prop :=
  ∀ (s : State) (ts : List Turn), s.env.turns = .reset :: ts →
    step s = .next { State.resetOf s.cfg with env := { s.env with turns := ts } }

/-- The invariant holds after reset in every legal configuration (10_state R32, R50; 00_scope R8, R9). That
`State.reset` has the reference configuration is the model's choice (notes/assumptions/1.md). -/
def Obligations.InvariantAfterReset : Prop :=
  (∀ p : Params, p.ok = true → (State.resetOf p).Inv) ∧ State.reset.Inv

/-- Every step, whichever agent moves, keeps the invariant: legal parameters (00_scope R8, R9), NMV slots
(10_state R31) that are each as R32 says, LASTCMD showing the pending command (R41, R46), every slot free
under STATUS.FATAL (60_exceptions R329), and nothing pending under it. The last is a sentence of 70_reset
R375 that the spec marks "[derived]" (DEDUCED, notes/assumptions/14.md). -/
def Obligations.EveryStepKeepsInvariant : Prop :=
  ∀ s t : State, s.Inv → step s = .next t → t.Inv

/-- No command stops the machine: every command, in every state, answers a next state (60_exceptions
R320). -/
def Obligations.CommandsNeverStop : Prop := ∀ (i : Instr) (s : State), ∃ t, exec i s = .next t

/-- The machine stops exactly on a host access that the window refuses (20_memory R82, R85), and refuses
nothing else. Refusing offsets beyond the window is DEDUCED (notes/assumptions/5.md). -/
def Obligations.StopsExactlyOnRefusedAccess : Prop :=
  ∀ s : State, (∀ r, step s ≠ .refused r) ∧
    ∀ f, step s = .fault f ↔
      nextTurn s = .host ∧ ∃ off width, f = .hostStuck off width ∧ ¬ AccessAllowed off width ∧
        ((∃ ops, s.env.host = .read off width :: ops) ∨
         (∃ bytes ops, s.env.host = .write off bytes :: ops ∧ bytes.length = width))

/-! ## How a command ends -/

/-- A command fails with a code exactly when that code's cause is the first in the order P1 to P4; it then
writes the code, counts one completed command and does nothing else (60_exceptions R322 to R325, R327,
R328; of R322 the causes a decoded command can have). -/
def Obligations.CommandsFailExactlyByFirstCause : Prop :=
  ∀ (i : Instr) (s : State) (e : ErrCode), e ≠ .ok →
    (errorOf s i = some e ↔ exec i s = .next (failedState s e))

/-- A pending word completes with a code exactly when that code's cause is the first in the order P1 to
P4: a word that no command is encoded as is ILLEGAL, and the other causes are those of the command it
spells (60_exceptions R322 to R325, R327, R328). -/
def Obligations.PendingWordFailsByFirstCause : Prop :=
  ∀ (s : State) (q : Pending) (e : ErrCode), s.pending = some q → nextTurn s = .datapath →
    e ≠ .ok →
    (step s = .next (failedState (dropTurn s) e) ↔
      (e = .illegal ∧ ∀ i, encode i ≠ q.word) ∨ ∃ i, encode i = q.word ∧ errorOf s i = some e)

/-- A command whose checks pass and whose draws are all answered completes: RCNT grows by the draws its
rule counts, CCNT by one, ERR is OK, BUSY is 0, and nothing outside the slot file and DOUT changes
(70_reset R374, 00_scope R17). The counts of 43_domain R254 and R275 are inferences of the spec. The
answers left are the model's (notes/assumptions/3.md). -/
def Obligations.AnsweredCommandsComplete : Prop :=
  ∀ (i : Instr) (s : State) (ws : List Word) (rest : List Answer), errorOf s i = none →
    s.env.answers = ws.map .word ++ rest → ws.length = drawsOf s i →
    ∃ t, exec i s = .next t ∧ Completed s t (drawsOf s i) rest

/-- A command whose draws are not all answered yet stays pending, and nothing changes (20_memory R86, R91).
That the wait is a step that leaves the state as it is, is the model's (notes/assumptions/2.md, 3.md). -/
def Obligations.UnansweredCommandsWait : Prop :=
  ∀ (i : Instr) (s : State) (ws : List Word), errorOf s i = none →
    s.env.answers = ws.map .word → ws.length < drawsOf s i → exec i s = .next s

/-- When the entropy source fails a draw, the command is abandoned and the fatal event takes place: every
slot cleared, FATAL set, BUSY cleared, everything else as at acceptance (60_exceptions R329). That the
answers up to the failing one are used up is the model's (notes/assumptions/3.md). -/
def Obligations.EntropyFailureIsFatal : Prop :=
  ∀ (i : Instr) (s : State) (ws : List Word) (rest : List Answer), errorOf s i = none →
    s.env.answers = ws.map .word ++ .fail :: rest → ws.length < drawsOf s i →
    exec i s = .next (fatalState s rest)

/-- CONVERSION_FAILURE is never raised (60_exceptions R326). -/
def Obligations.ConversionFailureNeverRaised : Prop :=
  ∀ s t : State, s.err ≠ .conversionFailure → step s = .next t → t.err ≠ .conversionFailure

/-- No command writes DIN, LASTCMD, OVR or the configuration (10_state R38, R40, R41, R44, R49). The clauses on
the outside world's lists are the model's: that a command leaves the host's accesses, the schedule and the
list of reads (notes/assumptions/7.md, 4.md, 9.md), and that the answers left, also after the fatal event,
are the last of those there were (DEDUCED, notes/assumptions/3.md). -/
def Obligations.CommandsLeaveHostRegisters : Prop :=
  ∀ (i : Instr) (s t : State), exec i s = .next t →
    t.din = s.din ∧ t.lastCmd = s.lastCmd ∧ t.ovr = s.ovr ∧ t.cfg = s.cfg ∧
    t.env.host = s.env.host ∧ t.env.turns = s.env.turns ∧ t.env.reads = s.env.reads ∧
    t.env.answers <:+ s.env.answers

/-- DOUT is written only by UNMASK and INFO, and only when they succeed (10_state R39). -/
def Obligations.DoutWrittenOnlyByUnmaskAndInfo : Prop :=
  ∀ (i : Instr) (s t : State), exec i s = .next t → t.dout ≠ s.dout →
    (∃ rd, i = .unmask rd ∧ t.dout = slotSecret (s.slot rd.toNat)) ∨ (∃ rd, i = .info rd)

/-- No command changes the width or the order of a slot that is live before and after it, and only the
gadgets and converters change its domain (10_state R37). -/
def Obligations.LiveSlotsKeepShape : Prop :=
  ∀ (i : Instr) (s t : State) (j : Nat), exec i s = .next t →
    (s.slot j).valid = true → (t.slot j).valid = true →
    (t.slot j).wc = (s.slot j).wc ∧ (t.slot j).ord = (s.slot j).ord ∧
    ((t.slot j).dom ≠ (s.slot j).dom →
      instrOp i ∈ [.xor, .and, .or, .not, .shr, .shl, .rotr, .rotl, .add, .sub, .mult, .btoa, .atob,
        .towide, .tonarrow])

/-- While a command stays pending, DOUT, RCNT, CCNT, STATUS.ERR and the slot file keep their values,
whoever moves (20_memory R86). -/
def Obligations.PendingCommandHidesItsEffects : Prop :=
  ∀ (s t : State) (q : Pending), s.pending = some q → step s = .next t → t.pending = some q →
    t.dout = s.dout ∧ t.rcnt = s.rcnt ∧ t.ccnt = s.ccnt ∧ t.err = s.err ∧ t.slots = s.slots

/-- A write to DIN while a command is pending has no effect on that command (70_reset R373). -/
def Obligations.LaterDinWriteHasNoEffect : Prop :=
  ∀ (i : Instr) (s t : State) (q : Pending) (v : Word), s.pending = some q →
    exec i s = .next t → exec i { s with din := v } = .next { t with din := v }

/-! ## The host window (20_memory) -/

/-- A host write to CMD is accepted, dropped or ignored by STATUS.FATAL and STATUS.BUSY (70_reset R375,
R370). FATAL = 1 with BUSY = 1 never occurs (`State.Inv`; notes/assumptions/14.md). -/
def Obligations.CmdWriteOutcome : Prop :=
  ∀ (s : State) (bytes : List Byte) (ops : List HostOp), nextTurn s = .host →
    s.env.host = .write 0x00 bytes :: ops → bytes.length = 8 →
    let s' := afterHostOp s ops
    let c := (wordOf bytes).setWidth 32
    (s.fatal = false → s.pending = none →
      step s = .next { s' with lastCmd := c, pending := some { word := c, dinL := s.din } }) ∧
    (s.fatal = false → s.pending.isSome = true → step s = .next { s' with ovr := true }) ∧
    (s.fatal = true → s.pending = none → step s = .next s')

/-- A host read returns the register at its offset and changes nothing of MADP (20_memory R81, R84). The
list of returned values is the model's (notes/assumptions/9.md). -/
def Obligations.HostReadReturnsRegister : Prop :=
  ∀ (s : State) (off : Nat) (v : Word) (ops : List HostOp), nextTurn s = .host →
    s.env.host = .read off 8 :: ops →
    (off, v) ∈ [(0x00, 0#32 ++ s.lastCmd), (0x08, s.status), (0x10, s.din), (0x18, s.dout),
      (0x20, s.rcnt), (0x28, s.ccnt), (0x30, s.config)] →
    step s = .next { s with
      env := { s.env with
        host := ops, turns := s.env.turns.tail, reads := (off, bytesOf v) :: s.env.reads } }

/-- What host writes outside CMD do: STATUS clears OVR when bit 1 is written 1, DIN stores, the read-only
registers ignore the write (20_memory R81, R85; 10_state R38 to R40). -/
def Obligations.HostWriteEffects : Prop :=
  ∀ (s : State) (off : Nat) (bytes : List Byte) (ops : List HostOp), nextTurn s = .host →
    s.env.host = .write off bytes :: ops → bytes.length = 8 →
    (off = 0x08 → step s = .next
      { afterHostOp s ops with ovr := s.ovr && !(wordOf bytes).getLsbD 1 }) ∧
    (off = 0x10 → step s = .next { afterHostOp s ops with din := wordOf bytes }) ∧
    (off ∈ [0x18, 0x20, 0x28, 0x30] → step s = .next (afterHostOp s ops))

/-- The window is little-endian, and its bytes spell the register back (20_memory R83). -/
def Obligations.WindowBytesLittleEndian : Prop :=
  ∀ v : Word, (bytesOf v).length = 8 ∧
    (∀ k, k < 8 → (bytesOf v)[k]? = some (v.extractLsb' (8 * k) 8)) ∧ wordOf (bytesOf v) = v

/-- The fields of STATUS (10_state R40), and the numbers of the result codes (60_exceptions R321). -/
def Obligations.StatusRegisterFields : Prop :=
  ∀ s : State, s.status.getLsbD 0 = s.pending.isSome ∧ s.status.getLsbD 1 = s.ovr ∧
    s.status.getLsbD 2 = s.fatal ∧ s.status.extractLsb' 3 5 = 0 ∧
    s.status.extractLsb' 8 4 = errCode s.err ∧ s.status.extractLsb' 12 52 = 0 ∧
    errCode .ok = 0 ∧ errCode .invalidOrder = 1 ∧ errCode .allocation = 2 ∧
    errCode .domainMismatch = 3 ∧ errCode .conversionFailure = 4 ∧ errCode .illegal = 5

/-- The fields of CONFIG, and that no step changes it (10_state R44). -/
def Obligations.ConfigRegisterFields : Prop :=
  ∀ s : State, s.cfg.ok = true →
    (s.config.extractLsb' 0 4).toNat = s.cfg.maxOrder ∧
    (s.config.extractLsb' 8 8).toNat = s.cfg.nmv ∧
    s.config.extractLsb' 4 4 = 0 ∧ s.config.extractLsb' 16 48 = 0 ∧
    ∀ t, step s = .next t → t.config = s.config

/-! ## The secret of a slot -/

/-- A Boolean slot's secret is the XOR of its shares, an arithmetic slot's secret their sum modulo 2^w
(10_state R34, R35; 40_lifecycle R152). Stated for every slot record, as R152 is for every share vector; for
a free slot, whose secret 10_state R36 leaves undefined, both clauses are the model's choice
(notes/assumptions/17.md). -/
def Obligations.SecretIsXorOrSumOfShares : Prop :=
  ∀ r : Slot,
    (r.dom = .boolean → slotSecret r = lowBits (widthBits r.wc)
      ((List.range (shareCount r)).foldl (fun v k => v ^^^ r.sh.getD k 0) 0)) ∧
    (r.dom = .arith → (slotSecret r).toNat =
      ((List.range (shareCount r)).map fun k => (r.sh.getD k 0).toNat).sum % 2 ^ widthBits r.wc)

/-! ## Results of the lifecycle commands (40_lifecycle) -/

/-- NOP changes nothing but ERR and CCNT (40_lifecycle R140). -/
def Obligations.NopResult : Prop :=
  ∀ s : State, exec .nop s = .next
    { s with err := .ok, ccnt := s.ccnt + 1, pending := none }

/-- ALLOC makes a free slot live with zeroed shares (40_lifecycle R141). -/
def Obligations.AllocResult : Prop :=
  ∀ (s : State) (rd : SlotNo) (dom : Domain) (ord : BitVec 4) (wc : Width), s.Inv →
    errorOf s (.alloc rd dom ord wc) = none →
    ∃ t, exec (.alloc rd dom ord wc) s = .next t ∧ Completed s t 0 s.env.answers ∧
      t.dout = s.dout ∧ OtherSlotsKept s t [rd.toNat] ∧
      t.slot rd.toNat =
        { valid := true, dom := dom, ord := ord, wc := wc,
          sh := List.replicate (s.cfg.maxOrder + 1) 0 }

/-- MASK splits the low `w` bits of the latched DIN into `ord + 1` shares: the words drawn become the
shares behind share 0, and the secret is the plaintext (40_lifecycle R142, R143; the secret is an
inference of R143). -/
def Obligations.MaskResult : Prop :=
  ∀ (s : State) (q : Pending) (rd : SlotNo) (dom : Domain) (ord : BitVec 4) (wc : Width)
    (ws : List Word) (rest : List Answer), s.Inv → s.pending = some q →
    errorOf s (.mask rd dom ord wc) = none →
    s.env.answers = ws.map .word ++ rest → ws.length = ord.toNat →
    ∃ t, exec (.mask rd dom ord wc) s = .next t ∧ Completed s t ord.toNat rest ∧
      t.dout = s.dout ∧ OtherSlotsKept s t [rd.toNat] ∧
      (t.slot rd.toNat).valid = true ∧ (t.slot rd.toNat).dom = dom ∧
      (t.slot rd.toNat).ord = ord ∧ (t.slot rd.toNat).wc = wc ∧
      slotSecret (t.slot rd.toNat) = lowBits (widthBits wc) q.dinL ∧
      (∀ k, k < ord.toNat →
        (t.slot rd.toNat).sh.getD (k + 1) 0 = lowBits (widthBits wc) (ws.getD k 0)) ∧
      (∀ k, ord.toNat < k → (t.slot rd.toNat).sh.getD k 0 = 0)

/-- UNMASK writes the secret to DOUT and changes no slot (40_lifecycle R144). -/
def Obligations.UnmaskResult : Prop :=
  ∀ (s : State) (rd : SlotNo), errorOf s (.unmask rd) = none →
    ∃ t, exec (.unmask rd) s = .next t ∧ Completed s t 0 s.env.answers ∧ t.slots = s.slots ∧
      t.dout = slotSecret (s.slot rd.toNat)

/-- REFRESH keeps the secret, the domain, the order and the width, and folds each of the `ord` words it
draws into the share it is drawn for (40_lifecycle R145, R146; that the secret is kept is an inference of
R145). -/
def Obligations.RefreshResult : Prop :=
  ∀ (s : State) (rd : SlotNo) (ws : List Word) (rest : List Answer),
    errorOf s (.refresh rd) = none → s.env.answers = ws.map .word ++ rest →
    ws.length = (s.slot rd.toNat).ord.toNat →
    ∃ t, exec (.refresh rd) s = .next t ∧ Completed s t (s.slot rd.toNat).ord.toNat rest ∧
      t.dout = s.dout ∧ OtherSlotsKept s t [rd.toNat] ∧
      HoldsSecret (s.slot rd.toNat).dom (slotSecret (s.slot rd.toNat)) (s.slot rd.toNat)
        (t.slot rd.toNat) ∧
      ∀ k, k < (s.slot rd.toNat).ord.toNat →
        let old := (s.slot rd.toNat).sh.getD (k + 1) 0
        (t.slot rd.toNat).sh.getD (k + 1) 0 = lowBits (slotBits s rd)
          (if (s.slot rd.toNat).dom = .boolean then old ^^^ ws.getD k 0 else old + ws.getD k 0)

/-- CLONE copies a slot to a free one, with zeroed shares if asked (40_lifecycle R147). -/
def Obligations.CloneResult : Prop :=
  ∀ (s : State) (rd rs1 : SlotNo) (zero : Bool), s.Inv → errorOf s (.clone rd rs1 zero) = none →
    ∃ t, exec (.clone rd rs1 zero) s = .next t ∧ Completed s t 0 s.env.answers ∧
      t.dout = s.dout ∧ OtherSlotsKept s t [rd.toNat] ∧
      t.slot rd.toNat = if zero then
          { s.slot rs1.toNat with sh := List.replicate (s.cfg.maxOrder + 1) 0 }
        else s.slot rs1.toNat

/-- FREE clears a slot, live or free (40_lifecycle R148). -/
def Obligations.FreeResult : Prop :=
  ∀ (s : State) (rd : SlotNo), errorOf s (.free rd) = none →
    ∃ t, exec (.free rd) s = .next t ∧ Completed s t 0 s.env.answers ∧ t.dout = s.dout ∧
      OtherSlotsKept s t [rd.toNat] ∧
      t.slot rd.toNat = { valid := false, dom := .boolean, ord := 0, wc := .w8,
                          sh := List.replicate (s.cfg.maxOrder + 1) 0 }

/-- ALLOCM makes every slot of its range live with zeroed shares (40_lifecycle R149). -/
def Obligations.AllocmResult : Prop :=
  ∀ (s : State) (rd : SlotNo) (cnt : BitVec 5) (dom : Domain) (ord : BitVec 4) (wc : Width), s.Inv →
    errorOf s (.allocm rd cnt dom ord wc) = none →
    ∃ t, exec (.allocm rd cnt dom ord wc) s = .next t ∧ Completed s t 0 s.env.answers ∧
      t.dout = s.dout ∧
      ∀ i, t.slot i =
        if rd.toNat ≤ i ∧ i < rd.toNat + cnt.toNat then
          { valid := true, dom := dom, ord := ord, wc := wc,
            sh := List.replicate (s.cfg.maxOrder + 1) 0 }
        else s.slot i

/-- FREEM clears the slots of its range whose bit of the latched DIN is 0 (40_lifecycle R150). -/
def Obligations.FreemResult : Prop :=
  ∀ (s : State) (q : Pending) (rd : SlotNo) (cnt : BitVec 5), s.pending = some q →
    errorOf s (.freem rd cnt) = none →
    ∃ t, exec (.freem rd cnt) s = .next t ∧ Completed s t 0 s.env.answers ∧ t.dout = s.dout ∧
      ∀ i, t.slot i =
        if rd.toNat ≤ i ∧ i < rd.toNat + cnt.toNat ∧ q.dinL.getLsbD (i - rd.toNat) = false then
          { valid := false, dom := .boolean, ord := 0, wc := .w8,
            sh := List.replicate (s.cfg.maxOrder + 1) 0 }
        else s.slot i

/-- INFO writes the slot's metadata to DOUT and changes no slot (40_lifecycle R151, 10_state R33). -/
def Obligations.InfoResult : Prop :=
  ∀ (s : State) (rd : SlotNo), errorOf s (.info rd) = none →
    ∃ t, exec (.info rd) s = .next t ∧ Completed s t 0 s.env.answers ∧ t.slots = s.slots ∧
      let r := s.slot rd.toNat
      let wc := (widthCode r.wc).toNat
      t.dout.toNat = r.valid.toNat + 2 * (domainBit r.dom).toNat + 16 * r.ord.toNat + 256 * wc +
        65536 * (4 * r.ord.toNat + wc)

/-! ## Results of the gadgets (41_boolean, 42_arithmetic), for operands of either domain and every draw

The secrets of these results are what the spec itself infers from the share functions: "[derived]" in
41_boolean R190 and R194, 42_arithmetic R230 and R232, 43_domain R255 and R272. -/

/-- XOR, share by share (41_boolean R191). -/
def Obligations.XorResult : Prop :=
  ∀ (s : State) (rd rs1 rs2 : SlotNo), errorOf s (.xor rd rs1 rs2) = none →
    BinaryGadgetResult s (.xor rd rs1 rs2) .boolean
      (slotSecret (s.slot rs1.toNat) ^^^ slotSecret (s.slot rs2.toNat)) (some (· ^^^ ·)) rd rs1 rs2

/-- AND (41_boolean R192). -/
def Obligations.AndResult : Prop :=
  ∀ (s : State) (rd rs1 rs2 : SlotNo), errorOf s (.and rd rs1 rs2) = none →
    BinaryGadgetResult s (.and rd rs1 rs2) .boolean
      (slotSecret (s.slot rs1.toNat) &&& slotSecret (s.slot rs2.toNat)) none rd rs1 rs2

/-- OR (41_boolean R193). -/
def Obligations.OrResult : Prop :=
  ∀ (s : State) (rd rs1 rs2 : SlotNo), errorOf s (.or rd rs1 rs2) = none →
    BinaryGadgetResult s (.or rd rs1 rs2) .boolean
      (slotSecret (s.slot rs1.toNat) ||| slotSecret (s.slot rs2.toNat)) none rd rs1 rs2

/-- NOT complements share 0, and so the secret (41_boolean R194). -/
def Obligations.NotResult : Prop :=
  ∀ (s : State) (rd : SlotNo), errorOf s (.not rd) = none →
    UnaryGadgetResult s (.not rd)
      (fun k v => if k = 0 then lowBits (slotBits s rd) (~~~ v) else v) rd

/-- SHR and SHL by `shamt mod w`, every share and so the secret (41_boolean R195, R196). -/
def Obligations.ShiftResult : Prop :=
  ∀ (s : State) (rd : SlotNo) (shamt : BitVec 6),
    (errorOf s (.shr rd shamt) = none →
      UnaryGadgetResult s (.shr rd shamt) (fun _ v => v >>> (shamt.toNat % slotBits s rd)) rd) ∧
    (errorOf s (.shl rd shamt) = none →
      UnaryGadgetResult s (.shl rd shamt)
        (fun _ v => lowBits (slotBits s rd) (v <<< (shamt.toNat % slotBits s rd))) rd)

/-- ROTR and ROTL by `shamt mod w`, every share and so the secret (41_boolean R197, R198). -/
def Obligations.RotateResult : Prop :=
  ∀ (s : State) (rd : SlotNo) (shamt : BitVec 6),
    (errorOf s (.rotr rd shamt) = none →
      UnaryGadgetResult s (.rotr rd shamt)
        (fun _ v => ((v.setWidth (slotBits s rd)).rotateRight
          (shamt.toNat % slotBits s rd)).setWidth 64) rd) ∧
    (errorOf s (.rotl rd shamt) = none →
      UnaryGadgetResult s (.rotl rd shamt)
        (fun _ v => ((v.setWidth (slotBits s rd)).rotateLeft
          (shamt.toNat % slotBits s rd)).setWidth 64) rd)

/-- ADD, share by share (42_arithmetic R230). -/
def Obligations.AddResult : Prop :=
  ∀ (s : State) (rd rs1 rs2 : SlotNo), errorOf s (.add rd rs1 rs2) = none →
    BinaryGadgetResult s (.add rd rs1 rs2) .arith
      (lowBits (slotBits s rs1) (slotSecret (s.slot rs1.toNat) + slotSecret (s.slot rs2.toNat)))
      (some (· + ·)) rd rs1 rs2

/-- SUB, share by share (42_arithmetic R231). -/
def Obligations.SubResult : Prop :=
  ∀ (s : State) (rd rs1 rs2 : SlotNo), errorOf s (.sub rd rs1 rs2) = none →
    BinaryGadgetResult s (.sub rd rs1 rs2) .arith
      (lowBits (slotBits s rs1) (slotSecret (s.slot rs1.toNat) - slotSecret (s.slot rs2.toNat)))
      (some (· - ·)) rd rs1 rs2

/-- MULT (42_arithmetic R233). -/
def Obligations.MultResult : Prop :=
  ∀ (s : State) (rd rs1 rs2 : SlotNo), errorOf s (.mult rd rs1 rs2) = none →
    BinaryGadgetResult s (.mult rd rs1 rs2) .arith
      (lowBits (slotBits s rs1) (slotSecret (s.slot rs1.toNat) * slotSecret (s.slot rs2.toNat)))
      none rd rs1 rs2

/-! ## Results of the converters (43_domain, 44_width)

That the secrets are kept, and how TOWIDE's secret is made of its sources', is what the spec infers:
"[derived]" in 43_domain R255 and R272, 44_width R301 and R303. -/

/-- BTOA moves a slot to the arithmetic domain without changing its secret (43_domain R253 to R255). -/
def Obligations.BtoaResult : Prop :=
  ∀ (s : State) (rd : SlotNo), errorOf s (.btoa rd) = none →
    ConversionResult s (.btoa rd) .arith rd

/-- ATOB moves a slot to the Boolean domain without changing its secret (43_domain R272 to R275). -/
def Obligations.AtobResult : Prop :=
  ∀ (s : State) (rd : SlotNo), errorOf s (.atob rd) = none →
    ConversionResult s (.atob rd) .boolean rd

/-- TOWIDE packs the coerced sources lane by lane into a free slot: shares and secrets (44_width R300,
R301, R303). -/
def Obligations.TowideResult : Prop :=
  ∀ (s : State) (rd rs1 : SlotNo) (wc : Width) (ws : List Word) (rest : List Answer), s.Inv →
    errorOf s (.towide rd rs1 wc) = none → s.env.answers = ws.map .word ++ rest →
    ws.length = drawsOf s (.towide rd rs1 wc) →
    let w := slotBits s rs1
    let k := widthBits wc / w
    ∃ t, exec (.towide rd rs1 wc) s = .next t ∧
      Completed s t (drawsOf s (.towide rd rs1 wc)) rest ∧ t.dout = s.dout ∧
      OtherSlotsKept s t (rd.toNat :: (List.range k).map (rs1.toNat + ·)) ∧
      (t.slot rd.toNat).valid = true ∧ (t.slot rd.toNat).dom = .boolean ∧
      (t.slot rd.toNat).ord = (s.slot rs1.toNat).ord ∧ (t.slot rd.toNat).wc = wc ∧
      (∀ q, (s.slot rs1.toNat).ord.toNat < q → (t.slot rd.toNat).sh.getD q 0 = 0) ∧
      (∀ q, (t.slot rd.toNat).sh.getD q 0 = lowBits (widthBits wc) ((t.slot rd.toNat).sh.getD q 0)) ∧
      ∀ j, j < k →
        CoercedTo .boolean (s.slot (rs1.toNat + j)) (t.slot (rs1.toNat + j)) ∧
        ((slotSecret (t.slot rd.toNat)).extractLsb' (j * w) w).setWidth 64 =
          slotSecret (s.slot (rs1.toNat + j)) ∧
        ∀ q, q ≤ (s.slot rs1.toNat).ord.toNat →
          (((t.slot rd.toNat).sh.getD q 0).extractLsb' (j * w) w).setWidth 64 =
            (t.slot (rs1.toNat + j)).sh.getD q 0

/-- TONARROW slices the coerced source into its lanes: shares and secrets (44_width R300, R302, R303). -/
def Obligations.TonarrowResult : Prop :=
  ∀ (s : State) (rd rs1 : SlotNo) (wc : Width) (ws : List Word) (rest : List Answer), s.Inv →
    errorOf s (.tonarrow rd rs1 wc) = none → s.env.answers = ws.map .word ++ rest →
    ws.length = drawsOf s (.tonarrow rd rs1 wc) →
    let w := widthBits wc
    let k := slotBits s rs1 / w
    ∃ t, exec (.tonarrow rd rs1 wc) s = .next t ∧
      Completed s t (drawsOf s (.tonarrow rd rs1 wc)) rest ∧ t.dout = s.dout ∧
      OtherSlotsKept s t (rs1.toNat :: (List.range k).map (rd.toNat + ·)) ∧
      CoercedTo .boolean (s.slot rs1.toNat) (t.slot rs1.toNat) ∧
      ∀ j, j < k →
        (t.slot (rd.toNat + j)).valid = true ∧ (t.slot (rd.toNat + j)).dom = .boolean ∧
        (t.slot (rd.toNat + j)).ord = (s.slot rs1.toNat).ord ∧ (t.slot (rd.toNat + j)).wc = wc ∧
        slotSecret (t.slot (rd.toNat + j)) =
          ((slotSecret (s.slot rs1.toNat)).extractLsb' (j * w) w).setWidth 64 ∧
        (∀ q, q ≤ (s.slot rs1.toNat).ord.toNat →
          (t.slot (rd.toNat + j)).sh.getD q 0 =
            (((t.slot rs1.toNat).sh.getD q 0).extractLsb' (j * w) w).setWidth 64) ∧
        ∀ q, (s.slot rs1.toNat).ord.toNat < q → (t.slot (rd.toNat + j)).sh.getD q 0 = 0

/-! ## The share functions, for every width and every draw

Each identity is one that the spec marks "[derived]" in the rule cited. -/

/-- DomAnd keeps the AND of the secrets (41_boolean R190). -/
def Obligations.DomAndKeepsProduct : Prop :=
  ∀ (w : Nat) (a b o : List (BitVec w)) (p p' : Port), a.length = b.length →
    domAnd a b p = .ok (o, p') → xorAll o = xorAll a &&& xorAll b

/-- DomMult keeps the product of the secrets modulo 2^w (42_arithmetic R232). -/
def Obligations.DomMultKeepsProduct : Prop :=
  ∀ (w : Nat) (a b o : List (BitVec w)) (p p' : Port), a.length = b.length →
    domMult a b p = .ok (o, p') → sumAll o = sumAll a * sumAll b

/-- A CSA node keeps the sum of its three inputs (43_domain R262). -/
def Obligations.CsaKeepsSum : Prop :=
  ∀ (w : Nat) (x y z o c : List (BitVec w)) (p p' : Port),
    x.length = y.length → y.length = z.length → csa x y z p = .ok ((o, c), p') →
    xorAll o + xorAll c = xorAll x + xorAll y + xorAll z

/-- The Kogge-Stone adder adds the secrets of its inputs modulo 2^w (43_domain R270). -/
def Obligations.KoggeStoneAdds : Prop :=
  ∀ (wc : Width) (a b o : List (BitVec (widthBits wc))) (p p' : Port), a.length = b.length →
    ksAdd a b p = .ok (o, p') → xorAll o = xorAll a + xorAll b

/-- B2A turns the XOR of the shares into their sum, for every n >= 2, every width and every draw. R255 is
the spec's own inference: "[derived: from rule R251 by induction on m, with the affine identity of rule
R251 ...]", whose parity term is 93 I1. -/
def Obligations.BooleanToArithmeticKeepsSecret : Prop :=
  ∀ (wc : Width) (a o : List (BitVec (widthBits wc))) (p p' : Port), 2 ≤ a.length →
    b2a a p = .ok (o, p') → sumAll o = xorAll a

/-- Slicing gives back the lanes that packing placed (44_width R300, R302; 90 C5). -/
def Obligations.SlicingUndoesPacking : Prop :=
  ∀ (w wt j : Nat) (lanes : List (BitVec w)), lanes.length * w ≤ wt → j < lanes.length →
    lane w (packLanes w wt lanes) j = lanes.getD j 0
end

