-- ==== Sys2Proof/Laws/Draw.lean ====
section
/-! SUPPORT. Random draws. A command's pseudocode makes a number of draws that does not depend on the
words drawn (00_scope R17), so a drawing computation is: take `k` words, then a function of them.
`DrawsExactly m k P` says so of `m`, with `P` true of every result; the rules below build it for every
drawing function of the model, and `runCommand_of_draws` turns it into what a command can do. -/

namespace Sys2Proof.Machine

/-- The first `k` answers as words, and the answers behind them; or why there are no `k` words. -/
def takeWords : Nat → List Answer → Except DrawStop (List Word × List Answer)
  | 0, l => .ok ([], l)
  | _ + 1, [] => .error .blocked
  | _ + 1, .fail :: rest => .error (.failed rest)
  | k + 1, .word e :: l =>
    match takeWords k l with
    | .ok (ws, rest) => .ok (e :: ws, rest)
    | .error r => .error r

/-- `m` makes exactly `k` draws, and every result it gives satisfies `P`. -/
def DrawsExactly {α : Type} (m : Draw α) (k : Nat) (P : α → Prop) : Prop :=
  ∃ f : List Word → α, (∀ ws, ws.length = k → P (f ws)) ∧
    ∀ p : Port, m p = match takeWords k p.answers with
      | .ok (ws, rest) => .ok (f ws, { answers := rest, count := p.count + k })
      | .error r => .error r

theorem takeWords_words (ws : List Word) (rest : List Answer) :
    takeWords ws.length (ws.map .word ++ rest) = .ok (ws, rest) := by
  induction ws with
  | nil => rfl
  | cons e ws ih => simp [takeWords, ih]

theorem takeWords_blocked {k : Nat} (ws : List Word) (h : ws.length < k) :
    takeWords k (ws.map .word) = .error .blocked := by
  induction ws generalizing k with
  | nil => cases k with
    | zero => simp at h
    | succ k => rfl
  | cons e ws ih => cases k with
    | zero => simp at h
    | succ k => simp [takeWords, ih (by simpa using h)]

theorem takeWords_failed {k : Nat} (ws : List Word) (rest : List Answer) (h : ws.length < k) :
    takeWords k (ws.map .word ++ .fail :: rest) = .error (.failed rest) := by
  induction ws generalizing k with
  | nil => cases k with
    | zero => simp at h
    | succ k => rfl
  | cons e ws ih => cases k with
    | zero => simp at h
    | succ k => simp [takeWords, ih (by simpa using h)]

/-- The three ways to ask for `k` words. -/
theorem takeWords_cases (k : Nat) (l : List Answer) :
    (∃ (ws : List Word) (rest : List Answer), l = ws.map .word ++ rest ∧ ws.length = k ∧ takeWords k l = .ok (ws, rest)) ∨
    (∃ ws : List Word, l = ws.map .word ∧ ws.length < k ∧ takeWords k l = .error .blocked) ∨
    (∃ (ws : List Word) (rest : List Answer), l = ws.map .word ++ .fail :: rest ∧ ws.length < k ∧
      takeWords k l = .error (.failed rest)) := by
  induction k generalizing l with
  | zero => exact .inl ⟨[], l, rfl, rfl, rfl⟩
  | succ k ih =>
    match l with
    | [] => exact .inr (.inl ⟨[], rfl, by simp, rfl⟩)
    | .fail :: rest => exact .inr (.inr ⟨[], rest, rfl, by simp, rfl⟩)
    | .word e :: l =>
      rcases ih l with ⟨ws, rest, hl, hk, ht⟩ | ⟨ws, hl, hk, ht⟩ | ⟨ws, rest, hl, hk, ht⟩
      · exact .inl ⟨e :: ws, rest, by simp [hl], by simp [hk], by simp [takeWords, ht]⟩
      · exact .inr (.inl ⟨e :: ws, by simp [hl], by simpa using hk, by simp [takeWords, ht]⟩)
      · exact .inr (.inr ⟨e :: ws, rest, by simp [hl], by simpa using hk, by simp [takeWords, ht]⟩)

theorem takeWords_add (a b : Nat) (l : List Answer) :
    takeWords (a + b) l = match takeWords a l with
      | .ok (ws, rest) => (match takeWords b rest with
        | .ok (vs, rest') => .ok (ws ++ vs, rest')
        | .error r => .error r)
      | .error r => .error r := by
  induction a generalizing l with
  | zero => simp only [Nat.zero_add, takeWords]; cases takeWords b l <;> rfl
  | succ a ih =>
    match l with
    | [] => simp [Nat.succ_add, takeWords]
    | .fail :: rest => simp [Nat.succ_add, takeWords]
    | .word e :: l =>
      rw [Nat.succ_add]
      simp only [takeWords, ih]
      rcases takeWords a l with r | ⟨ws, rest⟩
      · rfl
      · dsimp only
        rcases takeWords b rest with _ | ⟨vs, rest'⟩ <;> rfl

theorem DrawsExactly.mono {α : Type} {m : Draw α} {k : Nat} {P Q : α → Prop}
    (h : DrawsExactly m k P) (hPQ : ∀ a, P a → Q a) : DrawsExactly m k Q := by
  obtain ⟨f, hf, hm⟩ := h
  exact ⟨f, fun ws hw => hPQ _ (hf ws hw), hm⟩

theorem DrawsExactly.of_eq {α : Type} {m : Draw α} {j k : Nat} {P : α → Prop}
    (h : DrawsExactly m j P) (hjk : j = k) : DrawsExactly m k P := hjk ▸ h

theorem drawsExactly_pure {α : Type} {a : α} {P : α → Prop} (h : P a) :
    DrawsExactly (pure a) 0 P :=
  ⟨fun _ => a, fun _ _ => h, fun _ => rfl⟩

theorem drawsExactly_draw (w : Nat) : DrawsExactly (draw w) 1 (fun _ => True) := by
  refine ⟨fun ws => (ws.getD 0 0).setWidth w, fun _ _ => trivial, fun p => ?_⟩
  obtain ⟨l, c⟩ := p
  match l with
  | [] => rfl
  | .fail :: _ => rfl
  | .word e :: rest => rfl

theorem drawsExactly_bind {α β : Type} {m : Draw α} {g : α → Draw β} {j k : Nat} {P : α → Prop}
    {Q : β → Prop} (hm : DrawsExactly m j P) (hg : ∀ a, P a → DrawsExactly (g a) k Q) :
    DrawsExactly (m >>= g) (j + k) Q := by
  classical
  obtain ⟨f, hf, hm⟩ := hm
  let F : α → List Word → β := fun a ws =>
    if h : P a then (hg a h).choose ws else (hg (f (List.replicate j 0)) (hf _ (by simp))).choose ws
  refine ⟨fun ws => F (f (ws.take j)) (ws.drop j), fun ws hws => ?_, fun p => ?_⟩
  · have hp := hf (ws.take j) (by simp [hws])
    simp only [F, dif_pos hp]
    exact (hg _ hp).choose_spec.1 _ (by simp [hws])
  · show (m p >>= fun ap => g ap.1 ap.2) = _
    rw [hm p, takeWords_add]
    rcases takeWords_cases j p.answers with ⟨ws, rest, _, hk, ht⟩ | ⟨ws, _, _, ht⟩ | ⟨ws, rest, _, _, ht⟩
    · have hp := hf ws hk
      have hgp := (hg _ hp).choose_spec.2
      rw [ht]
      show g (f ws) { answers := rest, count := p.count + j } = _
      rw [hgp]
      rcases takeWords_cases k rest with ⟨vs, r2, _, hv, h2⟩ | ⟨vs, _, _, h2⟩ | ⟨vs, r2, _, _, h2⟩
      · subst hk
        simp [h2, F, hp, Nat.add_assoc]
      · simp [h2]
      · simp [h2]
    · rw [ht]; rfl
    · rw [ht]; rfl

/-- A loop whose every round makes `k` draws. -/
theorem drawsExactly_foldlM {α β : Type} {g : β → α → Draw β} {k : Nat} {P : β → Prop}
    (l : List α) {b : β} (hb : P b) (hg : ∀ b a, P b → DrawsExactly (g b a) k P) :
    DrawsExactly (l.foldlM g b) (l.length * k) P := by
  induction l generalizing b with
  | nil => exact (drawsExactly_pure hb).of_eq (by simp)
  | cons a l ih =>
    simp only [List.foldlM_cons]
    exact (drawsExactly_bind (hg b a hb) fun c hc => ih hc).of_eq (by
      simp [Nat.succ_mul, Nat.add_comm])

theorem drawsExactly_drawMany (w n : Nat) :
    DrawsExactly (drawMany w n) n (fun rs => rs.length = n) := by
  induction n with
  | zero => exact drawsExactly_pure rfl
  | succ n ih =>
    refine (drawsExactly_bind (drawsExactly_draw w) fun r _ =>
      drawsExactly_bind ih fun rs hrs => drawsExactly_pure ?_).of_eq (by omega)
    simp [hrs]

/-! ## What a command can do -/

/-- A command whose check fails completes with that check's code (60_exceptions R327, R328). -/
theorem runCommand_of_fail {s : State} {cs : List (Bool × ErrCode)} {e : ErrCode} (b : Draw Effect)
    (h : firstFail cs = some e) : runCommand s cs b = .next (failWith s e) := by
  simp [runCommand, h]

/-- What `runCommand` can answer, with the draws its body makes: completion with the body's effect,
waiting for an answer, or the fatal event. -/
theorem runCommand_of_draws {s : State} {cs : List (Bool × ErrCode)} {b : Draw Effect} {k : Nat}
    {P : Effect → Prop} (hc : firstFail cs = none) (hb : DrawsExactly b k P) :
    (∃ (e : Effect) (ws : List Word) (rest : List Answer), P e ∧ s.env.answers = ws.map .word ++ rest ∧ ws.length = k ∧
      runCommand s cs b = .next (commit s e { answers := rest, count := k })) ∨
    (∃ ws : List Word, s.env.answers = ws.map .word ∧ ws.length < k ∧ runCommand s cs b = .next s) ∨
    (∃ (ws : List Word) (rest : List Answer), s.env.answers = ws.map .word ++ .fail :: rest ∧ ws.length < k ∧
      runCommand s cs b = .next (fatalEvent s rest)) := by
  obtain ⟨f, hf, hb⟩ := hb
  rcases takeWords_cases k s.env.answers with ⟨ws, rest, hl, hk, ht⟩ | ⟨ws, hl, hk, ht⟩ |
    ⟨ws, rest, hl, hk, ht⟩
  · exact .inl ⟨f ws, ws, rest, hf ws hk, hl, hk, by simp [runCommand, hc, hb, ht]⟩
  · exact .inr (.inl ⟨ws, hl, hk, by simp [runCommand, hc, hb, ht]⟩)
  · exact .inr (.inr ⟨ws, rest, hl, hk, by simp [runCommand, hc, hb, ht]⟩)

/-- A command that makes no draw completes at once (70_reset R374). -/
theorem runCommand_pure {s : State} {cs : List (Bool × ErrCode)} (e : Effect)
    (hc : firstFail cs = none) :
    runCommand s cs (pure e) = .next (commit s e { answers := s.env.answers, count := 0 }) := by
  simp [runCommand, hc, pure, StateT.pure, Except.pure]

/-- Every answer of `runCommand` is a next state (60_exceptions R320). -/
theorem runCommand_next (s : State) (cs : List (Bool × ErrCode)) (b : Draw Effect) :
    ∃ t, runCommand s cs b = .next t := by
  unfold runCommand
  split
  · exact ⟨_, rfl⟩
  · split <;> exact ⟨_, rfl⟩

end Sys2Proof.Machine
end

