-- ==== Sys2Proof/Laws/PerInstr.lean ====
section
/-! SUPPORT. The encoding of every command agrees with its row of the opcode table (30_encoding R109):
the word's fixed bits are the row's match. One lemma per format, then one per constructor of `Instr`. -/

namespace Sys2Proof

theorem packZ_fixed (o : BitVec 6) :
    packZ o &&& formatMask .fmtZ = o ++ 0#26 := by
  apply BitVec.eq_of_getLsbD_eq
  intro i hi
  simp only [packZ, formatMask, BitVec.getLsbD_and, BitVec.getLsbD_append]
  interval_cases i <;> simp

theorem packN_fixed (o : BitVec 6) (rd : SlotNo) (ord : BitVec 4) (wc : BitVec 2) (dom : BitVec 1) :
    packN o rd ord wc dom &&& formatMask .fmtN = o ++ 0#26 := by
  apply BitVec.eq_of_getLsbD_eq
  intro i hi
  simp only [packN, formatMask, BitVec.getLsbD_and, BitVec.getLsbD_append]
  interval_cases i <;> simp

theorem packNB_fixed (o : BitVec 6) (rd : SlotNo) (cnt : BitVec 5) (ord : BitVec 4) (wc : BitVec 2) (dom : BitVec 1) :
    packNB o rd cnt ord wc dom &&& formatMask .fmtNB = o ++ 0#26 := by
  apply BitVec.eq_of_getLsbD_eq
  intro i hi
  simp only [packNB, formatMask, BitVec.getLsbD_and, BitVec.getLsbD_append]
  interval_cases i <;> simp

theorem packB_fixed (o : BitVec 6) (rd : SlotNo) (cnt : BitVec 5) :
    packB o rd cnt &&& formatMask .fmtB = o ++ 0#26 := by
  apply BitVec.eq_of_getLsbD_eq
  intro i hi
  simp only [packB, formatMask, BitVec.getLsbD_and, BitVec.getLsbD_append]
  interval_cases i <;> simp

theorem packR1_fixed (o : BitVec 6) (rd : SlotNo) :
    packR1 o rd &&& formatMask .fmtR1 = o ++ 0#26 := by
  apply BitVec.eq_of_getLsbD_eq
  intro i hi
  simp only [packR1, formatMask, BitVec.getLsbD_and, BitVec.getLsbD_append]
  interval_cases i <;> simp

theorem packRC_fixed (o : BitVec 6) (rd rs1 : SlotNo) (z : BitVec 1) :
    packRC o rd rs1 z &&& formatMask .fmtRC = o ++ 0#26 := by
  apply BitVec.eq_of_getLsbD_eq
  intro i hi
  simp only [packRC, formatMask, BitVec.getLsbD_and, BitVec.getLsbD_append]
  interval_cases i <;> simp

theorem packR3_fixed (o : BitVec 6) (rd rs1 rs2 : SlotNo) :
    packR3 o rd rs1 rs2 &&& formatMask .fmtR3 = o ++ 0#26 := by
  apply BitVec.eq_of_getLsbD_eq
  intro i hi
  simp only [packR3, formatMask, BitVec.getLsbD_and, BitVec.getLsbD_append]
  interval_cases i <;> simp

theorem packSH_fixed (o : BitVec 6) (rd : SlotNo) (shamt : BitVec 6) :
    packSH o rd shamt &&& formatMask .fmtSH = o ++ 0#26 := by
  apply BitVec.eq_of_getLsbD_eq
  intro i hi
  simp only [packSH, formatMask, BitVec.getLsbD_and, BitVec.getLsbD_append]
  interval_cases i <;> simp

theorem packW_fixed (o : BitVec 6) (rd rs1 : SlotNo) (wc : BitVec 2) :
    packW o rd rs1 wc &&& formatMask .fmtW = o ++ 0#26 := by
  apply BitVec.eq_of_getLsbD_eq
  intro i hi
  simp only [packW, formatMask, BitVec.getLsbD_and, BitVec.getLsbD_append]
  interval_cases i <;> simp

end Sys2Proof

namespace Sys2Proof.Laws.TableRow

/-- The word of a command has its row's fixed bits: the opcode, and 0 at every reserved bit
(30_encoding R108, R109). -/
def Statement (i : Instr) : Prop := encode i &&& opMask (instrOp i) = opMatch (instrOp i)

theorem nop : Statement (.nop) :=
  packZ_fixed _

theorem alloc (rd : SlotNo) (dom : Domain) (ord : BitVec 4) (wc : Width) : Statement (.alloc rd dom ord wc) :=
  packN_fixed _ _ _ _ _

theorem mask (rd : SlotNo) (dom : Domain) (ord : BitVec 4) (wc : Width) : Statement (.mask rd dom ord wc) :=
  packN_fixed _ _ _ _ _

theorem unmask (rd : SlotNo) : Statement (.unmask rd) :=
  packR1_fixed _ _

theorem refresh (rd : SlotNo) : Statement (.refresh rd) :=
  packR1_fixed _ _

theorem clone (rd : SlotNo) (rs1 : SlotNo) (zero : Bool) : Statement (.clone rd rs1 zero) :=
  packRC_fixed _ _ _ _

theorem free (rd : SlotNo) : Statement (.free rd) :=
  packR1_fixed _ _

theorem allocm (rd : SlotNo) (cnt : BitVec 5) (dom : Domain) (ord : BitVec 4) (wc : Width) : Statement (.allocm rd cnt dom ord wc) :=
  packNB_fixed _ _ _ _ _ _

theorem freem (rd : SlotNo) (cnt : BitVec 5) : Statement (.freem rd cnt) :=
  packB_fixed _ _ _

theorem info (rd : SlotNo) : Statement (.info rd) :=
  packR1_fixed _ _

theorem xor (rd : SlotNo) (rs1 : SlotNo) (rs2 : SlotNo) : Statement (.xor rd rs1 rs2) :=
  packR3_fixed _ _ _ _

theorem and (rd : SlotNo) (rs1 : SlotNo) (rs2 : SlotNo) : Statement (.and rd rs1 rs2) :=
  packR3_fixed _ _ _ _

theorem or (rd : SlotNo) (rs1 : SlotNo) (rs2 : SlotNo) : Statement (.or rd rs1 rs2) :=
  packR3_fixed _ _ _ _

theorem not (rd : SlotNo) : Statement (.not rd) :=
  packR1_fixed _ _

theorem shr (rd : SlotNo) (shamt : BitVec 6) : Statement (.shr rd shamt) :=
  packSH_fixed _ _ _

theorem shl (rd : SlotNo) (shamt : BitVec 6) : Statement (.shl rd shamt) :=
  packSH_fixed _ _ _

theorem rotr (rd : SlotNo) (shamt : BitVec 6) : Statement (.rotr rd shamt) :=
  packSH_fixed _ _ _

theorem rotl (rd : SlotNo) (shamt : BitVec 6) : Statement (.rotl rd shamt) :=
  packSH_fixed _ _ _

theorem add (rd : SlotNo) (rs1 : SlotNo) (rs2 : SlotNo) : Statement (.add rd rs1 rs2) :=
  packR3_fixed _ _ _ _

theorem sub (rd : SlotNo) (rs1 : SlotNo) (rs2 : SlotNo) : Statement (.sub rd rs1 rs2) :=
  packR3_fixed _ _ _ _

theorem mult (rd : SlotNo) (rs1 : SlotNo) (rs2 : SlotNo) : Statement (.mult rd rs1 rs2) :=
  packR3_fixed _ _ _ _

theorem btoa (rd : SlotNo) : Statement (.btoa rd) :=
  packR1_fixed _ _

theorem atob (rd : SlotNo) : Statement (.atob rd) :=
  packR1_fixed _ _

theorem towide (rd : SlotNo) (rs1 : SlotNo) (wc : Width) : Statement (.towide rd rs1 wc) :=
  packW_fixed _ _ _ _

theorem tonarrow (rd : SlotNo) (rs1 : SlotNo) (wc : Width) : Statement (.tonarrow rd rs1 wc) :=
  packW_fixed _ _ _ _

end Sys2Proof.Laws.TableRow
end

