-- ==== Sys2Proof/Laws/State.lean ====
section
/-! SUPPORT. One lemma per field per update of the state, each true by unfolding the update, so that no
later proof unfolds a record update; and the read-after-write lemmas of the slot file and of one slot. -/

namespace Sys2Proof.Machine

@[simp] theorem commit_cfg (s : State) (e : Effect) (p : Port) : (commit s e p).cfg = s.cfg := rfl
@[simp] theorem commit_slots (s : State) (e : Effect) (p : Port) :
    (commit s e p).slots = e.slots := rfl
@[simp] theorem commit_din (s : State) (e : Effect) (p : Port) : (commit s e p).din = s.din := rfl
@[simp] theorem commit_dout (s : State) (e : Effect) (p : Port) :
    (commit s e p).dout = e.dout := rfl
@[simp] theorem commit_ovr (s : State) (e : Effect) (p : Port) : (commit s e p).ovr = s.ovr := rfl
@[simp] theorem commit_fatal (s : State) (e : Effect) (p : Port) :
    (commit s e p).fatal = s.fatal := rfl
@[simp] theorem commit_err (s : State) (e : Effect) (p : Port) : (commit s e p).err = .ok := rfl
@[simp] theorem commit_lastCmd (s : State) (e : Effect) (p : Port) :
    (commit s e p).lastCmd = s.lastCmd := rfl
@[simp] theorem commit_rcnt (s : State) (e : Effect) (p : Port) :
    (commit s e p).rcnt = s.rcnt + BitVec.ofNat 64 p.count := rfl
@[simp] theorem commit_ccnt (s : State) (e : Effect) (p : Port) :
    (commit s e p).ccnt = s.ccnt + 1 := rfl
@[simp] theorem commit_pending (s : State) (e : Effect) (p : Port) :
    (commit s e p).pending = none := rfl
@[simp] theorem commit_env (s : State) (e : Effect) (p : Port) :
    (commit s e p).env = { s.env with answers := p.answers } := rfl

@[simp] theorem failWith_cfg (s : State) (e : ErrCode) : (failWith s e).cfg = s.cfg := rfl
@[simp] theorem failWith_slots (s : State) (e : ErrCode) : (failWith s e).slots = s.slots := rfl
@[simp] theorem failWith_din (s : State) (e : ErrCode) : (failWith s e).din = s.din := rfl
@[simp] theorem failWith_dout (s : State) (e : ErrCode) : (failWith s e).dout = s.dout := rfl
@[simp] theorem failWith_ovr (s : State) (e : ErrCode) : (failWith s e).ovr = s.ovr := rfl
@[simp] theorem failWith_fatal (s : State) (e : ErrCode) : (failWith s e).fatal = s.fatal := rfl
@[simp] theorem failWith_err (s : State) (e : ErrCode) : (failWith s e).err = e := rfl
@[simp] theorem failWith_lastCmd (s : State) (e : ErrCode) :
    (failWith s e).lastCmd = s.lastCmd := rfl
@[simp] theorem failWith_rcnt (s : State) (e : ErrCode) : (failWith s e).rcnt = s.rcnt := rfl
@[simp] theorem failWith_ccnt (s : State) (e : ErrCode) : (failWith s e).ccnt = s.ccnt + 1 := rfl
@[simp] theorem failWith_pending (s : State) (e : ErrCode) : (failWith s e).pending = none := rfl
@[simp] theorem failWith_env (s : State) (e : ErrCode) : (failWith s e).env = s.env := rfl

@[simp] theorem fatalEvent_cfg (s : State) (l : List Answer) : (fatalEvent s l).cfg = s.cfg := rfl
@[simp] theorem fatalEvent_slots (s : State) (l : List Answer) :
    (fatalEvent s l).slots = s.slots.map (fun _ => Slot.free s.cfg) := rfl
@[simp] theorem fatalEvent_din (s : State) (l : List Answer) : (fatalEvent s l).din = s.din := rfl
@[simp] theorem fatalEvent_dout (s : State) (l : List Answer) :
    (fatalEvent s l).dout = s.dout := rfl
@[simp] theorem fatalEvent_ovr (s : State) (l : List Answer) : (fatalEvent s l).ovr = s.ovr := rfl
@[simp] theorem fatalEvent_fatal (s : State) (l : List Answer) :
    (fatalEvent s l).fatal = true := rfl
@[simp] theorem fatalEvent_err (s : State) (l : List Answer) : (fatalEvent s l).err = s.err := rfl
@[simp] theorem fatalEvent_lastCmd (s : State) (l : List Answer) :
    (fatalEvent s l).lastCmd = s.lastCmd := rfl
@[simp] theorem fatalEvent_rcnt (s : State) (l : List Answer) :
    (fatalEvent s l).rcnt = s.rcnt := rfl
@[simp] theorem fatalEvent_ccnt (s : State) (l : List Answer) :
    (fatalEvent s l).ccnt = s.ccnt := rfl
@[simp] theorem fatalEvent_pending (s : State) (l : List Answer) :
    (fatalEvent s l).pending = none := rfl
@[simp] theorem fatalEvent_env (s : State) (l : List Answer) :
    (fatalEvent s l).env = { s.env with answers := l } := rfl

@[simp] theorem resetInput_cfg (s : State) : (resetInput s).cfg = s.cfg := rfl
@[simp] theorem resetInput_slots (s : State) :
    (resetInput s).slots = List.replicate s.cfg.nmv (Slot.free s.cfg) := rfl
@[simp] theorem resetInput_din (s : State) : (resetInput s).din = 0 := rfl
@[simp] theorem resetInput_dout (s : State) : (resetInput s).dout = 0 := rfl
@[simp] theorem resetInput_ovr (s : State) : (resetInput s).ovr = false := rfl
@[simp] theorem resetInput_fatal (s : State) : (resetInput s).fatal = false := rfl
@[simp] theorem resetInput_err (s : State) : (resetInput s).err = .ok := rfl
@[simp] theorem resetInput_lastCmd (s : State) : (resetInput s).lastCmd = 0 := rfl
@[simp] theorem resetInput_rcnt (s : State) : (resetInput s).rcnt = 0 := rfl
@[simp] theorem resetInput_ccnt (s : State) : (resetInput s).ccnt = 0 := rfl
@[simp] theorem resetInput_pending (s : State) : (resetInput s).pending = none := rfl
@[simp] theorem resetInput_env (s : State) : (resetInput s).env = s.env := rfl

@[simp] theorem dropTurn_cfg (s : State) : (dropTurn s).cfg = s.cfg := rfl
@[simp] theorem dropTurn_slots (s : State) : (dropTurn s).slots = s.slots := rfl
@[simp] theorem dropTurn_din (s : State) : (dropTurn s).din = s.din := rfl
@[simp] theorem dropTurn_dout (s : State) : (dropTurn s).dout = s.dout := rfl
@[simp] theorem dropTurn_ovr (s : State) : (dropTurn s).ovr = s.ovr := rfl
@[simp] theorem dropTurn_fatal (s : State) : (dropTurn s).fatal = s.fatal := rfl
@[simp] theorem dropTurn_err (s : State) : (dropTurn s).err = s.err := rfl
@[simp] theorem dropTurn_lastCmd (s : State) : (dropTurn s).lastCmd = s.lastCmd := rfl
@[simp] theorem dropTurn_rcnt (s : State) : (dropTurn s).rcnt = s.rcnt := rfl
@[simp] theorem dropTurn_ccnt (s : State) : (dropTurn s).ccnt = s.ccnt := rfl
@[simp] theorem dropTurn_pending (s : State) : (dropTurn s).pending = s.pending := rfl
@[simp] theorem dropTurn_env (s : State) :
    (dropTurn s).env = { s.env with turns := s.env.turns.tail } := rfl

@[simp] theorem answerArrives_cfg (s : State) (a : Answer) : (answerArrives s a).cfg = s.cfg := rfl
@[simp] theorem answerArrives_slots (s : State) (a : Answer) :
    (answerArrives s a).slots = s.slots := rfl
@[simp] theorem answerArrives_din (s : State) (a : Answer) : (answerArrives s a).din = s.din := rfl
@[simp] theorem answerArrives_dout (s : State) (a : Answer) :
    (answerArrives s a).dout = s.dout := rfl
@[simp] theorem answerArrives_ovr (s : State) (a : Answer) : (answerArrives s a).ovr = s.ovr := rfl
@[simp] theorem answerArrives_fatal (s : State) (a : Answer) :
    (answerArrives s a).fatal = s.fatal := rfl
@[simp] theorem answerArrives_err (s : State) (a : Answer) : (answerArrives s a).err = s.err := rfl
@[simp] theorem answerArrives_lastCmd (s : State) (a : Answer) :
    (answerArrives s a).lastCmd = s.lastCmd := rfl
@[simp] theorem answerArrives_rcnt (s : State) (a : Answer) :
    (answerArrives s a).rcnt = s.rcnt := rfl
@[simp] theorem answerArrives_ccnt (s : State) (a : Answer) :
    (answerArrives s a).ccnt = s.ccnt := rfl
@[simp] theorem answerArrives_pending (s : State) (a : Answer) :
    (answerArrives s a).pending = s.pending := rfl
@[simp] theorem answerArrives_env (s : State) (a : Answer) :
    (answerArrives s a).env = { s.env with answers := s.env.answers ++ [a] } := rfl

@[simp] theorem placeCommand_cfg (s : State) (c : CmdWord) : (placeCommand s c).cfg = s.cfg := rfl
@[simp] theorem placeCommand_slots (s : State) (c : CmdWord) :
    (placeCommand s c).slots = s.slots := rfl
@[simp] theorem placeCommand_din (s : State) (c : CmdWord) : (placeCommand s c).din = s.din := rfl
@[simp] theorem placeCommand_dout (s : State) (c : CmdWord) :
    (placeCommand s c).dout = s.dout := rfl
@[simp] theorem placeCommand_ovr (s : State) (c : CmdWord) : (placeCommand s c).ovr = s.ovr := rfl
@[simp] theorem placeCommand_fatal (s : State) (c : CmdWord) :
    (placeCommand s c).fatal = s.fatal := rfl
@[simp] theorem placeCommand_err (s : State) (c : CmdWord) : (placeCommand s c).err = s.err := rfl
@[simp] theorem placeCommand_lastCmd (s : State) (c : CmdWord) :
    (placeCommand s c).lastCmd = c := rfl
@[simp] theorem placeCommand_rcnt (s : State) (c : CmdWord) :
    (placeCommand s c).rcnt = s.rcnt := rfl
@[simp] theorem placeCommand_ccnt (s : State) (c : CmdWord) :
    (placeCommand s c).ccnt = s.ccnt := rfl
@[simp] theorem placeCommand_pending (s : State) (c : CmdWord) :
    (placeCommand s c).pending = some { word := c, dinL := s.din } := rfl
@[simp] theorem placeCommand_env (s : State) (c : CmdWord) :
    (placeCommand s c).env = { s.env with turns := .datapath :: s.env.turns } := rfl

@[simp] theorem free_valid (p : Params) : (Slot.free p).valid = false := rfl
@[simp] theorem free_dom (p : Params) : (Slot.free p).dom = .boolean := rfl
@[simp] theorem free_ord (p : Params) : (Slot.free p).ord = 0 := rfl
@[simp] theorem free_wc (p : Params) : (Slot.free p).wc = .w8 := rfl
@[simp] theorem free_sh (p : Params) : (Slot.free p).sh = List.replicate (p.maxOrder + 1) 0 := rfl

@[simp] theorem zeroSlot_valid (p : Params) (d : Domain) (o : BitVec 4) (wc : Width) :
    (zeroSlot p d o wc).valid = true := rfl
@[simp] theorem zeroSlot_dom (p : Params) (d : Domain) (o : BitVec 4) (wc : Width) :
    (zeroSlot p d o wc).dom = d := rfl
@[simp] theorem zeroSlot_ord (p : Params) (d : Domain) (o : BitVec 4) (wc : Width) :
    (zeroSlot p d o wc).ord = o := rfl
@[simp] theorem zeroSlot_wc (p : Params) (d : Domain) (o : BitVec 4) (wc : Width) :
    (zeroSlot p d o wc).wc = wc := rfl
@[simp] theorem zeroSlot_sh (p : Params) (d : Domain) (o : BitVec 4) (wc : Width) :
    (zeroSlot p d o wc).sh = List.replicate (p.maxOrder + 1) 0 := rfl

@[simp] theorem newSlot_valid (p : Params) (d : Domain) (o : BitVec 4) (wc : Width) {w : Nat} (l : List (BitVec w)) :
    (newSlot p d o wc l).valid = true := rfl
@[simp] theorem newSlot_dom (p : Params) (d : Domain) (o : BitVec 4) (wc : Width) {w : Nat} (l : List (BitVec w)) :
    (newSlot p d o wc l).dom = d := rfl
@[simp] theorem newSlot_ord (p : Params) (d : Domain) (o : BitVec 4) (wc : Width) {w : Nat} (l : List (BitVec w)) :
    (newSlot p d o wc l).ord = o := rfl
@[simp] theorem newSlot_wc (p : Params) (d : Domain) (o : BitVec 4) (wc : Width) {w : Nat} (l : List (BitVec w)) :
    (newSlot p d o wc l).wc = wc := rfl
@[simp] theorem newSlot_sh (p : Params) (d : Domain) (o : BitVec 4) (wc : Width) {w : Nat} (l : List (BitVec w)) :
    (newSlot p d o wc l).sh = l.map (BitVec.setWidth 64) ++ List.replicate (p.maxOrder + 1 - l.length) 0 := rfl

@[simp] theorem writeShares_valid (r : Slot) {w : Nat} (l : List (BitVec w)) :
    (writeShares r l).valid = r.valid := rfl
@[simp] theorem writeShares_dom (r : Slot) {w : Nat} (l : List (BitVec w)) :
    (writeShares r l).dom = r.dom := rfl
@[simp] theorem writeShares_ord (r : Slot) {w : Nat} (l : List (BitVec w)) :
    (writeShares r l).ord = r.ord := rfl
@[simp] theorem writeShares_wc (r : Slot) {w : Nat} (l : List (BitVec w)) :
    (writeShares r l).wc = r.wc := rfl
@[simp] theorem writeShares_sh (r : Slot) {w : Nat} (l : List (BitVec w)) :
    (writeShares r l).sh = l.map (BitVec.setWidth 64) ++ r.sh.drop l.length := rfl

/-! ## The slot file -/

theorem slot_eq (s : State) (i : Nat) : s.slot i = slotAt s.cfg s.slots i := rfl

theorem slot_congr {s t : State} (hc : t.cfg = s.cfg) (hs : t.slots = s.slots) (i : Nat) :
    t.slot i = s.slot i := by
  rw [slot_eq, slot_eq, hc, hs]

@[simp] theorem setSlot_length (x : List Slot) (i : Nat) (r : Slot) :
    (setSlot x i r).length = x.length := by
  simp [setSlot]

theorem slotAt_setSlot_same (p : Params) {x : List Slot} {i : Nat} (r : Slot) (h : i < x.length) :
    slotAt p (setSlot x i r) i = r := by
  simp [slotAt, setSlot, List.getD_eq_getElem?_getD, h]

@[simp] theorem slotAt_setSlot_other (p : Params) (x : List Slot) {i j : Nat} (r : Slot)
    (h : i ≠ j) : slotAt p (setSlot x i r) j = slotAt p x j := by
  simp [slotAt, setSlot, List.getD_eq_getElem?_getD, h]

/-- A live slot lies in the slot file. -/
theorem lt_length_of_live {p : Params} {x : List Slot} {i : Nat} (h : (slotAt p x i).valid = true) :
    i < x.length := by
  by_contra hn
  simp [slotAt, List.getD_eq_getElem?_getD, List.getElem?_eq_none (Nat.le_of_not_lt hn)] at h

/-- Equal signatures are equal orders and widths (10_state R33). -/
theorem sig_eq_iff (a b : Slot) : sig a = sig b ↔ a.ord = b.ord ∧ a.wc = b.wc := by
  obtain ⟨_, _, oa, wa, _⟩ := a
  obtain ⟨_, _, ob, wb, _⟩ := b
  cases wa <;> cases wb <;> simp only [sig, widthCode] <;> revert oa ob <;> decide

/-! ## The shares of one slot -/

@[simp] theorem readShares_length (r : Slot) (w : Nat) :
    (readShares r w).length = shareCount r := by
  simp [readShares]

@[simp] theorem shareCount_writeShares (r : Slot) {w : Nat} (l : List (BitVec w)) :
    shareCount (writeShares r l) = shareCount r := rfl

/-- Shares written at width `w <= 64` read back, whatever the slot held (10_state R32). -/
theorem readShares_of_sh {r : Slot} {w : Nat} (hw : w ≤ 64) {l : List (BitVec w)} {rest : List Word}
    (hl : l.length = shareCount r) (h : r.sh = l.map (BitVec.setWidth 64) ++ rest) :
    readShares r w = l := by
  apply List.ext_getElem (by simp [hl])
  intro k h1 h2
  simp only [readShares, List.getElem_map, List.getElem_range, h, List.getD_eq_getElem?_getD]
  rw [List.getElem?_append_left (by simpa using h2)]
  simp [h2, BitVec.setWidth_setWidth_of_le, hw]

theorem widthBits_le (wc : Width) : widthBits wc ≤ 64 := by cases wc <;> decide

end Sys2Proof.Machine
end

