-- ==== Sys2Proof/Laws/Shares.lean ====
section
/-! SUPPORT. For every drawing function on share vectors: how many words it draws and how many shares it
gives back, in the form `DrawsExactly`. -/

namespace Sys2Proof.Machine

@[simp] theorem updateShare_length {w : Nat} (o : List (BitVec w)) (i : Nat)
    (f : BitVec w → BitVec w) : (updateShare o i f).length = o.length := by
  simp [updateShare]

@[simp] theorem vecXor_length {w : Nat} (a b : List (BitVec w)) :
    (vecXor a b).length = min a.length b.length := by simp [vecXor]

@[simp] theorem vecAnd_length {w : Nat} (a b : List (BitVec w)) :
    (vecAnd a b).length = min a.length b.length := by simp [vecAnd]

@[simp] theorem vecAdd_length {w : Nat} (a b : List (BitVec w)) :
    (vecAdd a b).length = min a.length b.length := by simp [vecAdd]

@[simp] theorem vecSub_length {w : Nat} (a b : List (BitVec w)) :
    (vecSub a b).length = min a.length b.length := by simp [vecSub]

@[simp] theorem vecMul_length {w : Nat} (a b : List (BitVec w)) :
    (vecMul a b).length = min a.length b.length := by simp [vecMul]

@[simp] theorem vecShl_length {w : Nat} (a : List (BitVec w)) (d : Nat) :
    (vecShl a d).length = a.length := by simp [vecShl]

/-- One draw, then a result that satisfies `P` for every word. -/
theorem drawsExactly_draw_then {w : Nat} {β : Type} {g : BitVec w → Draw β} {P : β → Prop}
    (h : ∀ r, DrawsExactly (g r) 0 P) : DrawsExactly (draw w >>= g) 1 P :=
  (drawsExactly_bind (drawsExactly_draw w) fun r _ => h r).of_eq rfl

/-- There are n(n-1)/2 pairs (00_scope R18). -/
theorem pairs_length (n : Nat) : (pairs n).length = pairDraws n := by
  have h : (pairs n).length = ∑ i ∈ Finset.range n, (n - 1 - i) := by
    simp only [pairs, List.length_flatMap, List.length_map, List.length_range']
    rfl
  rw [h, Finset.sum_range_reflect (fun i => i), Finset.sum_range_id, pairDraws]

theorem drawsExactly_maskShares {w : Nat} (v : BitVec w) (d : Domain) (n : Nat) :
    DrawsExactly (maskShares v d n) (n - 1) (fun s => s.length = n - 1 + 1) := by
  refine (drawsExactly_bind (k := 0) (drawsExactly_drawMany w (n - 1)) fun rs hrs => ?_).of_eq rfl
  cases d <;> exact drawsExactly_pure (by simp [hrs])

theorem drawsExactly_refreshShares {w : Nat} (s : List (BitVec w)) (d : Domain) :
    DrawsExactly (refreshShares s d) (s.length - 1) (fun o => o.length = s.length) := by
  refine (drawsExactly_foldlM (k := 1) (P := fun o : List (BitVec w) => o.length = s.length) _ rfl
    fun o i ho => drawsExactly_draw_then fun r => ?_).of_eq (by simp)
  cases d <;> exact drawsExactly_pure (by simp [ho])

theorem drawsExactly_domAnd {w : Nat} (a b : List (BitVec w)) :
    DrawsExactly (domAnd a b) (pairDraws a.length)
      (fun o => o.length = min a.length b.length) :=
  (drawsExactly_foldlM (k := 1) _ (by simp) fun o ij ho =>
    drawsExactly_draw_then fun r => drawsExactly_pure (by simpa using ho)).of_eq (by
      simp [pairs_length])

theorem drawsExactly_domMult {w : Nat} (a b : List (BitVec w)) (h : a.length = b.length) :
    DrawsExactly (domMult a b) (pairDraws a.length + (a.length - 1))
      (fun o => o.length = a.length) := by
  have h1 : DrawsExactly ((pairs a.length).foldlM (domMultRound a b) (vecMul a b))
      ((pairs a.length).length * 1) (fun o => o.length = a.length) :=
    drawsExactly_foldlM _ (by simp [h]) fun o ij ho =>
      drawsExactly_draw_then fun r => drawsExactly_pure (by simpa using ho)
  refine (drawsExactly_bind h1 fun o ho => ?_).of_eq (by rw [pairs_length, Nat.mul_one])
  exact ho ▸ drawsExactly_refreshShares o .arith

/-! ## Boolean to arithmetic -/

theorem psiVector_length {w : Nat} (m : Nat) (x : List (BitVec w)) :
    (psiVector m x).length = x.length - 1 := by
  unfold psiVector
  split <;> simp

/-- Convert draws Rc(m) words and gives m shares (43_domain R251, R254). -/
theorem drawsExactly_convert {w : Nat} (m : Nat) (x : List (BitVec w)) (hx : x.length = m + 1) :
    DrawsExactly (convert m x) (b2aDraws m) (fun o => o.length = m) := by
  induction m generalizing x with
  | zero => exact drawsExactly_pure rfl
  | succ m ih =>
    cases m with
    | zero => exact drawsExactly_pure rfl
    | succ k =>
      have hblind : DrawsExactly ((List.range' 1 (k + 2)).foldlM blindRound x)
          ((List.range' 1 (k + 2)).length * 1) (fun y => y.length = k + 3) :=
        drawsExactly_foldlM _ hx fun y i hy =>
          drawsExactly_draw_then fun r => drawsExactly_pure (by simpa using hy)
      refine (drawsExactly_bind hblind fun y hy => drawsExactly_bind (ih y.tail (by simp [hy]))
        fun z hz => drawsExactly_bind (ih _ (by rw [psiVector_length, hy]; omega))
        fun t ht => drawsExactly_pure ?_).of_eq ?_
      · simp [combine, hz, ht]
      · simp [b2aDraws]; omega

theorem drawsExactly_b2a {w : Nat} (s : List (BitVec w)) :
    DrawsExactly (b2a s) (b2aDraws s.length) (fun o => o.length = s.length) :=
  drawsExactly_convert _ _ (by simp)

/-! ## Arithmetic to Boolean -/

theorem drawsExactly_maskEach {w : Nat} (n : Nat) (hn : 1 ≤ n) (vs : List (BitVec w)) :
    DrawsExactly (maskEach n vs) (vs.length * (n - 1))
      (fun bs => bs.length = vs.length ∧ ∀ b ∈ bs, b.length = n) := by
  induction vs with
  | nil => exact (drawsExactly_pure (by simp)).of_eq (by simp)
  | cons v vs ih =>
    refine (drawsExactly_bind (drawsExactly_maskShares v .boolean n) fun b hb =>
      drawsExactly_bind ih fun bs hbs => drawsExactly_pure ?_).of_eq ?_
    · refine ⟨by simp [hbs.1], fun c hc => ?_⟩
      rcases List.mem_cons.1 hc with rfl | hc
      · omega
      · exact hbs.2 c hc
    · rw [List.length_cons, Nat.succ_mul]; omega

theorem drawsExactly_csa {w n : Nat} (x y z : List (BitVec w)) (hx : x.length = n)
    (hy : y.length = n) (hz : z.length = n) :
    DrawsExactly (csa x y z) (pairDraws n) (fun r => r.1.length = n ∧ r.2.length = n) := by
  refine (drawsExactly_bind (drawsExactly_domAnd (vecXor x y) (vecXor x z)) fun v hv =>
    drawsExactly_pure ?_).of_eq (by simp [hx, hy])
  simp only [vecXor_length, hx, hy, hz, Nat.min_self] at hv
  simp [hx, hy, hz, hv]

/-- The tree over m vectors of n shares draws (m - 2) n(n-1)/2 words (43_domain R264). -/
theorem drawsExactly_csaTree {w n : Nat} (f : Nat) (bs : List (List (BitVec w)))
    (h1 : 1 ≤ bs.length) (hf : bs.length ≤ f) (hn : ∀ b ∈ bs, b.length = n) :
    DrawsExactly (csaTree f bs) ((bs.length - 2) * pairDraws n)
      (fun r => r.1.length = n ∧ r.2.length = n) := by
  induction f generalizing bs with
  | zero => omega
  | succ f ih =>
    match bs, h1, hf, hn with
    | [s], _, _, hn => exact (drawsExactly_pure (by simp_all)).of_eq (by simp)
    | [s, c], _, _, hn => exact (drawsExactly_pure (by simp_all)).of_eq (by simp)
    | [x, y, z], _, _, hn =>
      exact (drawsExactly_csa x y z (hn x (by simp)) (hn y (by simp)) (hn z (by simp))).of_eq
        (by simp)
    | a :: b :: c :: d :: l, _, hf, hn =>
      set bs := a :: b :: c :: d :: l with hbs
      have hl : 4 ≤ bs.length := by simp [hbs]
      have ht : ∀ e ∈ bs.take (bs.length / 2), e.length = n := fun e he =>
        hn e (List.mem_of_mem_take he)
      have hd : ∀ e ∈ bs.drop (bs.length / 2), e.length = n := fun e he =>
        hn e (List.mem_of_mem_drop he)
      refine (drawsExactly_bind (ih (bs.take (bs.length / 2)) (by simp; omega) (by simp; omega) ht)
        fun p hp => drawsExactly_bind
          (ih (bs.drop (bs.length / 2)) (by simp; omega) (by simp; omega) hd)
        fun q hq => drawsExactly_bind (drawsExactly_csa p.1 p.2 q.1 hp.1 hp.2 hq.1)
        fun t ht => (drawsExactly_csa t.1 t.2 q.2 ht.1 ht.2 hq.2).of_eq rfl).of_eq ?_
      simp only [List.length_take, List.length_drop]
      rw [Nat.min_eq_left (Nat.div_le_self _ _), ← Nat.add_assoc, ← Nat.add_mul]
      have h2 : (bs.length / 2 - 2 + (bs.length - bs.length / 2 - 2)) * pairDraws n +
          (pairDraws n + pairDraws n) =
          (bs.length / 2 - 2 + (bs.length - bs.length / 2 - 2) + 2) * pairDraws n := by ring
      rw [h2]
      congr 1
      omega

theorem drawsExactly_ksRounds {w n : Nat} (ds : List Nat) (g p : List (BitVec w))
    (hg : g.length = n) (hp : p.length = n) :
    DrawsExactly (ksRounds ds g p) (ds.length * (2 * pairDraws n)) (fun o => o.length = n) := by
  induction ds generalizing g p with
  | nil =>
    refine DrawsExactly.of_eq (j := 0) ?_ (Nat.zero_mul _).symm
    exact drawsExactly_pure (P := fun o : List (BitVec w) => o.length = n) hg
  | cons d ds ih =>
    refine (drawsExactly_bind (drawsExactly_domAnd p (vecShl g d)) fun u hu =>
      drawsExactly_bind (drawsExactly_domAnd p (vecShl p d)) fun p' hp' =>
        ih (vecXor g u) p' ?_ ?_).of_eq ?_
    · simp only [vecShl_length, hp, hg, Nat.min_self] at hu
      simp [hg, hu]
    · simpa [hp] using hp'
    · simp [hp, Nat.succ_mul]; ring

/-- KSAdd draws (2 log2(w) + 1) n(n-1)/2 words (43_domain R270). -/
theorem drawsExactly_ksAdd {w n : Nat} (s c : List (BitVec w)) (hs : s.length = n)
    (hc : c.length = n) :
    DrawsExactly (ksAdd s c) ((2 * Nat.log2 w + 1) * pairDraws n) (fun o => o.length = n) := by
  refine (drawsExactly_bind (drawsExactly_domAnd s c) fun g hg =>
    drawsExactly_bind (drawsExactly_ksRounds (n := n) (ksDistances w) g (vecXor s c) ?_ ?_)
      fun g' hg' => drawsExactly_pure ?_).of_eq ?_
  · simpa [hs, hc] using hg
  · simp [hs, hc]
  · simp [hs, hc, hg']
  · simp [hs, ksDistances]; ring

/-- A2B draws D_A2B(n, w) words (43_domain R272, R275). -/
theorem drawsExactly_a2b {w : Nat} (a : List (BitVec w)) (h : 1 ≤ a.length) :
    DrawsExactly (a2b a) (a2bDraws a.length w) (fun o => o.length = a.length) := by
  refine (drawsExactly_bind (drawsExactly_maskEach a.length h a) fun bs hbs =>
    drawsExactly_bind (j := (a.length - 2) * pairDraws a.length)
      ((drawsExactly_csaTree (n := a.length) a.length bs (by omega) (by omega) hbs.2).of_eq
        (by rw [hbs.1]))
      fun sc hsc => drawsExactly_ksAdd sc.1 sc.2 hsc.1 hsc.2).of_eq ?_
  obtain ⟨n, hn⟩ : ∃ n, a.length = n + 1 := ⟨a.length - 1, by omega⟩
  rw [hn, a2bDraws, pairDraws, Nat.add_sub_cancel]
  obtain ⟨q, hq⟩ : ∃ q, (n + 1) * n = 2 * q := by
    obtain ⟨q, hq⟩ := Nat.even_mul_succ_self n
    exact ⟨q, by rw [Nat.mul_comm, hq]; omega⟩
  rw [hq, Nat.mul_assoc, Nat.mul_div_cancel_left _ (by decide), Nat.mul_div_cancel_left _ (by decide)]
  cases n with
  | zero => have : q = 0 := by omega
            subst this; simp
  | succ n => rw [show n + 1 + 1 - 2 = n by omega]; ring

/-! ## Coercion -/

theorem shareCount_pos (r : Slot) : 1 ≤ shareCount r := by simp [shareCount]

/-- What ToArith can do: the draws of 43_domain R254, and slot `i` rewritten only if it was Boolean. -/
theorem drawsExactly_toArith (p : Params) (x : List Slot) (i : Nat) :
    DrawsExactly (toArith p x i) (toArithDraws (slotAt p x i)) (fun y =>
      (slotAt p x i).dom = .arith ∧ y = x ∨
      (slotAt p x i).dom = .boolean ∧
        ∃ o : List (BitVec (widthBits (slotAt p x i).wc)), o.length = shareCount (slotAt p x i) ∧
          y = setSlot x i { writeShares (slotAt p x i) o with dom := .arith }) := by
  cases h : (slotAt p x i).dom <;> simp only [toArith, toArithDraws, h]
  · refine (drawsExactly_bind (k := 0) (drawsExactly_b2a _) fun o ho => drawsExactly_pure ?_).of_eq
      (by simp)
    exact Or.inr ⟨trivial, o, by simpa using ho, rfl⟩
  · exact drawsExactly_pure (Or.inl ⟨trivial, rfl⟩)

/-- What ToBool can do: the draws of 43_domain R275, and slot `i` rewritten only if it was arithmetic. -/
theorem drawsExactly_toBool (p : Params) (x : List Slot) (i : Nat) :
    DrawsExactly (toBool p x i) (toBoolDraws (slotAt p x i)) (fun y =>
      (slotAt p x i).dom = .boolean ∧ y = x ∨
      (slotAt p x i).dom = .arith ∧
        ∃ o : List (BitVec (widthBits (slotAt p x i).wc)), o.length = shareCount (slotAt p x i) ∧
          y = setSlot x i { writeShares (slotAt p x i) o with dom := .boolean }) := by
  cases h : (slotAt p x i).dom <;> simp only [toBool, toBoolDraws, h]
  · exact drawsExactly_pure (Or.inl ⟨trivial, rfl⟩)
  · refine (drawsExactly_bind (k := 0) (drawsExactly_a2b _ (by simp [shareCount_pos])) fun o ho =>
      drawsExactly_pure ?_).of_eq (by simp)
    exact Or.inr ⟨trivial, o, by simpa using ho, rfl⟩

end Sys2Proof.Machine
end

