-- ==== Sys2Proof/Laws/Step.lean ====
section
/-! SUPPORT. What a step can do, said once: one inversion lemma for the step, one for each agent's turn,
and the form every command's meaning has. -/

namespace Sys2Proof.Machine

/-- A step that goes on is one agent's turn, in the state with its schedule advanced (00_scope R7). -/
theorem step_next_cases {s t : State} (h : step s = .next t) :
    (nextTurn s = .host ∧ hostTurn (dropTurn s) = .next t) ∨
    (nextTurn s = .datapath ∧ datapathTurn (dropTurn s) = .next t) ∨
    (∃ a, nextTurn s = .entropy a ∧ t = answerArrives (dropTurn s) a) ∨
    (nextTurn s = .reset ∧ t = resetInput (dropTurn s)) := by
  unfold step at h
  cases hn : nextTurn s with
  | host => exact .inl ⟨rfl, by simpa [hn, takeTurn] using h⟩
  | datapath => exact .inr (.inl ⟨rfl, by simpa [hn, takeTurn] using h⟩)
  | entropy a =>
    rw [hn] at h
    cases h
    exact .inr (.inr (.inl ⟨a, rfl, rfl⟩))
  | reset =>
    rw [hn] at h
    cases h
    exact .inr (.inr (.inr ⟨rfl, rfl⟩))

/-- The datapath's turn: idle, ILLEGAL for a word that spells no command, or the command's meaning
(70_reset R371). -/
theorem datapathTurn_cases (s : State) :
    (s.pending = none ∧ datapathTurn s = .next s) ∨
    (∃ q e, s.pending = some q ∧ decode q.word = .error e ∧
      datapathTurn s = .next (failWith s .illegal)) ∨
    ∃ q i, s.pending = some q ∧ decode q.word = .ok i ∧ datapathTurn s = exec i s := by
  cases hp : s.pending with
  | none => exact .inl ⟨rfl, by simp [datapathTurn, hp]⟩
  | some q =>
    cases hd : decode q.word with
    | error e => exact .inr (.inl ⟨q, e, rfl, hd, by simp [datapathTurn, hp, hd]⟩)
    | ok i => exact .inr (.inr ⟨q, i, rfl, hd, by simp [datapathTurn, hp, hd]⟩)

/-- The host's turn when it goes on: idle or polling, a `wait` taken, a read recorded, or a write to a
register of the window (20_memory R81 to R87). -/
theorem hostTurn_next_cases {s t : State} (h : hostTurn s = .next t) :
    t = s ∨
    (∃ ops, s.env.host = .wait :: ops ∧ s.busy = false ∧
      t = { s with env := { s.env with host := ops } }) ∨
    (∃ off r ops, s.env.host = .read off 8 :: ops ∧ regAt off = some r ∧
      t = { s with env := { s.env with
              host := ops, reads := (off, bytesOf (readReg s r)) :: s.env.reads } }) ∨
    (∃ off bytes r ops, s.env.host = .write off bytes :: ops ∧ bytes.length = 8 ∧
      regAt off = some r ∧
      t = writeReg { s with env := { s.env with host := ops } } r (wordOf bytes)) := by
  unfold hostTurn at h
  split at h
  · cases h
    exact .inl rfl
  · rename_i off width ops hh
    unfold hostRead accessed at h
    by_cases hw : width = 8
    · subst hw
      cases hr : regAt off with
      | none => simp [hr] at h
      | some r =>
        simp only [hr, if_true] at h
        cases h
        exact .inr (.inr (.inl ⟨off, r, ops, hh, hr, by cases r <;> rfl⟩))
    · simp [hw] at h
  · rename_i off bytes ops hh
    unfold hostWrite accessed at h
    by_cases hw : bytes.length = 8
    · cases hr : regAt off with
      | none => simp [hr, hw] at h
      | some r =>
        simp only [hw, hr, if_true] at h
        cases h
        exact .inr (.inr (.inr ⟨off, bytes, r, ops, hh, hw, hr, rfl⟩))
    · simp [hw] at h
  · rename_i ops hh
    split at h
    · cases h
      exact .inl rfl
    · rename_i hb
      cases h
      exact .inr (.inl ⟨ops, hh, by simpa using hb, rfl⟩)

/-- What a write to a register of the window can do: nothing, set or clear OVR, store DIN, or accept a
command (20_memory R81, 70_reset R375). -/
theorem writeReg_cases (s : State) (r : WindowReg) (v : Word) :
    writeReg s r v = s ∨ (∃ b, writeReg s r v = { s with ovr := b }) ∨
    writeReg s r v = { s with din := v } ∨
    (s.fatal = false ∧ s.pending = none ∧ writeReg s r v =
      { s with lastCmd := v.setWidth 32,
               pending := some { word := v.setWidth 32, dinL := s.din } }) := by
  cases r with
  | cmd =>
    simp only [writeReg, writeCmd]
    split
    · exact .inl rfl
    · split
      · exact .inr (.inl ⟨true, rfl⟩)
      · rename_i hf hb
        refine .inr (.inr (.inr ⟨by simpa using hf, ?_, rfl⟩))
        simpa [State.busy] using hb
  | status =>
    simp only [writeReg]
    split
    · exact .inr (.inl ⟨false, rfl⟩)
    · exact .inl rfl
  | din => exact .inr (.inr (.inl rfl))
  | dout | rcnt | ccnt | config => exact .inl rfl

/-- Every command's meaning is its checks followed by its pseudocode (70_reset R371). -/
theorem exec_eq_runCommand (i : Instr) (s : State) : ∃ cs b, exec i s = runCommand s cs b := by
  cases i with
  | nop => unfold exec execNop; exact ⟨_, _, rfl⟩
  | alloc => unfold exec execAlloc; exact ⟨_, _, rfl⟩
  | unmask => unfold exec execUnmask; exact ⟨_, _, rfl⟩
  | clone => unfold exec execClone; exact ⟨_, _, rfl⟩
  | free => unfold exec execFree; exact ⟨_, _, rfl⟩
  | allocm => unfold exec execAllocm; exact ⟨_, _, rfl⟩
  | freem => unfold exec execFreem; exact ⟨_, _, rfl⟩
  | info => unfold exec execInfo; exact ⟨_, _, rfl⟩
  | _ => exact ⟨_, _, rfl⟩

end Sys2Proof.Machine
end

