-- ==== Sys2Proof/Machine/HostProgram.lean ====
section
/-! DEFINITION. The host's notation (30_encoding R113 to R115): host actions, the pseudo-instructions
as the host sequences they stand for, and the assembler syntax of a command. A host's program is such
a list (DESIGN CHOICE, notes/assumptions/16.md). -/

namespace Sys2Proof.Machine

/-- `MemWrite(off, 8, v)` (00_scope R16, 20_memory R83). -/
def memWrite (off : Nat) (v : Word) : HostOp := .write off (bytesOf v)

/-- `write DIN, v` (30_encoding R114). -/
def writeDin (v : Word) : HostOp := memWrite 0x10 v

/-- A command line: its word is written to CMD (30_encoding R114). -/
def issue (i : Instr) : HostOp := memWrite 0x00 ((encode i).setWidth 64)

/-- `read DOUT` (30_encoding R114). -/
def readDout : HostOp := .read 0x18 8

/-- `MASKI Md, dom, ord, wN, v` (30_encoding R115). -/
def maskImmediate (rd : SlotNo) (dom : Domain) (ord : BitVec 4) (wc : Width) (v : Word) :
    List HostOp :=
  [writeDin v, issue (.mask rd dom ord wc), .wait]

/-- `MOVE Md, Ms` (30_encoding R115). DESIGN CHOICE: the rule gives it for Md != Ms only; here `MOVE Md, Md`
has the same expansion, which frees the slot and then fails to clone it (notes/assumptions/18.md). -/
def moveSlot (rd rs1 : SlotNo) : List HostOp :=
  [issue (.free rd), .wait, issue (.clone rd rs1 false), .wait]

/-- `FREEALL` (30_encoding R115; 90 C7). -/
def freeAll (p : Params) : List HostOp :=
  if p.nmv ≤ 31 then [writeDin 0, issue (.freem 0 (BitVec.ofNat 5 p.nmv)), .wait]
  else [writeDin 0, issue (.freem 0 31), .wait, issue (.free 31), .wait]

/-- `GETV Md` (30_encoding R115). -/
def getValue (rd : SlotNo) : List HostOp := [issue (.unmask rd), .wait, readDout]

/-- A slot in assembler syntax (30_encoding R113). -/
def slotText (r : SlotNo) : String := "M" ++ toString r.toNat

/-- A domain in assembler syntax (30_encoding R113). -/
def domainText : Domain → String
  | .boolean => "bool"
  | .arith => "arith"

/-- A width in assembler syntax (30_encoding R113). -/
def widthText : Width → String
  | .w8 => "w8"
  | .w16 => "w16"
  | .w32 => "w32"
  | .w64 => "w64"

/-- The mnemonic of an opcode (30_encoding R109, R113). -/
def mnemonic : Op → String
  | .nop => "NOP" | .alloc => "ALLOC" | .mask => "MASK" | .unmask => "UNMASK"
  | .refresh => "REFRESH" | .clone => "CLONE" | .free => "FREE" | .allocm => "ALLOCM"
  | .freem => "FREEM" | .info => "INFO" | .xor => "XOR" | .and => "AND" | .or => "OR"
  | .not => "NOT" | .shr => "SHR" | .shl => "SHL" | .rotr => "ROTR" | .rotl => "ROTL"
  | .add => "ADD" | .sub => "SUB" | .mult => "MULT" | .btoa => "BTOA" | .atob => "ATOB"
  | .towide => "TOWIDE" | .tonarrow => "TONARROW"

/-- The operands of a command in assembler syntax, in their order (30_encoding R113). -/
def operandTexts : Instr → List String
  | .nop => []
  | .alloc rd dom ord wc => [slotText rd, domainText dom, toString ord.toNat, widthText wc]
  | .mask rd dom ord wc => [slotText rd, domainText dom, toString ord.toNat, widthText wc]
  | .unmask rd => [slotText rd]
  | .refresh rd => [slotText rd]
  | .clone rd rs1 zero => [slotText rd, slotText rs1] ++ (if zero then ["zero"] else [])
  | .free rd => [slotText rd]
  | .allocm rd cnt dom ord wc =>
    [slotText rd, toString cnt.toNat, domainText dom, toString ord.toNat, widthText wc]
  | .freem rd cnt => [slotText rd, toString cnt.toNat]
  | .info rd => [slotText rd]
  | .xor rd rs1 rs2 => [slotText rd, slotText rs1, slotText rs2]
  | .and rd rs1 rs2 => [slotText rd, slotText rs1, slotText rs2]
  | .or rd rs1 rs2 => [slotText rd, slotText rs1, slotText rs2]
  | .not rd => [slotText rd]
  | .shr rd shamt => [slotText rd, toString shamt.toNat]
  | .shl rd shamt => [slotText rd, toString shamt.toNat]
  | .rotr rd shamt => [slotText rd, toString shamt.toNat]
  | .rotl rd shamt => [slotText rd, toString shamt.toNat]
  | .add rd rs1 rs2 => [slotText rd, slotText rs1, slotText rs2]
  | .sub rd rs1 rs2 => [slotText rd, slotText rs1, slotText rs2]
  | .mult rd rs1 rs2 => [slotText rd, slotText rs1, slotText rs2]
  | .btoa rd => [slotText rd]
  | .atob rd => [slotText rd]
  | .towide rd rs1 wc => [slotText rd, slotText rs1, widthText wc]
  | .tonarrow rd rs1 wc => [slotText rd, slotText rs1, widthText wc]

/-- A command in assembler syntax (30_encoding R113). -/
def asm (i : Instr) : String :=
  match operandTexts i with
  | [] => mnemonic (instrOp i)
  | ops => mnemonic (instrOp i) ++ " " ++ String.intercalate ", " ops

end Sys2Proof.Machine
end

