-- ==== Sys2Proof/Tests/Slice0.lean ====
section
/-! SUPPORT. Tests of the model. Expected results are taken from the spec: the vectors of
95_test_vectors.md (V and P numbers), the examples of the commands' rules, and words written out from
the formats of 30_encoding R102. Behind them, for every statement with hypotheses, a witness that a
concrete state meets them. -/

namespace Sys2Proof.Tests

open Sys2Proof Sys2Proof.Machine

/-! ## Small states -/

/-- A live slot of the reference configuration. -/
def live (dom : Domain) (ord : Nat) (wc : Width) (l : List Nat) : Slot :=
  { valid := true, dom := dom, ord := BitVec.ofNat 4 ord, wc := wc,
    sh := l.map (BitVec.ofNat 64) ++ List.replicate (4 - l.length) 0 }

/-- Answers that are all words. -/
def words (l : List Nat) : List Answer := l.map fun d => .word (BitVec.ofNat 64 d)

/-- The reset state with these slots, a NOP pending with DIN_L = `din`, and these words to draw. -/
def start (l : List (Nat × Slot)) (draws : List Nat := []) (din : Nat := 0) : State :=
  { State.reset with
    slots := l.foldl (fun x e => x.set e.1 e.2) State.reset.slots,
    pending := some { word := 0, dinL := BitVec.ofNat 64 din },
    env := { Env.empty with answers := words draws } }

/-- The same with a command word pending that the next step runs. -/
def startWord (c : CmdWord) (l : List (Nat × Slot)) (draws : List Nat := []) (din : Nat := 0) :
    State :=
  { start l draws din with
    lastCmd := c, pending := some { word := c, dinL := BitVec.ofNat 64 din } }

/-- A view of a next state. -/
def got {α : Type} (f : State → α) : Host.Outcome State Fault Refusal → Option α
  | .next s => some (f s)
  | _ => none

/-- The first `n` shares of slot `i`. -/
def shares (i n : Nat) (s : State) : List Nat := ((s.slot i).sh.take n).map BitVec.toNat

/-- ERR and RCNT. -/
def codeAndDraws (s : State) : ErrCode × Nat := (s.err, s.rcnt.toNat)

def s69 : Slot := live .boolean 2 .w8 [0x69, 0x11, 0x22]
def s27 : Slot := live .arith 2 .w8 [0x27, 0x11, 0x22]

/-! ## Decoding: words written out field by field from 30_encoding R102 -/

theorem test_decode_nop : decode 0b00000000000000000000000000000000 = .ok .nop := by decide
-- ALLOC M3, bool, 2, w32
theorem test_decode_alloc :
    decode 0b000001_00011_0000000000_0010_10_0_0000 = .ok (.alloc 3 .boolean 2 .w32) := by decide
-- MASK M0, arith, 1, w64
theorem test_decode_mask :
    decode 0b000010_00000_0000000000_0001_11_1_0000 = .ok (.mask 0 .arith 1 .w64) := by decide
theorem test_decode_unmask :
    decode 0b000011_01011_000000000000000000000 = .ok (.unmask 11) := by decide
theorem test_decode_refresh :
    decode 0b000100_00101_000000000000000000000 = .ok (.refresh 5) := by decide
-- CLONE M1, M6, zero
theorem test_decode_clone :
    decode 0b000101_00001_00110_00000000000_1_0000 = .ok (.clone 1 6 true) := by decide
theorem test_decode_free :
    decode 0b000110_01001_000000000000000000000 = .ok (.free 9) := by decide
-- ALLOCM M4, 5, arith, 1, w16
theorem test_decode_allocm :
    decode 0b000111_00100_00101_00000_0001_01_1_0000 = .ok (.allocm 4 5 .arith 1 .w16) := by decide
-- FREEM M2, 12
theorem test_decode_freem :
    decode 0b001000_00010_01100_0000000000000000 = .ok (.freem 2 12) := by decide
theorem test_decode_info :
    decode 0b001001_00011_000000000000000000000 = .ok (.info 3) := by decide
theorem test_decode_xor :
    decode 0b010000_00101_00011_00100_00000000000 = .ok (.xor 5 3 4) := by decide
theorem test_decode_and :
    decode 0b010001_00010_00000_00001_00000000000 = .ok (.and 2 0 1) := by decide
theorem test_decode_or :
    decode 0b010010_00010_00000_00001_00000000000 = .ok (.or 2 0 1) := by decide
theorem test_decode_not :
    decode 0b010011_11111_000000000000000000000 = .ok (.not 31) := by decide
theorem test_decode_shr :
    decode 0b010100_00001_000000000000000_001000 = .ok (.shr 1 8) := by decide
theorem test_decode_shl :
    decode 0b010101_00000_000000000000000_111111 = .ok (.shl 0 63) := by decide
theorem test_decode_rotr :
    decode 0b010110_00000_000000000000000_100100 = .ok (.rotr 0 36) := by decide
theorem test_decode_rotl :
    decode 0b010111_00100_000000000000000_001001 = .ok (.rotl 4 9) := by decide
theorem test_decode_add :
    decode 0b011000_00010_00000_00001_00000000000 = .ok (.add 2 0 1) := by decide
theorem test_decode_sub :
    decode 0b011001_00001_00010_00011_00000000000 = .ok (.sub 1 2 3) := by decide
theorem test_decode_mult :
    decode 0b011010_00010_00000_00001_00000000000 = .ok (.mult 2 0 1) := by decide
theorem test_decode_btoa :
    decode 0b100000_00010_000000000000000000000 = .ok (.btoa 2) := by decide
theorem test_decode_atob :
    decode 0b100001_00010_000000000000000000000 = .ok (.atob 2) := by decide
-- TOWIDE M8, M1, w32
theorem test_decode_towide :
    decode 0b101000_01000_00001_000000000_10_00000 = .ok (.towide 8 1 .w32) := by decide
-- TONARROW M9, M8, w32 is V108's word 0xA5280040
theorem test_decode_tonarrow :
    decode 0b101001_01001_01000_000000000_10_00000 = .ok (.tonarrow 9 8 .w32) ∧
    (0b101001_01001_01000_000000000_10_00000 : CmdWord) = 0xA5280040 := by decide

-- V109, V113: reserved opcodes; V110, V112, V114, V115: reserved bits
theorem test_decode_rejects :
    decode 0x88000000 = .error (.reservedOpcode 0x22) ∧
    decode 0xFC000000 = .error (.reservedOpcode 0x3F) ∧
    decode 0x0C000001 = .error (.reservedBits .unmask) ∧
    decode 0x00000001 = .error (.reservedBits .nop) ∧
    decode 0x14000001 = .error (.reservedBits .clone) ∧
    decode 0x40000001 = .error (.reservedBits .xor) := by decide

-- the match column of 30_encoding R109, and the example words of R113
theorem test_encode_matches :
    opMatch .mult = 0x68000000 ∧ opMatch .atob = 0x84000000 ∧ opMatch .tonarrow = 0xA4000000 ∧
    encode (.allocm 0 5 .arith 1 .w8) = 0x1C050090 ∧ encode (.rotl 4 9) = 0x5C800009 ∧
    encode (.towide 8 0 .w32) = 0xA1000040 := by decide

theorem test_decodeTableWord : decodeTableWord 32 0x44400800 = some (.and 2 0 1) := by decide

-- 30_encoding R113's syntax column
theorem test_asm :
    asm (.alloc 3 .boolean 2 .w32) = "ALLOC M3, bool, 2, w32" ∧
    asm (.clone 1 0 true) = "CLONE M1, M0, zero" ∧ asm .nop = "NOP" ∧
    asm (.towide 8 0 .w32) = "TOWIDE M8, M0, w32" := by decide

/-! ## Well-formedness (30_encoding R112): an ill-formed term for each check, NMV = 16 -/

theorem test_wellFormed_rd : Instr.wellFormed Params.reference (.unmask 16) = false := by decide
theorem test_wellFormed_rs1 : Instr.wellFormed Params.reference (.towide 0 16 .w32) = false := by
  decide
theorem test_wellFormed_rs2 : Instr.wellFormed Params.reference (.and 0 15 16) = false := by decide
-- V116 and V117: rd + cnt = 17 and 16
theorem test_wellFormed_batch :
    Instr.wellFormed Params.reference (.allocm 15 2 .boolean 1 .w8) = false ∧
    Instr.wellFormed Params.reference (.allocm 15 1 .boolean 1 .w8) = true ∧
    Instr.wellFormed Params.reference (.freem 0 17) = false := by decide

/-! ## Lifecycle -/

-- V16
theorem test_nop : got (fun s => (codeAndDraws s, s.ccnt.toNat, s.slots == State.reset.slots))
    (exec .nop (start [])) = some ((.ok, 0), 1, true) := by decide
-- 40_lifecycle R141's example: SIG = 10 and three zero shares
theorem test_alloc : got (fun s => ((s.slot 3).valid, (sig (s.slot 3)).toNat, shares 3 4 s))
    (exec (.alloc 3 .boolean 2 .w32) (start [])) = some (true, 10, [0, 0, 0, 0]) := by decide
-- V80: P2 before P4
theorem test_alloc_order : got codeAndDraws
    (exec (.alloc 3 .boolean 0 .w8) (start [(3, live .boolean 1 .w8 [])])) =
    some (.invalidOrder, 0) := by decide
-- V4
theorem test_mask_arith : got (shares 0 2)
    (exec (.mask 0 .arith 1 .w64) (start [] [0xFEDCBA9876543210] 0x0123456789ABCDEF)) =
    some [0x02468ACF13579BDF, 0xFEDCBA9876543210] := by decide
-- V4b
theorem test_mask_truncates : got (shares 1 4)
    (exec (.mask 1 .boolean 2 .w16) (start [] [0xAAAA5555, 0x0F0F] 0xFFFF1234)) =
    some [0x486E, 0x5555, 0x0F0F, 0] := by decide
-- V7
theorem test_unmask : got (fun s => s.dout.toNat) (exec (.unmask 0) (start [(0, s27)])) =
    some 0x5A := by decide
-- V8
theorem test_unmask_free : got (fun s => (s.err, s.dout.toNat)) (exec (.unmask 0) (start [])) =
    some (.domainMismatch, 0) := by decide
-- V5
theorem test_refresh_arith : got (shares 5 4)
    (exec (.refresh 5) (start [(5, live .arith 3 .w32 [0xCAFEBAB8, 1, 2, 3])]
      [0x80000000, 0xFFFFFFFF, 0x12345678])) =
    some [0x38CA6441, 0x80000001, 0x1, 0x1234567B] := by decide
-- 40_lifecycle R146's example
theorem test_refresh_boolean : got (shares 0 3)
    (exec (.refresh 0) (start [(0, s69)] [0x0F, 0xF0])) = some [0x96, 0x1E, 0xD2] := by decide
-- V11 and V11b
theorem test_clone : got (fun s => decide (s.slot 1 = s69)) (exec (.clone 1 0 false) (start [(0, s69)])) =
    some true ∧
    got (shares 1 3) (exec (.clone 1 0 true) (start [(0, s69)])) = some [0, 0, 0] := by decide
-- V9: the source is live, so the destination is not free
theorem test_clone_self : got codeAndDraws (exec (.clone 0 0 false) (start [(0, s69)])) =
    some (.allocation, 0) := by decide
-- 40_lifecycle R148's example, and V12
theorem test_free : got (fun s => decide (s.slot 3 = Slot.free s.cfg)) (exec (.free 3) (start [(3, s69)])) =
    some true ∧ got codeAndDraws (exec (.free 9) (start [])) = some (.ok, 0) := by decide
-- V13
theorem test_allocm_atomic : got (fun s => (s.err, s.slots == (start [(2, s69)]).slots))
    (exec (.allocm 0 5 .arith 1 .w8) (start [(2, s69)])) = some (.allocation, true) := by decide
-- V12b
theorem test_allocm_count : got codeAndDraws (exec (.allocm 0 1 .boolean 1 .w8) (start [])) =
    some (.invalidOrder, 0) := by decide
-- V14
theorem test_freem : got (fun s => (List.range 4).map fun i => (s.slot i).valid)
    (exec (.freem 0 4) (start [(0, s69), (1, s69), (2, s69), (3, s69)] [] 0x5)) =
    some [true, false, true, false] := by decide
-- V15 and V15d
theorem test_info : got (fun s => s.dout.toNat)
      (exec (.info 3) (start [(3, live .boolean 2 .w32 [])])) = some 0xA0221 ∧
    got (fun s => s.dout.toNat) (exec (.info 1) (start [(1, live .arith 3 .w64 [])])) =
      some 0xF0333 := by decide

/-! ## Boolean gadgets -/

-- V33: coercion of the first source in place
theorem test_xor_coerces : got (fun s => (shares 0 2 s, shares 2 2 s, (s.slot 0).dom, codeAndDraws s))
    (exec (.xor 2 0 1) (start [(0, live .arith 1 .w8 [0x1A, 0x40]),
      (1, live .boolean 1 .w8 [0xAE, 0xA1]), (2, live .boolean 1 .w8 [])]
      [0xA1, 0xB2, 0xC3, 0xD4, 0xE5, 0xF6, 0x17, 0x28, 0x39])) =
    some ([0xDB, 0x81], [0x75, 0x20], .boolean, (.ok, 9)) := by decide
-- V26
theorem test_xor_signature : got codeAndDraws
    (exec (.xor 0 0 1) (start [(0, s69), (1, live .boolean 1 .w8 [])])) =
    some (.domainMismatch, 0) := by decide
-- V20
theorem test_and : got (shares 2 3)
    (exec (.and 2 0 1) (start [(0, s69), (1, live .boolean 2 .w8 [0x63, 0x0F, 0xF0]),
      (2, live .boolean 2 .w8 [])] [0xA5, 0x5A, 0x3C])) = some [0xF7, 0x89, 0x66] := by decide
-- V24: width 16
theorem test_and_w16 : got codeAndDraws
    (exec (.and 2 0 1) (start [(0, live .boolean 1 .w16 []), (1, live .boolean 1 .w16 []),
      (2, live .boolean 1 .w16 [])] [1])) = some (.domainMismatch, 0) := by decide
-- V23
theorem test_or : got (shares 2 2)
    (exec (.or 2 0 1) (start [(0, live .boolean 1 .w8 [0xF0, 0x0F]),
      (1, live .boolean 1 .w8 [0x3C, 0x00]), (2, live .boolean 1 .w8 [])] [0x55])) =
    some [0xA9, 0x56] := by decide
-- V34: nine zero draws of the coercion
theorem test_not_coerces : got (shares 0 2)
    (exec (.not 0) (start [(0, live .arith 1 .w8 [0x1A, 0x40])] (List.replicate 9 0))) =
    some [0xA5, 0x00] := by decide
-- V32
theorem test_not : got (shares 0 3) (exec (.not 0) (start [(0, s69)])) =
    some [0x96, 0x11, 0x22] := by decide
-- V32 and V28: a shift by the width is by 0
theorem test_shr : got (shares 0 3) (exec (.shr 0 3) (start [(0, s69)])) = some [0x0D, 0x02, 0x04] ∧
    got (shares 0 3) (exec (.shr 0 8) (start [(0, s69)])) = some [0x69, 0x11, 0x22] := by decide
-- V29
theorem test_shl : got (shares 0 2)
    (exec (.shl 0 63) (start [(0, live .boolean 1 .w64 [0x8123456789ABCDEE, 0x0123456789ABCDEF])])) =
    some [0, 0x8000000000000000] := by decide
-- V30
theorem test_rotr : got (shares 0 2)
    (exec (.rotr 0 36) (start [(0, live .boolean 1 .w32 [0x12CB5687, 0x00FF00FF])])) =
    some [0x712CB568, 0xF00FF00F] := by decide
-- V32
theorem test_rotl : got (shares 0 3) (exec (.rotl 0 9) (start [(0, s69)])) =
    some [0xD2, 0x22, 0x44] := by decide

/-! ## Arithmetic gadgets -/

-- V46
theorem test_add_coerces : got (fun s => (shares 0 2 s, shares 2 2 s, s.rcnt.toNat))
    (exec (.add 2 0 1) (start [(0, live .boolean 1 .w8 [0x4B, 0x11]),
      (1, live .arith 1 .w8 [0x10, 0x20]), (2, live .arith 1 .w8 [])] [0x0F, 0xF0])) =
    some ([0xEE, 0x6C], [0xFE, 0x8C], 2) := by decide
-- V42
theorem test_add_wraps : got (shares 2 2)
    (exec (.add 2 0 1) (start [(0, live .arith 1 .w64 [0xFFFFFFFFFFFFFFFE, 1]),
      (1, live .arith 1 .w64 [0, 2]), (2, live .arith 1 .w64 [])])) =
    some [0xFFFFFFFFFFFFFFFE, 3] := by decide
-- V41
theorem test_sub : got (shares 2 3)
    (exec (.sub 2 0 1) (start [(0, s27), (1, live .arith 2 .w8 [0x10, 0x20, 0x30]),
      (2, live .arith 2 .w8 [])])) = some [0x17, 0xF1, 0xF2] := by decide
-- V43: a source that is also the destination
theorem test_sub_self : got (shares 1 2)
    (exec (.sub 1 1 1) (start [(1, live .arith 1 .w64 [0, 2])])) = some [0, 0] := by decide
-- V45
theorem test_mult : got (shares 2 3)
    (exec (.mult 2 0 1) (start [(0, live .arith 2 .w32 [0xD42899E2, 0x11111111, 0x22222222]),
      (1, live .arith 2 .w32 [0xC366F13A, 0x33333333, 0x44444444]), (2, live .arith 2 .w32 [])]
      [0x55555555, 0x66666666, 0x77777777, 0x88888888, 0x99999999])) =
    some [0x6E2BCEDC, 0x0D245F6B, 0x80AF253E] := by decide

/-! ## Converters -/

-- V51
theorem test_btoa : got (fun s => (shares 0 3 s, (s.slot 0).dom, s.rcnt.toNat))
    (exec (.btoa 0) (start [(0, s69)] [1, 2, 3, 4, 5, 6, 7])) =
    some ([0x71, 0x11, 0xD8], .arith, 7) := by decide
-- V59
theorem test_btoa_order3 : got (shares 0 4)
    (exec (.btoa 0) (start [(0, live .boolean 3 .w32 [0x89ABCDEF, 1, 2, 3])] (List.replicate 18 0))) =
    some [0x3, 0x89ABCDE5, 0x1, 0x6] := by decide
-- V57
theorem test_atob : got (fun s => (shares 0 3 s, (s.slot 0).dom, s.rcnt.toNat))
    (exec (.atob 0) (start [(0, s27)] (List.range' 1 30))) =
    some ([0x4D, 0x05, 0x12], .boolean, 30) := by decide
-- V56
theorem test_atob_idempotent : got (fun s => (shares 0 3 s, s.rcnt.toNat))
    (exec (.atob 0) (start [(0, s69)])) = some ([0x69, 0x11, 0x22], 0) := by decide
-- V61
theorem test_towide : got (shares 4 2)
    (exec (.towide 4 0 .w32) (start [(0, live .boolean 1 .w8 [0x01, 0x10]),
      (1, live .boolean 1 .w8 [0x02, 0x20]), (2, live .boolean 1 .w8 [0x03, 0x30]),
      (3, live .boolean 1 .w8 [0x04, 0x40])])) = some [0x04030201, 0x40302010] := by decide
-- V66: P3 before P4
theorem test_towide_priority : got codeAndDraws
    (exec (.towide 1 0 .w16) (start [(0, live .boolean 1 .w8 []), (1, live .boolean 2 .w8 [])])) =
    some (.domainMismatch, 0) := by decide
-- V69d
theorem test_tonarrow : got (fun s => (List.range' 12 4).map fun i => shares i 2 s)
    (exec (.tonarrow 12 0 .w8) (start [(0, live .boolean 1 .w32 [0x11223345, 0x00000001])])) =
    some [[0x45, 0x01], [0x33, 0x00], [0x22, 0x00], [0x11, 0x00]] := by decide
-- V69: rd + k = 18
theorem test_tonarrow_range : got codeAndDraws
    (exec (.tonarrow 14 0 .w8) (start [(0, live .boolean 1 .w32 [0x11223345, 0x00000001])])) =
    some (.allocation, 0) := by decide

/-! ## Internal functions: V70, V72 and V73 -/

theorem test_psi : psi (0x69 : BitVec 8) 0x11 = 0x67 := by decide
theorem test_csa : ((csa (w := 8) [0x0F, 0] [0x33, 0] [0x55, 0]).run
    { answers := words [0x5C], count := 0 }).toOption.map (·.1) =
    some ([0x69, 0x00], [0x96, 0xB8]) := by decide
theorem test_ksAdd : ((ksAdd (w := 8) [0x96, 0] [0x69, 0]).run
    { answers := words [0x3A, 0x11, 0x22, 0x33, 0x44, 0x55, 0x66], count := 0 }).toOption.map (·.1) =
    some [0x65, 0x9A] := by decide

/-! ## Steps: protocol, entropy and reset -/

/-- A state with a host program and a schedule. -/
def hosted (s : State) (ops : List HostOp) (turns : List Turn) : State :=
  { s with env := { s.env with host := ops, turns := turns } }

-- V111 and V116: the step completes with ILLEGAL
theorem test_step_illegal :
    got codeAndDraws (step (startWord 0x0E000000 [])) = some (.illegal, 0) ∧
    got codeAndDraws (step (startWord 0x1DE20080 [])) = some (.illegal, 0) ∧
    got codeAndDraws (step (startWord 0x1DE10080 [])) = some (.invalidOrder, 0) := by decide
-- V90: the command masks DIN_L although DIN has changed
theorem test_step_din_latched :
    got (shares 0 3) (step { startWord 0x08000100 [] [0x11, 0x22] 0x5A with din := 0x77 }) =
    some [0x69, 0x11, 0x22] := by decide
-- V91: a CMD write while BUSY is dropped and sets OVR
theorem test_step_dropped :
    got (fun s => (s.ovr, s.lastCmd, s.status.toNat))
      (step (hosted (startWord 0x08000100 []) [issue .nop] [.host])) =
    some (true, 0x08000100, 3) := by decide
-- 70_reset R370: acceptance
theorem test_step_accepted :
    got (fun s => (s.lastCmd, s.pending))
      (step (hosted { State.reset with din := 0x5A } [issue (.unmask 0)] [])) =
    some (0x0C000000, some { word := 0x0C000000, dinL := 0x5A }) := by decide
-- V92: the first draw of REFRESH fails
theorem test_step_fatal :
    got (fun s => (s.status.toNat, s.slots == State.reset.slots, s.ccnt.toNat, s.lastCmd))
      (step { startWord 0x10000000 [(0, s69)] with
        ccnt := 1, env := { Env.empty with answers := [.fail] } }) =
    some (4, true, 1, 0x10000000) := by decide
-- 20_memory R91: a draw without an answer leaves the command pending
theorem test_step_blocked :
    step (startWord 0x10000000 [(0, s69)] [0x0F]) = .next (startWord 0x10000000 [(0, s69)] [0x0F]) := by
  rfl
-- 20_memory R85 and R82
theorem test_step_refused_access :
    (match step (hosted State.reset [.read 0x38 8] []) with
      | .fault f => some f | _ => none) = some (.hostStuck 0x38 8) ∧
    (match step (hosted State.reset [.read 0x10 4] []) with
      | .fault f => some f | _ => none) = some (.hostStuck 0x10 4) := by decide
-- 20_memory R81, R83 and 10_state R44: CONFIG is 0x1003 in the reference configuration
theorem test_step_read_config :
    got (fun s => s.env.reads) (step (hosted State.reset [.read 0x30 8] [])) =
    some [(0x30, [0x03, 0x10, 0, 0, 0, 0, 0, 0])] := by decide
-- 70_reset R360: reset abandons a pending command
theorem test_step_reset :
    got (fun s => (s.busy, s.slots == State.reset.slots))
      (step (hosted (startWord 0x10000000 [(0, s69)]) [] [.reset])) = some (false, true) := by decide
-- the command placed by withFetchWord is what the next step runs
theorem test_withFetchWord :
    got (fun s => (s.lastCmd, s.ccnt.toNat, (s.slot 3).valid))
      (step (State.reset.withFetchWord 32 0x04600140)) = some (0x04600140, 1, true) := by decide
-- 30_encoding R115 and 90 C7
theorem test_freeAll :
    freeAll { maxOrder := 3, nmv := 16 } = [writeDin 0, memWrite 0 0x20100000, .wait] ∧
    freeAll { maxOrder := 3, nmv := 32 } =
      [writeDin 0, memWrite 0 0x201F0000, .wait, memWrite 0 0x1BE00000, .wait] := by decide

/-! ## Witnesses: states that meet all hypotheses of a statement, at the boundary of each clause -/

/-- The hypotheses of a result: the checks pass and exactly the words `ws` are there for the draws. -/
abbrev Ready (s : State) (i : Instr) (ws : List Word) (rest : List Answer) : Prop :=
  errorOf s i = none ∧ s.env.answers = ws.map .word ++ rest ∧ ws.length = drawsOf s i

/-- A state in which this word is pending and the datapath moves. -/
abbrev Runs (s : State) (q : Pending) : Prop := s.pending = some q ∧ nextTurn s = .datapath

/-- A state whose host makes this access next. -/
abbrev Accesses (s : State) (o : HostOp) (ops : List HostOp) : Prop :=
  nextTurn s = .host ∧ s.env.host = o :: ops

/-- Two Boolean sources, an arithmetic one and a destination, of order 1 and width 8. -/
def operands : List (Nat × Slot) :=
  [(0, live .arith 1 .w8 [0x1A, 0x40]), (1, live .boolean 1 .w8 [0xAE, 0xA1]),
   (2, live .boolean 1 .w8 []), (3, live .arith 1 .w8 [3, 4])]

def ten : List Nat := List.replicate 10 0

/-- Ten words: nine for the coercion of an arithmetic slot and one for a DOM product. -/
def tenWords : List Word := List.replicate 10 0

theorem witness_encodeDecode : decode 0x40A31800 = .ok (.xor 5 3 3) := by decide
-- both ends of every reserved range of 30_encoding R110
theorem witness_reservedOpcodes :
    ∀ op ∈ [0x0A, 0x0F, 0x1B, 0x1F, 0x22, 0x27, 0x2A, 0x3F],
      Runs (startWord (BitVec.ofNat 32 (op * 2 ^ 26)) [])
        { word := BitVec.ofNat 32 (op * 2 ^ 26), dinL := 0 } ∧
      ((BitVec.ofNat 32 (op * 2 ^ 26)).extractLsb' 26 6).toNat = op := by decide
theorem witness_reservedBits :
    Runs (startWord 0x40000400 []) { word := 0x40000400, dinL := 0 } ∧
    (0x40000400 : CmdWord).extractLsb' 26 6 = opCode .xor ∧
    (0x40000400 : CmdWord) &&& opMask .xor ≠ opMatch .xor ∧
    (0xFFFFFFFF00000000 : Word).setWidth 32 = (0x0 : Word).setWidth 32 := by decide
theorem witness_opcodeZero :
    Runs (startWord 1 []) { word := 1, dinL := 0 } ∧
    Runs (startWord 0x02000000 []) { word := 0x02000000, dinL := 0 } ∧
    (0x02000000 : CmdWord).extractLsb' 26 6 = 0 := by decide
theorem witness_stepRuns :
    (startWord 0x04600140 []).env.turns = [] ∧
    (hosted (startWord 0x04600140 []) [] [.datapath]).env.turns.head? = some .datapath ∧
    (startWord 0x04600140 []).pending = some { word := 0x04600140, dinL := 0 } ∧
    decode 0x04600140 = .ok (.alloc 3 .boolean 2 .w32) := by decide
theorem witness_resetAtAnyTime :
    (hosted (start operands) [] [.reset, .host]).env.turns = .reset :: [.host] := by decide
theorem witness_params : Params.ok { maxOrder := 1, nmv := 2 } = true ∧
    Params.ok { maxOrder := 15, nmv := 32 } = true := by decide
theorem witness_inv : (startWord 0x82000000 operands).Inv := by unfold State.Inv; decide
theorem witness_inv_step : (start operands ten).Inv ∧ ∃ t, step (start operands ten) = .next t :=
  ⟨by unfold State.Inv; decide, _, rfl⟩
theorem witness_inv_fatal : { State.reset with fatal := true }.Inv := by unfold State.Inv; decide
theorem witness_stops :
    step (hosted State.reset [.read 0x38 8] []) = .fault (.hostStuck 0x38 8) ∧
    step (hosted State.reset [.write 0x30 [0, 0, 0, 0]] []) = .fault (.hostStuck 0x30 4) :=
  ⟨rfl, rfl⟩
-- one command for each of the codes 5, 1, 3 and 2
theorem witness_failures :
    errorOf (start operands) (.unmask 16) = some .illegal ∧
    errorOf (start operands) (.alloc 0 .boolean 4 .w8) = some .invalidOrder ∧
    errorOf (start operands) (.unmask 15) = some .domainMismatch ∧
    errorOf (start operands) (.alloc 3 .boolean 3 .w8) = some .allocation := by decide
theorem witness_failingWords :
    Runs (startWord 0x0E000000 operands) { word := 0x0E000000, dinL := 0 } ∧
    encode (.unmask 16) = 0x0E000000 ∧
    errorOf (startWord 0x0E000000 operands) (.unmask 16) = some .illegal ∧
    Runs (startWord 0x88000000 []) { word := 0x88000000, dinL := 0 } ∧
    decode 0x88000000 = .error (.reservedOpcode 0x22) := by decide
theorem witness_answered : Ready (start operands ten) (.and 2 0 1) tenWords [] := by decide
theorem witness_unanswered :
    errorOf (start operands (List.replicate 9 0)) (.and 2 0 1) = none ∧
    (start operands (List.replicate 9 0)).env.answers = (List.replicate 9 (0 : Word)).map .word ∧
    9 < drawsOf (start operands (List.replicate 9 0)) (.and 2 0 1) := by decide
theorem witness_entropyFailure :
    let s := { start operands with env := { Env.empty with answers := words [1, 2] ++ [.fail] } }
    errorOf s (.and 2 0 1) = none ∧
    s.env.answers = ([1, 2] : List Word).map .word ++ .fail :: [] ∧
    2 < drawsOf s (.and 2 0 1) := by decide
theorem witness_conversionFailure : (start operands).err ≠ .conversionFailure ∧
    ∃ t, step (start operands) = .next t := ⟨by decide, _, rfl⟩
theorem witness_hostRegisters : ∃ t, exec (.not 2) (start operands) = .next t := ⟨_, rfl⟩
theorem witness_doutWritten :
    got (fun t => decide (t.dout ≠ (start operands).dout)) (exec (.unmask 0) (start operands)) =
      some true ∧
    got (fun t => decide (t.dout ≠ (start operands).dout)) (exec (.info 0) (start operands)) =
      some true := by decide
theorem witness_liveSlots :
    got (fun t => (((start operands).slot 0).valid, (t.slot 0).valid,
        decide ((t.slot 0).dom ≠ ((start operands).slot 0).dom)))
      (exec (.and 2 0 1) (start operands ten)) = some (true, true, true) := by decide
theorem witness_pendingHides :
    let s := hosted (startWord 0x0C000000 operands) [writeDin 7] [.host]
    s.pending = some { word := 0x0C000000, dinL := 0 } ∧
    got (fun t => decide (t.pending = s.pending)) (step s) = some true := by decide
theorem witness_laterDin :
    (start operands).pending = some { word := 0, dinL := 0 } ∧
    ∃ t, exec (.mask 5 .boolean 1 .w8) (start operands [1]) = .next t := ⟨by decide, _, rfl⟩
-- the three rows of 70_reset R375
theorem witness_cmdWrite :
    let op : HostOp := .write 0x00 (bytesOf 0x0C000000)
    Accesses (hosted State.reset [op] []) op [] ∧
    Accesses (hosted (start operands) [op] [.host]) op [] ∧
    (hosted (start operands) [op] [.host]).busy = true ∧
    Accesses (hosted { State.reset with fatal := true } [op] []) op [] ∧
    (bytesOf 0x0C000000).length = 8 := by decide
-- every register of 20_memory R81
theorem witness_hostRead :
    ∀ off ∈ [0x00, 0x08, 0x10, 0x18, 0x20, 0x28, 0x30],
      Accesses (hosted State.reset [.read off 8] []) (.read off 8) [] := by decide
theorem witness_hostWrite :
    ∀ off ∈ [0x08, 0x10, 0x18, 0x20, 0x28, 0x30],
      Accesses (hosted State.reset [.write off (bytesOf 2)] []) (.write off (bytesOf 2)) [] ∧
      (bytesOf 2).length = 8 := by decide
-- 60_exceptions R321's codes 3, 1, 2 and 5 where the host reads them, in STATUS[11:8]
theorem test_errorCodes :
    got (fun t => t.status.toNat) (exec (.unmask 15) (start operands)) = some 0x300 ∧
    got (fun t => t.status.toNat) (exec (.alloc 0 .boolean 4 .w8) (start operands)) = some 0x100 ∧
    got (fun t => t.status.toNat) (exec (.alloc 3 .boolean 3 .w8) (start operands)) = some 0x200 ∧
    got (fun t => t.status.toNat) (exec (.unmask 16) (start operands)) = some 0x500 := by decide
-- 20_memory R83: the lowest and the highest byte
theorem witness_bytes : (bytesOf 0x1122334455667788)[0]? = some 0x88 ∧
    (bytesOf 0x1122334455667788)[7]? = some 0x11 := by decide
theorem witness_config : State.reset.cfg.ok = true ∧ ∃ t, step State.reset = .next t :=
  ⟨by decide, _, rfl⟩
theorem witness_secret : s69.dom = .boolean ∧ s27.dom = .arith := by decide

theorem witness_alloc : (start operands).Inv ∧
    errorOf (start operands) (.alloc 15 .arith 3 .w64) = none :=
  ⟨by unfold State.Inv; decide, by decide⟩
theorem witness_mask : (start operands [1, 2, 3]).Inv ∧
    (start operands [1, 2, 3]).pending = some { word := 0, dinL := 0 } ∧
    Ready (start operands [1, 2, 3]) (.mask 15 .arith 3 .w64) [1, 2, 3] [] :=
  ⟨by unfold State.Inv; decide, by decide, by decide⟩
theorem witness_unmask : errorOf (start operands) (.unmask 0) = none := by decide
theorem witness_refresh : Ready (start operands [1]) (.refresh 0) [1] [] ∧
    Ready (start operands [1]) (.refresh 1) [1] [] := by decide
theorem witness_clone : (start operands).Inv ∧
    errorOf (start operands) (.clone 15 0 true) = none ∧
    errorOf (start operands) (.clone 15 0 false) = none :=
  ⟨by unfold State.Inv; decide, by decide, by decide⟩
theorem witness_free : errorOf (start operands) (.free 0) = none := by decide
theorem witness_allocm : (start operands).Inv ∧
    errorOf (start operands) (.allocm 4 12 .boolean 1 .w16) = none :=
  ⟨by unfold State.Inv; decide, by decide⟩
theorem witness_freem : (start operands [] 5).pending = some { word := 0, dinL := 5 } ∧
    errorOf (start operands [] 5) (.freem 0 16) = none := by decide
theorem witness_info : errorOf (start operands) (.info 15) = none := by decide
-- the first source coerced, all three slots different
-- and a source that is also the destination, coerced or in the gadget's domain already
theorem witness_xor : Ready (start operands ten) (.xor 2 0 1) (List.replicate 9 0) (words [0]) ∧
    Ready (start operands ten) (.xor 0 0 1) (List.replicate 9 0) (words [0]) ∧
    Ready (start operands) (.xor 1 1 2) [] [] := by decide
theorem witness_and : Ready (start operands ten) (.and 2 0 1) tenWords [] := by decide
theorem witness_or : Ready (start operands ten) (.or 2 0 1) tenWords [] := by decide
theorem witness_not : Ready (start operands) (.not 1) [] [] ∧
    Ready (start operands ten) (.not 0) (List.replicate 9 0) (words [0]) := by decide
theorem witness_shift : Ready (start operands) (.shr 1 63) [] [] ∧
    Ready (start operands) (.shl 1 8) [] [] ∧
    Ready (start operands ten) (.shr 0 7) (List.replicate 9 0) (words [0]) := by decide
theorem witness_rotate : Ready (start operands) (.rotr 1 63) [] [] ∧
    Ready (start operands) (.rotl 1 0) [] [] ∧
    Ready (start operands ten) (.rotl 0 7) (List.replicate 9 0) (words [0]) := by decide
theorem witness_add : Ready (start operands [1, 2]) (.add 2 0 1) [1, 2] [] ∧
    Ready (start operands) (.add 0 0 3) [] [] := by decide
theorem witness_sub : Ready (start operands [1, 2]) (.sub 2 1 3) [1, 2] [] ∧
    Ready (start operands [1, 2]) (.sub 1 1 3) [1, 2] [] := by decide
theorem witness_mult : Ready (start operands [1, 2]) (.mult 2 0 3) [1, 2] [] := by decide
theorem witness_btoa : Ready (start operands [1, 2]) (.btoa 1) [1, 2] [] ∧
    Ready (start operands) (.btoa 0) [] [] := by decide
theorem witness_atob : Ready (start operands ten) (.atob 0) (List.replicate 9 0) (words [0]) ∧
    Ready (start operands) (.atob 1) [] [] := by decide
theorem witness_towide : (start operands ten).Inv ∧
    Ready (start operands ten) (.towide 15 0 .w16) (List.replicate 9 0) (words [0]) :=
  ⟨by unfold State.Inv; decide, by decide⟩
theorem witness_tonarrow :
    let s := start [(0, live .boolean 3 .w64 [1, 2, 3, 4]), (1, live .arith 1 .w16 [5, 6])]
      (List.replicate 11 0)
    s.Inv ∧ Ready s (.tonarrow 8 0 .w8) [] (words (List.replicate 11 0)) ∧
      Ready s (.tonarrow 14 1 .w8) (List.replicate 11 0) [] :=
  ⟨by unfold State.Inv; decide, by decide, by decide⟩

/-- The entropy port with these words to come. -/
def port (l : List Nat) : Port := { answers := words l, count := 0 }

theorem witness_domAnd : ∃ o p', domAnd ([1, 2] : List (BitVec 8)) [3, 4] (port [5]) = .ok (o, p') :=
  ⟨_, _, rfl⟩
theorem witness_domMult :
    ∃ o p', domMult ([1, 2] : List (BitVec 8)) [3, 4] (port [5, 6]) = .ok (o, p') := ⟨_, _, rfl⟩
theorem witness_csa :
    ∃ o c p', csa ([1, 2] : List (BitVec 8)) [3, 4] [5, 6] (port [5]) = .ok ((o, c), p') :=
  ⟨_, _, _, rfl⟩
theorem witness_ksAdd :
    ∃ o p', ksAdd (w := widthBits .w8) [1, 2] [3, 4] (port ten) = .ok (o, p') := ⟨_, _, rfl⟩
theorem witness_b2a : ∃ o p', b2a (w := widthBits .w8) [1, 2] (port [5, 6]) = .ok (o, p') := ⟨_, _, rfl⟩
theorem witness_slicing : ([1, 2, 3, 4] : List (BitVec 8)).length * 8 ≤ 32 ∧
    3 < ([1, 2, 3, 4] : List (BitVec 8)).length := by decide

end Sys2Proof.Tests
end

/-! PROOF. The reset state, the fields of STATUS and CONFIG, and the secret of a slot (10_state R34,
R35, R40, R44, R50). -/

namespace Sys2Proof.Machine

/-! ## Reset -/

@[simp] theorem slotAt_replicate_free (p : Params) (n i : Nat) :
    slotAt p (List.replicate n (Slot.free p)) i = Slot.free p := by
  simp only [slotAt, List.getD_eq_getElem?_getD, List.getElem?_replicate]
  split <;> rfl

theorem status_resetOf (p : Params) : (State.resetOf p).status = 0 := by
  simp [State.status, State.resetOf, State.busy, errCode]

/-- Settles O8: every register is the value `State.resetOf` writes, and every slot of its file is the
free slot. -/
theorem resetStateValues : Obligations.ResetStateValues := fun p i =>
  ⟨slotAt_replicate_free p p.nmv i, List.length_replicate, rfl, rfl, rfl, rfl, rfl, status_resetOf p,
    rfl, rfl, rfl⟩

/-! ## STATUS and CONFIG, bit by bit -/

theorem status_getLsbD (s : State) (k : Nat) : s.status.getLsbD k =
    if k = 0 then s.busy else if k = 1 then s.ovr else if k = 2 then s.fatal
    else (decide (8 ≤ k) && (errCode s.err).getLsbD (k - 8)) := by
  simp only [State.status, BitVec.getLsbD_append]
  match k with
  | 0 | 1 | 2 => simp
  | k + 3 =>
    simp only [BitVec.getLsbD_ofBool, BitVec.getLsbD_zero]
    grind

theorem config_getLsbD (s : State) (k : Nat) : s.config.getLsbD k =
    if k < 4 then (BitVec.ofNat 4 s.cfg.maxOrder).getLsbD k
    else (decide (8 ≤ k) && (BitVec.ofNat 8 s.cfg.nmv).getLsbD (k - 8)) := by
  simp only [State.config, BitVec.getLsbD_append]
  grind

/-- Settles O29: each field is compared with the bits of STATUS at its place. -/
theorem statusRegisterFields : Obligations.StatusRegisterFields := by
  intro s
  refine ⟨status_getLsbD s 0, status_getLsbD s 1, status_getLsbD s 2, ?reservedLow, ?code,
    ?reservedHigh, rfl, rfl, rfl, rfl, rfl, rfl⟩
  all_goals
    apply BitVec.eq_of_getLsbD_eq
    intro k hk
    rw [BitVec.getLsbD_extractLsb', status_getLsbD]
    grind

/-- The fields of CONFIG for every pair of parameters, legal or not. -/
theorem config_fields (s : State) :
    s.config.extractLsb' 0 4 = BitVec.ofNat 4 s.cfg.maxOrder ∧
    s.config.extractLsb' 8 8 = BitVec.ofNat 8 s.cfg.nmv ∧
    s.config.extractLsb' 4 4 = 0 ∧ s.config.extractLsb' 16 48 = 0 := by
  refine ⟨?maxOrder, ?nmv, ?reservedLow, ?reservedHigh⟩
  all_goals
    apply BitVec.eq_of_getLsbD_eq
    intro k hk
    rw [BitVec.getLsbD_extractLsb', config_getLsbD]
    grind

/-! ## The secret of a slot -/

/-- Truncating a left-to-right XOR of words gives the XOR of the truncated words. -/
theorem setWidth_foldl_xor (w : Nat) (f : Nat → Word) (l : List Nat) (v : Word) :
    (l.foldl (fun v k => v ^^^ f k) v).setWidth w =
      v.setWidth w ^^^ xorAll (l.map fun k => (f k).setWidth w) := by
  induction l generalizing v with
  | nil => simp [xorAll]
  | cons k l ih => simp [ih, xorAll, BitVec.setWidth_xor, BitVec.xor_assoc]

theorem toNat_sumAll {w : Nat} (l : List (BitVec w)) :
    (sumAll l).toNat = (l.map BitVec.toNat).sum % 2 ^ w := by
  induction l with
  | nil => simp [sumAll]
  | cons v l ih =>
    have hcons : sumAll (v :: l) = v + sumAll l := rfl
    simp [hcons, BitVec.toNat_add, ih]

/-- Settles O31: truncating before or after the XOR, or before or after the sum, gives the same `w`
bits. -/
theorem secretIsXorOrSumOfShares : Obligations.SecretIsXorOrSumOfShares := by
  intro r
  refine ⟨fun hd => ?boolean, fun hd => ?arith⟩
  case boolean =>
    simp [slotSecret, secretOf, hd, lowBits, setWidth_foldl_xor, readShares]
  case arith =>
    have hshares : (readShares r (widthBits r.wc)).map BitVec.toNat =
        ((List.range (shareCount r)).map fun k => (r.sh.getD k 0).toNat).map
          (· % 2 ^ widthBits r.wc) := by
      simp [readShares]
    simp only [slotSecret, secretOf, hd, BitVec.toNat_setWidth_of_le (widthBits_le r.wc),
      toNat_sumAll]
    rw [hshares, ← List.sum_nat_mod]

end Sys2Proof.Machine

/-! PROOF. What a command can do to one slot (10_state R31, R32, R37): which record updates keep a slot
legal, and the four ways a slot leaves a command. -/

namespace Sys2Proof.Machine

/-! ## Legal slots -/

/-- `Slot.ok` of a live slot, with a name for each clause (10_state R31, R32). -/
structure LiveOk (p : Params) (r : Slot) : Prop where
  length : r.sh.length = p.maxOrder + 1
  ord_pos : 1 ≤ r.ord.toNat
  ord_le : r.ord.toNat ≤ p.maxOrder
  share_lt : ∀ k, k ≤ p.maxOrder → (r.sh.getD k 0).toNat < 2 ^ widthBits r.wc
  share_zero : ∀ k, k ≤ p.maxOrder → r.ord.toNat < k → r.sh.getD k 0 = 0

theorem slot_ok_iff_of_live {p : Params} {r : Slot} (h : r.valid = true) :
    Slot.ok p r = true ↔ LiveOk p r := by
  simp only [Slot.ok, h, if_true, Bool.and_eq_true, Bool.or_eq_true, decide_eq_true_eq,
    List.all_eq_true, List.mem_range, Nat.lt_succ_iff]
  constructor
  · rintro ⟨hlen, ⟨hpos, hle⟩, hsh⟩
    exact ⟨hlen, hpos, hle, fun k hk => (hsh k hk).1, fun k hk hord =>
      (hsh k hk).2.resolve_left (Nat.not_le.2 hord)⟩
  · intro h
    exact ⟨h.length, ⟨h.ord_pos, h.ord_le⟩, fun k hk =>
      ⟨h.share_lt k hk, (Nat.lt_or_ge r.ord.toNat k).symm.imp id (h.share_zero k hk)⟩⟩

@[simp] theorem slot_ok_free (p : Params) : Slot.ok p (Slot.free p) = true := by
  simp [Slot.ok]

theorem toNat_setWidth_lt {w v : Nat} (x : BitVec w) (hw : w ≤ v) :
    (x.setWidth 64).toNat < 2 ^ v :=
  calc (x.setWidth 64).toNat ≤ x.toNat := by
        rw [BitVec.toNat_setWidth]; exact Nat.mod_le _ _
    _ < 2 ^ w := x.isLt
    _ ≤ 2 ^ v := Nat.pow_le_pow_right (by decide) hw

theorem writeShares_sh_getD (r : Slot) {w : Nat} (o : List (BitVec w)) (k : Nat) :
    (writeShares r o).sh.getD k 0 =
      if k < o.length then (o.getD k 0).setWidth 64 else r.sh.getD k 0 := by
  simp only [writeShares_sh, List.getD_eq_getElem?_getD]
  split
  next h => rw [List.getElem?_append_left (by simpa using h)]; simp [h]
  next h =>
    rw [List.getElem?_append_right (by simpa using h), List.length_map, List.getElem?_drop,
      Nat.add_sub_of_le (Nat.not_lt.1 h)]

theorem newSlot_sh_getD (p : Params) (dom : Domain) (ord : BitVec 4) (wc : Width) {w : Nat}
    (o : List (BitVec w)) (k : Nat) : (newSlot p dom ord wc o).sh.getD k 0 =
      if k < o.length then (o.getD k 0).setWidth 64 else 0 := by
  simp only [newSlot_sh, List.getD_eq_getElem?_getD]
  split
  next h => rw [List.getElem?_append_left (by simpa using h)]; simp [h]
  next h =>
    rw [List.getElem?_append_right (by simpa using h), List.getElem?_replicate]
    split <;> rfl

/-- New shares at indices up to the order, within the slot's width, keep a live slot legal whatever its
domain becomes (10_state R32). -/
theorem LiveOk.writeShares {p : Params} {r : Slot} (h : LiveOk p r) {w : Nat} (hw : w ≤ widthBits r.wc)
    {o : List (BitVec w)} (ho : o.length = shareCount r) (d : Domain) :
    LiveOk p { writeShares r o with dom := d } where
  length := by
    have := h.length
    have := h.ord_le
    simp [ho, shareCount]
    omega
  ord_pos := h.ord_pos
  ord_le := h.ord_le
  share_lt k hk := by
    show ((Machine.writeShares r o).sh.getD k 0).toNat < _
    rw [writeShares_sh_getD]
    split
    · exact toNat_setWidth_lt _ hw
    · exact h.share_lt k hk
  share_zero k hk hord := by
    have hlt : ¬ k < o.length := by
      rw [ho]
      exact Nat.not_lt.2 hord
    show (Machine.writeShares r o).sh.getD k 0 = 0
    rw [writeShares_sh_getD, if_neg hlt]
    exact h.share_zero k hk hord

/-- A slot made from at most `ord + 1` shares of its width is legal (40_lifecycle R143, 44_width
R301). -/
theorem liveOk_newSlot {p : Params} {ord : BitVec 4} {wc : Width} {w : Nat} {o : List (BitVec w)}
    (dom : Domain) (hpos : 1 ≤ ord.toNat) (hle : ord.toNat ≤ p.maxOrder) (hw : w ≤ widthBits wc)
    (ho : o.length ≤ ord.toNat + 1) : LiveOk p (newSlot p dom ord wc o) where
  length := by simp; omega
  ord_pos := hpos
  ord_le := hle
  share_lt k _ := by
    rw [newSlot_sh_getD]
    split
    · exact toNat_setWidth_lt _ hw
    · exact Nat.two_pow_pos _
  share_zero k _ hord := by
    rw [newSlot_sh_getD, if_neg]
    exact Nat.not_lt.2 (ho.trans hord)

theorem zeroSlot_eq_newSlot (p : Params) (dom : Domain) (ord : BitVec 4) (wc : Width) :
    zeroSlot p dom ord wc = newSlot p dom ord wc ([] : List (BitVec 0)) := by
  simp [zeroSlot, newSlot]

theorem liveOk_zeroSlot {p : Params} {ord : BitVec 4} (dom : Domain) (wc : Width)
    (hpos : 1 ≤ ord.toNat) (hle : ord.toNat ≤ p.maxOrder) : LiveOk p (zeroSlot p dom ord wc) :=
  zeroSlot_eq_newSlot p dom ord wc ▸ liveOk_newSlot dom hpos hle (Nat.zero_le _) (Nat.zero_le _)

/-- CLONE with `z`: the same metadata with every share 0 (40_lifecycle R147). -/
theorem LiveOk.zeroShares {p : Params} {r : Slot} (h : LiveOk p r) :
    LiveOk p { r with sh := r.sh.map fun _ => 0 } where
  length := by simpa using h.length
  ord_pos := h.ord_pos
  ord_le := h.ord_le
  share_lt k _ := by
    simp only [List.getD_eq_getElem?_getD, List.getElem?_map]
    cases r.sh[k]? <;> simp
  share_zero k _ _ := by
    simp only [List.getD_eq_getElem?_getD, List.getElem?_map]
    cases r.sh[k]? <;> rfl

/-! ## How one slot changes -/

/-- Slot `r'` is slot `r` with other shares and, if `c`, perhaps another domain (10_state R37); it is
legal if `r` was. -/
structure Reshared (p : Params) (c : Bool) (r r' : Slot) : Prop where
  valid : r'.valid = r.valid
  ord : r'.ord = r.ord
  wc : r'.wc = r.wc
  dom : c = false → r'.dom = r.dom
  ok : Slot.ok p r = true → Slot.ok p r' = true

theorem Reshared.refl (p : Params) (c : Bool) (r : Slot) : Reshared p c r r :=
  ⟨rfl, rfl, rfl, fun _ => rfl, id⟩

theorem Reshared.trans {p : Params} {c : Bool} {r r' r'' : Slot} (h : Reshared p c r r')
    (h' : Reshared p c r' r'') : Reshared p c r r'' :=
  ⟨h'.valid.trans h.valid, h'.ord.trans h.ord, h'.wc.trans h.wc,
    fun hc => (h'.dom hc).trans (h.dom hc), h'.ok ∘ h.ok⟩

theorem Reshared.shareCount {p : Params} {c : Bool} {r r' : Slot} (h : Reshared p c r r') :
    shareCount r' = shareCount r := by
  rw [Machine.shareCount, Machine.shareCount, h.ord]

/-- Writing `ord + 1` shares to a live slot, with its domain set to `d`. -/
theorem reshared_writeShares (p : Params) {c : Bool} {r : Slot} (hv : r.valid = true) {w : Nat}
    (hw : w = widthBits r.wc) {o : List (BitVec w)} (ho : o.length = shareCount r) {d : Domain}
    (hd : c = false → d = r.dom) : Reshared p c r { writeShares r o with dom := d } :=
  ⟨rfl, rfl, rfl, hd, fun hok => (slot_ok_iff_of_live (r := { writeShares r o with dom := d }) hv).2
    (((slot_ok_iff_of_live hv).1 hok).writeShares hw.le ho d)⟩

/-- The four ways a slot leaves a completed command: with its metadata, cleared, or, if it was free,
live. A new live slot is legal if the slots before the command, `x`, were. -/
inductive SlotMove (p : Params) (x : List Slot) (c : Bool) (r : Slot) : Slot → Prop where
  | reshared {r' : Slot} : Reshared p c r r' → SlotMove p x c r r'
  | freed : SlotMove p x c r (Slot.free p)
  | created {r' : Slot} : r.valid = false → r'.valid = true →
      ((∀ i, Slot.ok p (slotAt p x i) = true) → LiveOk p r') → SlotMove p x c r r'

theorem SlotMove.kept (p : Params) (x : List Slot) (c : Bool) (r : Slot) : SlotMove p x c r r :=
  .reshared (.refl p c r)

theorem SlotMove.ok {p : Params} {x : List Slot} {c : Bool} {r r' : Slot} (h : SlotMove p x c r r')
    (hx : ∀ i, Slot.ok p (slotAt p x i) = true) (hr : Slot.ok p r = true) : Slot.ok p r' = true := by
  cases h with
  | reshared h => exact h.ok hr
  | freed => exact slot_ok_free p
  | created _ hv h => exact (slot_ok_iff_of_live hv).2 (h hx)

/-- A slot live on both sides of a move keeps its width and order, and its domain unless `c` (10_state
R37). -/
theorem SlotMove.shape {p : Params} {x : List Slot} {c : Bool} {r r' : Slot}
    (h : SlotMove p x c r r') (hr : r.valid = true) (hr' : r'.valid = true) :
    r'.wc = r.wc ∧ r'.ord = r.ord ∧ (c = false → r'.dom = r.dom) := by
  cases h with
  | reshared h => exact ⟨h.wc, h.ord, h.dom⟩
  | freed => simp at hr'
  | created hfree => simp [hr] at hfree

/-! ## How a slot file changes -/

/-- Every slot of file `y`, and every number outside the file, stands in `R` to its slot of file `x`. -/
structure FileMoves (p : Params) (R : Nat → Slot → Slot → Prop) (x y : List Slot) : Prop where
  length : y.length = x.length
  slot : ∀ i, R i (slotAt p x i) (slotAt p y i)

theorem FileMoves.refl {p : Params} {R : Nat → Slot → Slot → Prop} (hR : ∀ i r, R i r r)
    (x : List Slot) : FileMoves p R x x :=
  ⟨rfl, fun i => hR i _⟩

/-- Two moves in a row, slot by slot. -/
theorem FileMoves.comp {p : Params} {R S T : Nat → Slot → Slot → Prop} {x y z : List Slot}
    (h : FileMoves p R x y) (h' : FileMoves p S y z)
    (hT : ∀ i r, R i (slotAt p x i) (slotAt p y i) → S i (slotAt p y i) r → T i (slotAt p x i) r) :
    FileMoves p T x z :=
  ⟨h'.length.trans h.length, fun i => hT i _ (h.slot i) (h'.slot i)⟩

theorem FileMoves.mono {p : Params} {R S : Nat → Slot → Slot → Prop} {x y : List Slot}
    (h : FileMoves p R x y) (hS : ∀ i r, R i (slotAt p x i) r → S i (slotAt p x i) r) :
    FileMoves p S x y :=
  ⟨h.length, fun i => hS i _ (h.slot i)⟩

/-- A write to slot `i`: that slot moves to the record written, or has no place in the file. -/
theorem fileMoves_setSlot {p : Params} {R : Nat → Slot → Slot → Prop} {x : List Slot} {i : Nat}
    {r : Slot} (hR : ∀ i r, R i r r) (hr : R i (slotAt p x i) r) :
    FileMoves p R x (setSlot x i r) := by
  refine ⟨setSlot_length x i r, fun j => ?_⟩
  by_cases hj : i = j
  · subst hj
    by_cases hi : i < x.length
    · rwa [slotAt_setSlot_same p r hi]
    · rw [setSlot, List.set_eq_of_length_le (Nat.not_lt.1 hi)]
      exact hR i _
  · rw [slotAt_setSlot_other p x r hj]
    exact hR j _

/-- A loop of moves. -/
theorem fileMoves_foldl {α : Type} {p : Params} {R : Nat → Slot → Slot → Prop}
    {g : List Slot → α → List Slot} (hrefl : ∀ i r, R i r r)
    (htrans : ∀ i r r' r'', R i r r' → R i r' r'' → R i r r'') {l : List α}
    (hg : ∀ x, ∀ a ∈ l, FileMoves p R x (g x a)) (x : List Slot) :
    FileMoves p R x (l.foldl g x) := by
  induction l generalizing x with
  | nil => exact .refl hrefl x
  | cons a l ih =>
    exact (hg x a (by simp)).comp (ih (fun y b hb => hg y b (by simp [hb])) (g x a))
      fun i r => htrans i _ _ r

/-- Slot `i` is as before, or holds a new record that `New` allows there. -/
def KeptOr (New : Nat → Slot → Prop) (i : Nat) (r r' : Slot) : Prop := r' = r ∨ New i r'

/-- A loop that writes new records. -/
theorem fileMoves_foldl_new {p : Params} {New : Nat → Slot → Prop} {l : List Nat}
    {g : List Slot → Nat → List Slot}
    (hg : ∀ x, ∀ j ∈ l, FileMoves p (KeptOr New) x (g x j)) (x : List Slot) :
    FileMoves p (KeptOr New) x (l.foldl g x) := by
  refine fileMoves_foldl (fun _ _ => .inl rfl) (fun i r r' r'' h h' => ?_) hg x
  rcases h' with rfl | h'
  · exact h
  · exact .inr h'

/-- The slots of a file are legal exactly when every slot number shows a legal slot. -/
theorem all_ok_iff (p : Params) (x : List Slot) :
    x.all (Slot.ok p) = true ↔ ∀ i, Slot.ok p (slotAt p x i) = true := by
  rw [List.all_eq_true]
  constructor
  · intro h i
    by_cases hi : i < x.length
    · rw [slotAt, List.getD_eq_getElem _ _ hi]
      exact h _ (List.getElem_mem hi)
    · rw [slotAt, List.getD_eq_default _ _ (Nat.not_lt.1 hi)]
      exact slot_ok_free p
  · intro h r hr
    obtain ⟨i, hi, rfl⟩ := List.getElem_of_mem hr
    have := h i
    rwa [slotAt, List.getD_eq_getElem _ _ hi] at this

end Sys2Proof.Machine

/-! PROOF. What every command can do, said once (70_reset R371, R374): its draws are counted, each slot
makes one of the moves of `SlotMove`, and DOUT is written by UNMASK and INFO only. -/

namespace Sys2Proof.Machine

/-! ## The effect of a completed command -/

/-- The gadgets and converters, which may change a slot's domain (10_state R37). -/
def mayCoerce (i : Instr) : Bool :=
  decide (instrOp i ∈ [.xor, .and, .or, .not, .shr, .shl, .rotr, .rotl, .add, .sub, .mult, .btoa, .atob,
    .towide, .tonarrow])

/-- What a completed command leaves of the slot file and DOUT (10_state R32, R37, R39). -/
structure EffectOk (i : Instr) (s : State) (e : Effect) : Prop where
  slots : FileMoves s.cfg (fun _ => SlotMove s.cfg s.slots (mayCoerce i)) s.slots e.slots
  dout : e.dout = s.dout ∨ (∃ rd, i = .unmask rd ∧ e.dout = slotSecret (s.slot rd.toNat)) ∨
    ∃ rd, i = .info rd

/-- `exec i s` is some checks and a body that, once they pass, makes the draws its rule counts and ends
in such an effect. -/
def RunsOk (i : Instr) (s : State) : Prop :=
  ∃ cs b, exec i s = runCommand s cs b ∧
    (firstFail cs = none → DrawsExactly b (drawsOf s i) (EffectOk i s))

@[simp] theorem firstFail_cons_eq_none (c : Bool) (e : ErrCode) (cs : List (Bool × ErrCode)) :
    firstFail ((c, e) :: cs) = none ↔ c = true ∧ firstFail cs = none := by
  cases c <;> simp [firstFail]

theorem orderOk_iff {s : State} {ord : BitVec 4} :
    orderOk s ord = true ↔ 1 ≤ ord.toNat ∧ ord.toNat ≤ s.cfg.maxOrder := by
  simp [orderOk]

theorem fileMoves_kept (s : State) (c : Bool) :
    FileMoves s.cfg (fun _ => SlotMove s.cfg s.slots c) s.slots s.slots :=
  .refl (fun _ => .kept _ _ c) s.slots

/-- One slot of the file written. -/
theorem fileMoves_write {s : State} {c : Bool} {i : Nat} {r : Slot}
    (h : SlotMove s.cfg s.slots c (s.slot i) r) :
    FileMoves s.cfg (fun _ => SlotMove s.cfg s.slots c) s.slots (setSlot s.slots i r) :=
  fileMoves_setSlot (fun _ => .kept _ _ c) h

/-- Slots of a file that reshared the one before the command, and new live slots in free places. -/
theorem fileMoves_of_reshared_new {s : State} {x y : List Slot} {New : Nat → Slot → Prop}
    (hx : FileMoves s.cfg (fun _ => Reshared s.cfg true) s.slots x)
    (hy : FileMoves s.cfg (KeptOr New) x y)
    (hnew : ∀ i r, New i r → (s.slot i).valid = false ∧ r.valid = true ∧
      ((∀ j, Slot.ok s.cfg (s.slot j) = true) → LiveOk s.cfg r)) :
    FileMoves s.cfg (fun _ => SlotMove s.cfg s.slots true) s.slots y := by
  refine hx.comp hy fun i r hi h => ?_
  rcases h with rfl | h
  · exact .reshared hi
  · obtain ⟨hfree, hlive, hok⟩ := hnew i r h
    exact .created hfree hlive hok

theorem liveOk_of_live {s : State} {i : Nat} (hv : (s.slot i).valid = true)
    (hok : ∀ j, Slot.ok s.cfg (slotAt s.cfg s.slots j) = true) : LiveOk s.cfg (s.slot i) :=
  (slot_ok_iff_of_live hv).1 (hok i)

/-! ## The lifecycle commands -/

theorem runsOk_nop (s : State) : RunsOk .nop s :=
  ⟨[], pure { slots := s.slots, dout := s.dout }, rfl, fun _ =>
    drawsExactly_pure ⟨fileMoves_kept s _, .inl rfl⟩⟩

theorem runsOk_unmask (rd : SlotNo) (s : State) : RunsOk (.unmask rd) s :=
  ⟨_, _, rfl, fun _ => drawsExactly_pure ⟨fileMoves_kept s _, .inr (.inl ⟨rd, rfl, rfl⟩)⟩⟩

theorem runsOk_info (rd : SlotNo) (s : State) : RunsOk (.info rd) s :=
  ⟨_, _, rfl, fun _ => drawsExactly_pure ⟨fileMoves_kept s _, .inr (.inr ⟨rd, rfl⟩)⟩⟩

theorem runsOk_free (rd : SlotNo) (s : State) : RunsOk (.free rd) s :=
  ⟨_, _, rfl, fun _ => drawsExactly_pure ⟨fileMoves_write .freed, .inl rfl⟩⟩

theorem runsOk_alloc (rd : SlotNo) (dom : Domain) (ord : BitVec 4) (wc : Width) (s : State) :
    RunsOk (.alloc rd dom ord wc) s := by
  refine ⟨_, _, rfl, fun hc => drawsExactly_pure ⟨fileMoves_write ?_, .inl rfl⟩⟩
  obtain ⟨-, hord, hfree, -⟩ : _ ∧ orderOk s ord = true ∧ isLive s rd.toNat = false ∧ _ := by
    simpa using hc
  obtain ⟨hpos, hle⟩ := orderOk_iff.1 hord
  exact .created hfree rfl fun _ => liveOk_zeroSlot dom wc hpos hle

theorem runsOk_mask (rd : SlotNo) (dom : Domain) (ord : BitVec 4) (wc : Width) (s : State) :
    RunsOk (.mask rd dom ord wc) s := by
  refine ⟨_, _, rfl, fun hc => (drawsExactly_bind (drawsExactly_maskShares _ dom _) fun o ho =>
    drawsExactly_pure ⟨fileMoves_write ?_, .inl rfl⟩).of_eq rfl⟩
  obtain ⟨-, hord, hfree, -⟩ : _ ∧ orderOk s ord = true ∧ isLive s rd.toNat = false ∧ _ := by
    simpa using hc
  obtain ⟨hpos, hle⟩ := orderOk_iff.1 hord
  exact .created hfree rfl fun _ => liveOk_newSlot dom hpos hle le_rfl (by omega)

theorem runsOk_refresh (rd : SlotNo) (s : State) : RunsOk (.refresh rd) s := by
  refine ⟨_, _, rfl, fun hc => (drawsExactly_bind (drawsExactly_refreshShares _ _) fun o ho =>
    drawsExactly_pure ⟨fileMoves_write (.reshared ?_), .inl rfl⟩).of_eq
      (by simp [shareCount, drawsOf])⟩
  obtain ⟨-, hlive, -⟩ : _ ∧ isLive s rd.toNat = true ∧ _ := by simpa using hc
  exact reshared_writeShares s.cfg hlive rfl (by simpa using ho) fun _ => rfl

theorem runsOk_clone (rd rs1 : SlotNo) (zero : Bool) (s : State) : RunsOk (.clone rd rs1 zero) s := by
  refine ⟨_, _, rfl, fun hc => drawsExactly_pure ⟨fileMoves_write ?_, .inl rfl⟩⟩
  obtain ⟨-, hlive, hfree, -⟩ : _ ∧ isLive s rs1.toNat = true ∧ isLive s rd.toNat = false ∧ _ := by
    simpa using hc
  cases zero
  · exact .created hfree hlive (liveOk_of_live hlive)
  · exact .created hfree hlive fun hok => (liveOk_of_live hlive hok).zeroShares

theorem allFree_iff {s : State} {i k : Nat} :
    allFree s i k = true ↔ ∀ j < k, (s.slot (i + j)).valid = false := by
  simp [allFree, isLive]

theorem runsOk_allocm (rd : SlotNo) (cnt : BitVec 5) (dom : Domain) (ord : BitVec 4) (wc : Width)
    (s : State) : RunsOk (.allocm rd cnt dom ord wc) s := by
  refine ⟨_, _, rfl, fun hc => drawsExactly_pure ⟨?_, .inl rfl⟩⟩
  obtain ⟨-, ⟨hord, -⟩, hfree, -⟩ : _ ∧ (orderOk s ord = true ∧ _) ∧
      allFree s rd.toNat cnt.toNat = true ∧ _ := by simpa using hc
  obtain ⟨hpos, hle⟩ := orderOk_iff.1 hord
  have hloop := fileMoves_foldl_new (p := s.cfg)
    (New := fun i r => (s.slot i).valid = false ∧ r = zeroSlot s.cfg dom ord wc)
    (fun x j hj => fileMoves_setSlot (fun _ _ => .inl rfl)
      (.inr ⟨allFree_iff.1 hfree j (List.mem_range.1 hj), rfl⟩)) s.slots
  refine hloop.mono fun i r h => ?_
  rcases h with rfl | ⟨hi, rfl⟩
  · exact .kept _ _ _ _
  · exact .created hi rfl fun _ => liveOk_zeroSlot dom wc hpos hle

theorem runsOk_freem (rd : SlotNo) (cnt : BitVec 5) (s : State) : RunsOk (.freem rd cnt) s := by
  refine ⟨_, _, rfl, fun _ => drawsExactly_pure ⟨?_, .inl rfl⟩⟩
  have hrefl : ∀ (i : Nat) (r : Slot), KeptOr (fun _ r => r = Slot.free s.cfg) i r r :=
    fun _ _ => .inl rfl
  refine (fileMoves_foldl_new (New := fun _ r => r = Slot.free s.cfg) (fun x j _ => ?_) s.slots).mono
    fun i r h => ?_
  · split
    · exact .refl hrefl x
    · exact fileMoves_setSlot hrefl (.inr rfl)
  · rcases h with rfl | rfl
    · exact .kept _ _ _ _
    · exact .freed

/-! ## Coercion (43_domain R280), for both domains at once -/

/-- ToBool or ToArith, by the domain wanted. -/
def coerce (d : Domain) (p : Params) (x : List Slot) (i : Nat) : Draw (List Slot) :=
  match d with
  | .boolean => toBool p x i
  | .arith => toArith p x i

/-- The draws of `coerce`. -/
def coerceDraws (d : Domain) (r : Slot) : Nat :=
  match d with
  | .boolean => toBoolDraws r
  | .arith => toArithDraws r

theorem coerceDraws_of_dom {d : Domain} {r : Slot} (h : r.dom = d) : coerceDraws d r = 0 := by
  subst h
  cases hd : r.dom <;> simp [coerceDraws, toBoolDraws, toArithDraws, hd]

/-- File `y` is file `x` with slot `i` coerced to domain `d`. -/
structure CoercedAt (p : Params) (d : Domain) (i : Nat) (x y : List Slot) : Prop where
  moves : FileMoves p (fun _ => Reshared p true) x y
  dom : (slotAt p y i).dom = d
  others : ∀ j, i ≠ j → slotAt p y j = slotAt p x j

theorem fileReshared_refl (p : Params) (x : List Slot) :
    FileMoves p (fun _ => Reshared p true) x x :=
  .refl (fun _ => .refl p true) x

theorem fileReshared_trans {p : Params} {x y z : List Slot}
    (h : FileMoves p (fun _ => Reshared p true) x y)
    (h' : FileMoves p (fun _ => Reshared p true) y z) : FileMoves p (fun _ => Reshared p true) x z :=
  h.comp h' fun _ _ => Reshared.trans

/-- New shares and the domain `d` written to a live slot. -/
theorem fileReshared_writeShares {p : Params} {x : List Slot} {i : Nat}
    (hv : (slotAt p x i).valid = true) {w : Nat} (hw : w = widthBits (slotAt p x i).wc)
    {o : List (BitVec w)} (ho : o.length = shareCount (slotAt p x i)) (d : Domain) :
    FileMoves p (fun _ => Reshared p true) x
      (setSlot x i { writeShares (slotAt p x i) o with dom := d }) :=
  fileMoves_setSlot (fun _ => .refl p true) (reshared_writeShares p hv hw ho (by simp))

theorem coercedAt_writeShares {p : Params} {x : List Slot} {i : Nat} (d : Domain)
    (hv : (slotAt p x i).valid = true) {o : List (BitVec (widthBits (slotAt p x i).wc))}
    (ho : o.length = shareCount (slotAt p x i)) :
    CoercedAt p d i x (setSlot x i { writeShares (slotAt p x i) o with dom := d }) where
  moves := fileReshared_writeShares hv rfl ho d
  dom := by rw [slotAt_setSlot_same p _ (lt_length_of_live hv)]
  others _ hj := slotAt_setSlot_other p x _ hj

theorem drawsExactly_coerce (d : Domain) {p : Params} {x : List Slot} {i : Nat}
    (hv : (slotAt p x i).valid = true) :
    DrawsExactly (coerce d p x i) (coerceDraws d (slotAt p x i)) (CoercedAt p d i x) := by
  cases d
  case boolean =>
    refine (drawsExactly_toBool p x i).mono ?_
    rintro y (⟨hd, rfl⟩ | ⟨-, o, ho, rfl⟩)
    · exact ⟨fileReshared_refl p y, hd, fun _ _ => rfl⟩
    · exact coercedAt_writeShares .boolean hv ho
  case arith =>
    refine (drawsExactly_toArith p x i).mono ?_
    rintro y (⟨hd, rfl⟩ | ⟨-, o, ho, rfl⟩)
    · exact ⟨fileReshared_refl p y, hd, fun _ _ => rfl⟩
    · exact coercedAt_writeShares .arith hv ho

/-- A command that only reshares live slots, and may change their domain. -/
theorem effectOk_of_reshared {i : Instr} {s : State} {x : List Slot} (hi : mayCoerce i = true)
    (hx : FileMoves s.cfg (fun _ => Reshared s.cfg true) s.slots x) :
    EffectOk i s { slots := x, dout := s.dout } :=
  ⟨hx.mono fun _ _ h => .reshared (hi ▸ h), .inl rfl⟩

theorem runsOk_btoa (rd : SlotNo) (s : State) : RunsOk (.btoa rd) s := by
  refine ⟨_, _, rfl, fun hc => ?_⟩
  obtain ⟨-, hlive, -⟩ : _ ∧ isLive s rd.toNat = true ∧ _ := by simpa using hc
  exact (drawsExactly_bind (drawsExactly_coerce .arith hlive) fun x hx =>
    drawsExactly_pure (effectOk_of_reshared rfl hx.moves)).of_eq rfl

theorem runsOk_atob (rd : SlotNo) (s : State) : RunsOk (.atob rd) s := by
  refine ⟨_, _, rfl, fun hc => ?_⟩
  obtain ⟨-, hlive, -⟩ : _ ∧ isLive s rd.toNat = true ∧ _ := by simpa using hc
  exact (drawsExactly_bind (drawsExactly_coerce .boolean hlive) fun x hx =>
    drawsExactly_pure (effectOk_of_reshared rfl hx.moves)).of_eq rfl

/-! ## The binary gadgets (41_boolean R200, 42_arithmetic R234) -/

/-- The share function of a binary gadget, for every width. -/
abbrev ShareFunction := (w : Nat) → List (BitVec w) → List (BitVec w) → Draw (List (BitVec w))

/-- The checks of the binary gadgets. -/
def binaryChecks (s : State) (rd rs1 rs2 : SlotNo) : List (Bool × ErrCode) :=
  [(slotInRange s rd && slotInRange s rs1 && slotInRange s rs2, .illegal),
    (binaryOperandsOk s rd rs1 rs2, .domainMismatch)]

/-- The pseudocode of the binary gadgets of domain `d` with share function `F`. -/
def binaryBody (d : Domain) (F : ShareFunction) (rd rs1 rs2 : SlotNo) (s : State) :
    Draw Effect := do
  let w := widthBits (s.slot rs1.toNat).wc
  let x ← coerce d s.cfg s.slots rs1.toNat
  let x ← coerce d s.cfg x rs2.toNat
  let o ← F w (readShares (slotAt s.cfg x rs1.toNat) w) (readShares (slotAt s.cfg x rs2.toNat) w)
  pure { slots := setSlot x rd.toNat { writeShares (slotAt s.cfg x rd.toNat) o with dom := d },
         dout := s.dout }

theorem boolBinary_eq (F : ShareFunction) (rd rs1 rs2 : SlotNo) (s : State) :
    boolBinary F rd rs1 rs2 s =
      runCommand s (binaryChecks s rd rs1 rs2) (binaryBody .boolean F rd rs1 rs2 s) := rfl

theorem arithBinary_eq (F : ShareFunction) (rd rs1 rs2 : SlotNo) (s : State) :
    arithBinary F rd rs1 rs2 s =
      runCommand s (binaryChecks s rd rs1 rs2) (binaryBody .arith F rd rs1 rs2 s) := rfl

/-- The draws of coercing two sources, the second finding a repeated slot coerced (00_scope R19). -/
def bothDraws (d : Domain) (s : State) (rs1 rs2 : SlotNo) : Nat :=
  coerceDraws d (s.slot rs1.toNat) + if rs1 = rs2 then 0 else coerceDraws d (s.slot rs2.toNat)

/-- The draws left for the second source once the first is coerced. -/
theorem coerceDraws_second {d : Domain} {s : State} {rs1 rs2 : SlotNo} {x : List Slot}
    (hx : CoercedAt s.cfg d rs1.toNat s.slots x) : coerceDraws d (slotAt s.cfg x rs2.toNat) =
      if rs1 = rs2 then 0 else coerceDraws d (s.slot rs2.toNat) := by
  split
  next h => exact coerceDraws_of_dom (h ▸ hx.dom)
  next h => rw [hx.others _ (fun hn => h (BitVec.eq_of_toNat_eq hn)), slot_eq]

/-- `F` makes `n` shares from `n` and `n` shares, with `k` draws. -/
def KeepsShareCount (F : ShareFunction) (n k : Nat) : Prop :=
  ∀ (w : Nat) (a b : List (BitVec w)), a.length = n → b.length = n →
    DrawsExactly (F w a b) k fun o => o.length = n

/-- What the checks say of the three slots of a binary gadget. -/
theorem binaryOperandsOk_spec {s : State} {rd rs1 rs2 : SlotNo}
    (h : binaryOperandsOk s rd rs1 rs2 = true) :
    (s.slot rd.toNat).valid = true ∧ (s.slot rs1.toNat).valid = true ∧
    (s.slot rs2.toNat).valid = true ∧ (s.slot rs1.toNat).wc = (s.slot rd.toNat).wc ∧
    shareCount (s.slot rs1.toNat) = shareCount (s.slot rd.toNat) ∧
    shareCount (s.slot rs2.toNat) = shareCount (s.slot rd.toNat) := by
  simp only [binaryOperandsOk, isLive, Bool.and_eq_true, decide_eq_true_eq, sig_eq_iff] at h
  obtain ⟨⟨⟨⟨⟨h1, h2⟩, hd⟩, ho12, hw12⟩, ho2d, hw2d⟩, -⟩ := h
  exact ⟨hd, h1, h2, hw12.trans hw2d, by simp only [shareCount, ho12, ho2d],
    by simp only [shareCount, ho2d]⟩

theorem runsOk_binary {i : Instr} {d : Domain} {F : ShareFunction} {k : Nat}
    {rd rs1 rs2 : SlotNo} {s : State} (hi : mayCoerce i = true)
    (hexec : exec i s = runCommand s (binaryChecks s rd rs1 rs2) (binaryBody d F rd rs1 rs2 s))
    (hF : KeepsShareCount F (shareCount (s.slot rs1.toNat)) k)
    (hk : drawsOf s i = bothDraws d s rs1 rs2 + k) : RunsOk i s := by
  refine ⟨_, _, hexec, fun hc => ?_⟩
  obtain ⟨-, hops, -⟩ : _ ∧ binaryOperandsOk s rd rs1 rs2 = true ∧ _ := by
    simpa only [binaryChecks, firstFail_cons_eq_none] using hc
  obtain ⟨hvd, hv1, hv2, hwc, hn1, hn2⟩ := binaryOperandsOk_spec hops
  refine (drawsExactly_bind (drawsExactly_coerce d hv1) fun x hx => drawsExactly_bind
    ((drawsExactly_coerce d (((hx.moves.slot _).valid).trans hv2)).of_eq (coerceDraws_second hx))
    fun y hy => ?_).of_eq (j := _ + (_ + k)) (by rw [hk, bothDraws, Nat.add_assoc]; rfl)
  have hsy := fileReshared_trans hx.moves hy.moves
  refine drawsExactly_bind (k := 0) (hF _ _ _ ?_ ?_) fun o ho =>
    drawsExactly_pure (effectOk_of_reshared hi (fileReshared_trans hsy ?_))
  · rw [readShares_length, (hsy.slot _).shareCount]; rfl
  · rw [readShares_length, (hsy.slot _).shareCount]; exact hn2.trans hn1.symm
  · refine fileReshared_writeShares ((hsy.slot _).valid.trans hvd) ?_ ?_ d
    · rw [(hsy.slot _).wc, hwc]; rfl
    · rw [(hsy.slot _).shareCount, ho]; exact hn1

theorem keepsShareCount_pure {f : (w : Nat) → List (BitVec w) → List (BitVec w) → List (BitVec w)}
    (hf : ∀ w a b, (f w a b).length = min a.length b.length) (n : Nat) :
    KeepsShareCount (fun w a b => pure (f w a b)) n 0 := fun w a b ha hb =>
  drawsExactly_pure (by rw [hf, ha, hb, Nat.min_self])

theorem keepsShareCount_domAnd (n : Nat) : KeepsShareCount (fun _ a b => domAnd a b) n (pairDraws n) :=
  fun w a b ha hb => ha ▸ (drawsExactly_domAnd a b).mono fun o ho => by rw [ho, ha, hb, Nat.min_self]

/-- OR's share function (41_boolean R193). -/
def orShares {w : Nat} (a b : List (BitVec w)) : Draw (List (BitVec w)) := do
  let t ← domAnd a b
  pure (vecXor t (vecXor a b))

theorem keepsShareCount_orShares (n : Nat) :
    KeepsShareCount (fun _ a b => orShares a b) n (pairDraws n) := fun w a b ha hb =>
  drawsExactly_bind (k := 0) (keepsShareCount_domAnd n w a b ha hb) fun t ht =>
    drawsExactly_pure (by simp [ht, ha, hb])

theorem keepsShareCount_domMult (n : Nat) :
    KeepsShareCount (fun _ a b => domMult a b) n (pairDraws n + (n - 1)) := fun _ a b ha hb =>
  ha ▸ drawsExactly_domMult a b (ha.trans hb.symm)

/-! ## The unary Boolean gadgets (41_boolean R200) -/

theorem runsOk_unary {i : Instr} {G : (w : Nat) → List (BitVec w) → List (BitVec w)} {rd : SlotNo}
    {s : State} (hi : mayCoerce i = true) (hexec : exec i s = boolUnary G rd s)
    (hG : ∀ w a, (G w a).length = a.length) (hk : drawsOf s i = toBoolDraws (s.slot rd.toNat)) :
    RunsOk i s := by
  refine ⟨_, _, hexec, fun hc => ?_⟩
  obtain ⟨-, ⟨hlive, -⟩, -⟩ : _ ∧ (isLive s rd.toNat = true ∧ _) ∧ _ := by
    simpa [unaryOperandOk] using hc
  refine (drawsExactly_bind (drawsExactly_coerce .boolean hlive) fun x hx => drawsExactly_pure
    (effectOk_of_reshared hi (fileReshared_trans hx.moves ?_))).of_eq hk.symm
  refine fileReshared_writeShares ((hx.moves.slot _).valid.trans hlive) ?_ ?_ .boolean
  · rw [(hx.moves.slot _).wc]; rfl
  · rw [hG, readShares_length]

/-- A unary gadget that works share by share. -/
theorem runsOk_map {i : Instr} {rd : SlotNo} {s : State} (g : (w : Nat) → BitVec w → BitVec w)
    (hi : mayCoerce i = true) (hexec : exec i s = boolUnary (fun w a => a.map (g w)) rd s)
    (hk : drawsOf s i = toBoolDraws (s.slot rd.toNat)) : RunsOk i s :=
  runsOk_unary hi hexec (fun _ _ => List.length_map _) hk

/-! ## The width converters (44_width) -/

/-- File `y` is file `x` with slots below `i + k` coerced, and no slot from `i + k` on touched. -/
structure CoercedRange (p : Params) (i k : Nat) (x y : List Slot) : Prop where
  moves : FileMoves p (fun _ => Reshared p true) x y
  above : ∀ j, i + k ≤ j → slotAt p y j = slotAt p x j

theorem toBoolRange_succ (p : Params) (x : List Slot) (i k : Nat) :
    toBoolRange p x i (k + 1) = toBoolRange p x i k >>= fun y => toBool p y (i + k) := by
  simp [toBoolRange, List.range_succ, List.foldlM_append]

theorem drawsExactly_toBoolRange {p : Params} {x : List Slot} {i k : Nat}
    (hv : ∀ j < k, (slotAt p x (i + j)).valid = true) :
    DrawsExactly (toBoolRange p x i k)
      ((List.range k).map fun j => toBoolDraws (slotAt p x (i + j))).sum (CoercedRange p i k x) := by
  induction k with
  | zero => exact drawsExactly_pure ⟨fileReshared_refl p x, fun _ _ => rfl⟩
  | succ k ih =>
    rw [toBoolRange_succ]
    refine (drawsExactly_bind (ih fun j hj => hv j (by omega)) fun y hy =>
      ((drawsExactly_coerce .boolean (i := i + k) (x := y) ?_).of_eq ?_).mono fun z hz => ?_).of_eq
      (j := _ + toBoolDraws (slotAt p x (i + k))) (by simp [List.range_succ])
    · rw [hy.above _ le_rfl]; exact hv k (by omega)
    · rw [hy.above _ le_rfl]; rfl
    · exact ⟨fileReshared_trans hy.moves hz.moves, fun j hj =>
        (hz.others j (by omega)).trans (hy.above j (by omega))⟩

theorem allCompatible_live {s : State} {i k : Nat} (h : allCompatible s i k = true) :
    ∀ j < k, (s.slot (i + j)).valid = true := by
  simp only [allCompatible, List.all_eq_true, List.mem_range, Bool.and_eq_true, isLive] at h
  exact fun j hj => (h j hj).1

theorem runsOk_towide (rd rs1 : SlotNo) (wc : Width) (s : State) : RunsOk (.towide rd rs1 wc) s := by
  refine ⟨_, _, rfl, fun hc => ?_⟩
  simp only [firstFail_cons_eq_none, Bool.not_eq_true'] at hc
  obtain ⟨-, hlive, -, -, hcompat, hfree, -⟩ := hc
  refine (drawsExactly_bind (drawsExactly_toBoolRange (allCompatible_live hcompat)) fun x hx =>
    drawsExactly_pure ⟨fileMoves_of_reshared_new hx.moves
      (New := fun i r => i = rd.toNat ∧ r = _) (fileMoves_setSlot (fun _ _ => .inl rfl)
        (.inr ⟨rfl, rfl⟩)) ?_, .inl rfl⟩).of_eq rfl
  rintro i r ⟨rfl, rfl⟩
  refine ⟨hfree, rfl, fun hok => ?_⟩
  have hsrc := liveOk_of_live hlive hok
  exact liveOk_newSlot _ hsrc.ord_pos hsrc.ord_le le_rfl (by simp [wideShares, shareCount])

theorem runsOk_tonarrow (rd rs1 : SlotNo) (wc : Width) (s : State) :
    RunsOk (.tonarrow rd rs1 wc) s := by
  refine ⟨_, _, rfl, fun hc => ?_⟩
  simp only [firstFail_cons_eq_none, Bool.and_eq_true] at hc
  obtain ⟨-, hlive, -, ⟨-, hfree⟩, -⟩ := hc
  refine (drawsExactly_bind (drawsExactly_coerce .boolean hlive) fun x hx =>
    drawsExactly_pure ⟨fileMoves_of_reshared_new hx.moves
      (New := fun i r => (s.slot i).valid = false ∧ ∃ o : List (BitVec (widthBits wc)),
        o.length = shareCount (s.slot rs1.toNat) ∧
        r = newSlot s.cfg .boolean (s.slot rs1.toNat).ord wc o)
      (fileMoves_foldl_new (fun y j hj => fileMoves_setSlot (fun _ _ => .inl rfl) (.inr ?_)) x) ?_,
      .inl rfl⟩).of_eq rfl
  · have hsrc := hx.moves.slot rs1.toNat
    refine ⟨allFree_iff.1 hfree j (List.mem_range.1 hj), _, ?_, by rw [hsrc.ord]; rfl⟩
    rw [List.length_map, readShares_length, hsrc.shareCount]; rfl
  · rintro i r ⟨hi, o, ho, rfl⟩
    refine ⟨hi, rfl, fun hok => ?_⟩
    have hsrc := liveOk_of_live hlive hok
    exact liveOk_newSlot _ hsrc.ord_pos hsrc.ord_le le_rfl ho.le

/-! ## Every command -/

theorem runsOk (i : Instr) (s : State) : RunsOk i s := by
  cases i with
  | nop => exact runsOk_nop s
  | alloc rd dom ord wc => exact runsOk_alloc rd dom ord wc s
  | mask rd dom ord wc => exact runsOk_mask rd dom ord wc s
  | unmask rd => exact runsOk_unmask rd s
  | refresh rd => exact runsOk_refresh rd s
  | clone rd rs1 zero => exact runsOk_clone rd rs1 zero s
  | free rd => exact runsOk_free rd s
  | allocm rd cnt dom ord wc => exact runsOk_allocm rd cnt dom ord wc s
  | freem rd cnt => exact runsOk_freem rd cnt s
  | info rd => exact runsOk_info rd s
  | xor rd rs1 rs2 =>
    exact runsOk_binary rfl (boolBinary_eq (fun _ a b => pure (vecXor a b)) rd rs1 rs2 s)
      (keepsShareCount_pure (fun _ => vecXor_length) _) rfl
  | and rd rs1 rs2 =>
    exact runsOk_binary rfl (boolBinary_eq (fun _ a b => domAnd a b) rd rs1 rs2 s)
      (keepsShareCount_domAnd _) rfl
  | or rd rs1 rs2 =>
    exact runsOk_binary rfl (boolBinary_eq (fun _ a b => orShares a b) rd rs1 rs2 s)
      (keepsShareCount_orShares _) rfl
  | not rd =>
    exact runsOk_unary (G := fun _ a => updateShare a 0 (~~~ ·)) rfl rfl
      (fun _ _ => updateShare_length _ _ _) rfl
  | shr rd k => exact runsOk_map (fun _ => (· >>> shiftCount k _)) rfl rfl rfl
  | shl rd k => exact runsOk_map (fun _ => (· <<< shiftCount k _)) rfl rfl rfl
  | rotr rd k => exact runsOk_map (fun w => rotr (shiftCount k w)) rfl rfl rfl
  | rotl rd k => exact runsOk_map (fun w => rotl (shiftCount k w)) rfl rfl rfl
  | add rd rs1 rs2 =>
    exact runsOk_binary rfl (arithBinary_eq (fun _ a b => pure (vecAdd a b)) rd rs1 rs2 s)
      (keepsShareCount_pure (fun _ => vecAdd_length) _) rfl
  | sub rd rs1 rs2 =>
    exact runsOk_binary rfl (arithBinary_eq (fun _ a b => pure (vecSub a b)) rd rs1 rs2 s)
      (keepsShareCount_pure (fun _ => vecSub_length) _) rfl
  | mult rd rs1 rs2 =>
    exact runsOk_binary rfl (arithBinary_eq (fun _ a b => domMult a b) rd rs1 rs2 s)
      (keepsShareCount_domMult _) (Nat.add_assoc _ _ _)
  | btoa rd => exact runsOk_btoa rd s
  | atob rd => exact runsOk_atob rd s
  | towide rd rs1 wc => exact runsOk_towide rd rs1 wc s
  | tonarrow rd rs1 wc => exact runsOk_tonarrow rd rs1 wc s

end Sys2Proof.Machine

/-! PROOF. The statements about commands and steps, from the one inversion of `exec` (60_exceptions R327,
R329, 70_reset R371, R374). -/

namespace Sys2Proof.Machine

/-- What a command can do: fail with a code, wait for an answer, meet the fatal event, or complete with
an effect of `EffectOk`. The answers left are the last of those there were. -/
theorem exec_next_cases {i : Instr} {s t : State} (h : exec i s = .next t) :
    (∃ e, t = failWith s e) ∨ t = s ∨
    (∃ rest, rest <:+ s.env.answers ∧ t = fatalEvent s rest) ∨
    ∃ e p, EffectOk i s e ∧ p.answers <:+ s.env.answers ∧ t = commit s e p := by
  obtain ⟨cs, b, hexec, hbody⟩ := runsOk i s
  rw [hexec] at h
  cases hc : firstFail cs with
  | some e =>
    rw [runCommand_of_fail b hc] at h
    exact .inl ⟨e, (Host.Outcome.next.inj h).symm⟩
  | none =>
    rcases runCommand_of_draws hc (hbody hc) with ⟨e, ws, rest, he, hl, -, hrun⟩ | ⟨ws, -, -, hrun⟩ |
      ⟨ws, rest, hl, -, hrun⟩
    all_goals
      rw [hrun] at h
      cases h
    · exact .inr (.inr (.inr ⟨e, _, he, ⟨_, hl.symm⟩, rfl⟩))
    · exact .inr (.inl rfl)
    · exact .inr (.inr (.inl ⟨rest, ⟨ws.map .word ++ [.fail], by simp [hl]⟩, rfl⟩))

@[simp] theorem slot_fatalEvent (s : State) (rest : List Answer) (j : Nat) :
    (fatalEvent s rest).slot j = Slot.free s.cfg := by
  simp [slot_eq]

/-! ## What commands leave -/

/-- Settles O20, on each of the four ways a command can go. -/
theorem commandsLeaveHostRegisters : Obligations.CommandsLeaveHostRegisters := by
  intro i s t h
  rcases exec_next_cases h with ⟨e, rfl⟩ | rfl | ⟨rest, hrest, rfl⟩ | ⟨e, p, -, hp, rfl⟩
  · simp
  · simp
  · simpa using hrest
  · simpa using hp

/-- Settles O21: only a completion writes DOUT, and `EffectOk` says which. -/
theorem doutWrittenOnlyByUnmaskAndInfo : Obligations.DoutWrittenOnlyByUnmaskAndInfo := by
  intro i s t h hne
  rcases exec_next_cases h with ⟨e, rfl⟩ | rfl | ⟨rest, -, rfl⟩ | ⟨e, p, he, -, rfl⟩
  · exact absurd rfl hne
  · exact absurd rfl hne
  · exact absurd rfl hne
  · exact he.dout.resolve_left hne

/-- Settles O22: a slot live on both sides was kept or reshared. -/
theorem liveSlotsKeepShape : Obligations.LiveSlotsKeepShape := by
  intro i s t j h hs ht
  have hunchanged : t.slot j = s.slot j → (t.slot j).wc = (s.slot j).wc ∧
      (t.slot j).ord = (s.slot j).ord ∧ (mayCoerce i = false → (t.slot j).dom = (s.slot j).dom) :=
    fun h => by simp [h]
  have hshape : (t.slot j).wc = (s.slot j).wc ∧ (t.slot j).ord = (s.slot j).ord ∧
      (mayCoerce i = false → (t.slot j).dom = (s.slot j).dom) := by
    rcases exec_next_cases h with ⟨e, rfl⟩ | rfl | ⟨rest, -, rfl⟩ | ⟨e, p, he, -, rfl⟩
    · exact hunchanged rfl
    · exact hunchanged rfl
    · simp at ht
    · exact (he.slots.slot j).shape hs ht
  obtain ⟨hwc, hord, hdom⟩ := hshape
  exact ⟨hwc, hord, fun hne => by_contra fun hi => hne (hdom (decide_eq_false hi))⟩

/-! ## CONFIG -/

theorem exec_cfg {i : Instr} {s t : State} (h : exec i s = .next t) : t.cfg = s.cfg := by
  obtain ⟨-, -, -, hcfg, -⟩ := commandsLeaveHostRegisters i s t h
  exact hcfg

@[simp] theorem writeReg_cfg (s : State) (r : WindowReg) (v : Word) : (writeReg s r v).cfg = s.cfg := by
  rcases writeReg_cases s r v with h | ⟨b, h⟩ | h | ⟨-, -, h⟩ <;> rw [h]

/-- The parameters are constant (10_state R44). -/
theorem step_cfg {s t : State} (h : step s = .next t) : t.cfg = s.cfg := by
  rcases step_next_cases h with ⟨-, h⟩ | ⟨-, h⟩ | ⟨a, -, rfl⟩ | ⟨-, rfl⟩
  · rcases hostTurn_next_cases h with rfl | ⟨_, -, -, rfl⟩ | ⟨_, _, _, -, -, rfl⟩ |
      ⟨_, _, _, _, -, -, -, rfl⟩ <;> simp
  · rcases datapathTurn_cases (dropTurn s) with ⟨-, hd⟩ | ⟨_, _, -, -, hd⟩ | ⟨_, _, -, -, hd⟩
    · rw [hd] at h; cases h; rfl
    · rw [hd] at h; cases h; rfl
    · rw [hd] at h; exact (exec_cfg h).trans (dropTurn_cfg s)
  · rfl
  · rfl

/-- Settles O30: the parameters fit their fields, and no step changes them. -/
theorem configRegisterFields : Obligations.ConfigRegisterFields := by
  intro s hok
  obtain ⟨hmax, hnmv, hlow, hhigh⟩ := config_fields s
  simp only [Params.ok, Bool.and_eq_true, decide_eq_true_eq] at hok
  refine ⟨?_, ?_, hlow, hhigh, fun t h => by rw [State.config, State.config, step_cfg h]⟩
  · rw [hmax, BitVec.toNat_ofNat]; omega
  · rw [hnmv, BitVec.toNat_ofNat]; omega

/-! ## The invariant -/

/-- A state with nothing pending meets the invariant if its file does. -/
theorem inv_of_idle {s : State} (hcfg : s.cfg.ok = true) (hlen : s.slots.length = s.cfg.nmv)
    (hok : ∀ i, Slot.ok s.cfg (s.slot i) = true) (hidle : s.pending = none)
    (hfatal : s.fatal = true → s.slots.all (fun r => decide (r = Slot.free s.cfg)) = true) : s.Inv :=
  ⟨hcfg, hlen, (all_ok_iff _ _).2 hok, by simp [pendingOk, hidle], hfatal⟩

/-- The invariant looks at five fields. -/
theorem State.Inv.congr {s t : State} (h : s.Inv) (hcfg : t.cfg = s.cfg) (hslots : t.slots = s.slots)
    (hfatal : t.fatal = s.fatal) (hpending : t.pending = s.pending) (hlast : t.lastCmd = s.lastCmd) :
    t.Inv := by
  simpa only [State.Inv, pendingOk, hcfg, hslots, hfatal, hpending, hlast] using h

theorem State.Inv.slot_ok {s : State} (h : s.Inv) (i : Nat) : Slot.ok s.cfg (s.slot i) = true := by
  obtain ⟨-, -, hok, -, -⟩ := h
  exact (all_ok_iff _ _).1 hok i

theorem State.Inv.not_fatal {s : State} (h : s.Inv) {q : Pending} (hq : s.pending = some q) :
    s.fatal = false := by
  obtain ⟨-, -, -, hpend, -⟩ := h
  simp only [pendingOk, hq, Bool.and_eq_true, Bool.not_eq_true'] at hpend
  exact hpend.2

/-- A file of free slots meets the slot clauses. -/
theorem inv_of_free {s : State} (hcfg : s.cfg.ok = true)
    (hslots : s.slots = List.replicate s.cfg.nmv (Slot.free s.cfg)) (hidle : s.pending = none) :
    s.Inv := by
  refine inv_of_idle hcfg (by simp [hslots]) (fun i => ?_) hidle (fun _ => by simp [hslots])
  rw [slot_eq, hslots, slotAt_replicate_free]
  exact slot_ok_free s.cfg

/-- Settles O10: reset leaves a file of free slots. -/
theorem invariantAfterReset : Obligations.InvariantAfterReset :=
  ⟨fun _ hp => inv_of_free hp rfl rfl, inv_of_free (by decide) rfl rfl⟩

theorem inv_failWith {s : State} (h : s.Inv) (e : ErrCode) : (failWith s e).Inv := by
  have hok := h.slot_ok
  obtain ⟨hcfg, hlen, -, -, hfatal⟩ := h
  exact inv_of_idle hcfg hlen hok rfl hfatal

theorem inv_fatalEvent {s : State} (h : s.Inv) (rest : List Answer) : (fatalEvent s rest).Inv := by
  obtain ⟨hcfg, hlen, -, -, -⟩ := h
  exact inv_of_free hcfg (by simp [hlen]) rfl

theorem inv_commit {i : Instr} {s : State} {e : Effect} (h : s.Inv) (hfatal : s.fatal = false)
    (he : EffectOk i s e) (p : Port) : (commit s e p).Inv := by
  have hok := h.slot_ok
  obtain ⟨hcfg, hlen, -, -, -⟩ := h
  exact inv_of_idle hcfg (he.slots.length.trans hlen) (fun j => (he.slots.slot j).ok hok (hok j)) rfl
    (by simp [hfatal])

theorem exec_keeps_inv {i : Instr} {s t : State} (h : s.Inv) (hfatal : s.fatal = false)
    (hexec : exec i s = .next t) : t.Inv := by
  rcases exec_next_cases hexec with ⟨e, rfl⟩ | rfl | ⟨rest, -, rfl⟩ | ⟨e, p, he, -, rfl⟩
  · exact inv_failWith h e
  · exact h
  · exact inv_fatalEvent h rest
  · exact inv_commit h hfatal he p

theorem datapathTurn_keeps_inv {s t : State} (h : s.Inv) (hturn : datapathTurn s = .next t) :
    t.Inv := by
  rcases datapathTurn_cases s with ⟨-, hd⟩ | ⟨_, _, -, -, hd⟩ | ⟨q, i, hq, -, hd⟩ <;> rw [hd] at hturn
  · cases hturn; exact h
  · cases hturn; exact inv_failWith h .illegal
  · exact exec_keeps_inv h (h.not_fatal hq) hturn

/-- A write to a register: only an accepted command touches what the invariant looks at, and it is
accepted with FATAL = 0 only (70_reset R375). -/
theorem writeReg_keeps_inv {s : State} (h : s.Inv) (r : WindowReg) (v : Word) : (writeReg s r v).Inv := by
  rcases writeReg_cases s r v with hw | ⟨b, hw⟩ | hw | ⟨hfatal, -, hw⟩ <;> rw [hw]
  · exact h
  · exact h.congr rfl rfl rfl rfl rfl
  · exact h.congr rfl rfl rfl rfl rfl
  · obtain ⟨hcfg, hlen, hok, -, hfree⟩ := h
    exact ⟨hcfg, hlen, hok, by simp [pendingOk, hfatal], hfree⟩

theorem hostTurn_keeps_inv {s t : State} (h : s.Inv) (hturn : hostTurn s = .next t) : t.Inv := by
  rcases hostTurn_next_cases hturn with rfl | ⟨_, -, -, rfl⟩ | ⟨_, _, _, -, -, rfl⟩ |
    ⟨_, bytes, r, _, -, -, -, rfl⟩
  · exact h
  · exact h.congr rfl rfl rfl rfl rfl
  · exact h.congr rfl rfl rfl rfl rfl
  · refine writeReg_keeps_inv (State.Inv.congr h ?_ ?_ ?_ ?_ ?_) r (wordOf bytes) <;> rfl

/-- Settles O11, turn by turn. -/
theorem everyStepKeepsInvariant : Obligations.EveryStepKeepsInvariant := by
  intro s t h hstep
  have hdrop : (dropTurn s).Inv := h.congr rfl rfl rfl rfl rfl
  rcases step_next_cases hstep with ⟨-, hturn⟩ | ⟨-, hturn⟩ | ⟨a, -, rfl⟩ | ⟨-, rfl⟩
  · exact hostTurn_keeps_inv hdrop hturn
  · exact datapathTurn_keeps_inv hdrop hturn
  · exact hdrop.congr rfl rfl rfl rfl rfl
  · exact inv_of_free h.1 rfl rfl

end Sys2Proof.Machine

/-! PROOF. The host register window (20_memory R80 to R87): its bytes, which accesses it allows, where
alone the machine stops, what an allowed access does, and what a pending command hides. -/

namespace Sys2Proof.Machine

/-! ## Bytes -/

/-- The bytes of a register spell it back (20_memory R83): each append joins neighbouring slices. -/
theorem wordOf_bytesOf (v : Word) : wordOf (bytesOf v) = v := by
  show v.extractLsb' 56 8 ++ v.extractLsb' 48 8 ++ v.extractLsb' 40 8 ++ v.extractLsb' 32 8 ++
    v.extractLsb' 24 8 ++ v.extractLsb' 16 8 ++ v.extractLsb' 8 8 ++ v.extractLsb' 0 8 = v
  iterate 7 rw [BitVec.extractLsb'_append_extractLsb'_eq_extractLsb' (by rfl)]
  exact BitVec.extractLsb'_eq_self

/-- Settles O28: byte `k` is that slice by definition, and the slices join to the register. -/
theorem windowBytesLittleEndian : Obligations.WindowBytesLittleEndian := fun v =>
  ⟨by simp [bytesOf], fun k hk => by simp [bytesOf, hk], wordOf_bytesOf v⟩

/-! ## Which accesses are allowed -/

/-- The map of 20_memory R81 has a register at every eighth byte below 0x38. -/
theorem regAt_eq_none_iff (off : Nat) : regAt off = none ↔ ¬ (off % 8 = 0 ∧ off < 0x38) := by
  unfold regAt
  split
  case h_8 =>
    simp only [imp_false, not_and, Nat.not_lt, true_iff] at *
    omega
  all_goals simp

theorem accessed_eq_none_iff (off width : Nat) :
    accessed off width = none ↔ ¬ AccessAllowed off width := by
  by_cases hw : width = 8
  · simp only [accessed, AccessAllowed, hw, if_true, true_and, regAt_eq_none_iff]
  · simp [accessed, AccessAllowed, hw]

theorem hostRead_eq_fault_iff (s : State) (off width : Nat) (f : Fault) :
    hostRead s off width = .fault f ↔ ¬ AccessAllowed off width ∧ f = .hostStuck off width := by
  rw [← accessed_eq_none_iff, hostRead]
  cases accessed off width <;> simp [eq_comm]

theorem hostWrite_eq_fault_iff (s : State) (off : Nat) (bytes : List Byte) (f : Fault) :
    hostWrite s off bytes = .fault f ↔
      ¬ AccessAllowed off bytes.length ∧ f = .hostStuck off bytes.length := by
  rw [← accessed_eq_none_iff, hostWrite]
  cases accessed off bytes.length <;> simp [eq_comm]

theorem hostRead_ne_refused (s : State) (off width : Nat) (r : Refusal) :
    hostRead s off width ≠ .refused r := by
  rw [hostRead]
  cases accessed off width <;> simp

theorem hostWrite_ne_refused (s : State) (off : Nat) (bytes : List Byte) (r : Refusal) :
    hostWrite s off bytes ≠ .refused r := by
  rw [hostWrite]
  cases accessed off bytes.length <;> simp

/-! ## The only stop -/

/-- The host's next access is one that the window refuses (20_memory R82, R85), and `f` names it. -/
def RefusedAccess (s : State) (f : Fault) : Prop :=
  ∃ off width, f = .hostStuck off width ∧ ¬ AccessAllowed off width ∧
    ((∃ ops, s.env.host = .read off width :: ops) ∨
     (∃ bytes ops, s.env.host = .write off bytes :: ops ∧ bytes.length = width))

theorem hostTurn_eq_fault_iff (s : State) (f : Fault) :
    hostTurn s = .fault f ↔ RefusedAccess s f := by
  rw [hostTurn, RefusedAccess]
  cases hh : s.env.host with
  | nil => simp
  | cons op ops =>
    cases op with
    | read off width =>
      rw [hostRead_eq_fault_iff]
      constructor
      · rintro ⟨hoff, rfl⟩
        exact ⟨off, width, rfl, hoff, .inl ⟨ops, rfl⟩⟩
      · rintro ⟨_, _, rfl, hoff, ⟨_, ⟨⟩⟩ | ⟨_, _, ⟨⟩, -⟩⟩
        exact ⟨hoff, rfl⟩
    | write off bytes =>
      rw [hostWrite_eq_fault_iff]
      constructor
      · rintro ⟨hoff, rfl⟩
        exact ⟨off, _, rfl, hoff, .inr ⟨bytes, ops, rfl, rfl⟩⟩
      · rintro ⟨_, _, rfl, hoff, ⟨_, ⟨⟩⟩ | ⟨_, _, ⟨⟩, rfl⟩⟩
        exact ⟨hoff, rfl⟩
    | wait => cases hb : s.busy <;> simp

theorem hostTurn_ne_refused (s : State) (r : Refusal) : hostTurn s ≠ .refused r := by
  rw [hostTurn]
  split
  · simp
  · exact hostRead_ne_refused _ _ _ r
  · exact hostWrite_ne_refused _ _ _ r
  · split <;> simp

theorem exec_next (i : Instr) (s : State) : ∃ t, exec i s = .next t := by
  obtain ⟨cs, b, hexec⟩ := exec_eq_runCommand i s
  rw [hexec]
  exact runCommand_next s cs b

theorem datapathTurn_next (s : State) : ∃ t, datapathTurn s = .next t := by
  rcases datapathTurn_cases s with ⟨-, h⟩ | ⟨_, _, -, -, h⟩ | ⟨_, i, -, -, h⟩
  · exact ⟨_, h⟩
  · exact ⟨_, h⟩
  · rw [h]
    exact exec_next i s

theorem step_of_host {s : State} (h : nextTurn s = .host) : step s = hostTurn (dropTurn s) := by
  rw [step, h, takeTurn]

theorem step_next_of_not_host {s : State} (h : nextTurn s ≠ .host) : ∃ t, step s = .next t := by
  rw [step]
  cases hn : nextTurn s with
  | host => exact absurd hn h
  | datapath => exact datapathTurn_next _
  | entropy a => exact ⟨_, rfl⟩
  | reset => exact ⟨_, rfl⟩

/-- Settles O13: only the host's turn can stop, and it stops at a refused access alone. -/
theorem stopsExactlyOnRefusedAccess : Obligations.StopsExactlyOnRefusedAccess := by
  intro s
  by_cases hn : nextTurn s = .host
  · rw [step_of_host hn]
    refine ⟨hostTurn_ne_refused _, fun f => ?_⟩
    rw [hostTurn_eq_fault_iff]
    exact (and_iff_right hn).symm
  · obtain ⟨t, ht⟩ := step_next_of_not_host hn
    simp [ht, hn]

/-! ## What an allowed access does -/

theorem hostTurn_read {s : State} {off : Nat} {r : WindowReg} {ops : List HostOp}
    (hh : s.env.host = .read off 8 :: ops) (hr : regAt off = some r) :
    hostTurn s = .next { s with
      env := { s.env with host := ops, reads := (off, bytesOf (readReg s r)) :: s.env.reads } } := by
  simp only [hostTurn, hh, hostRead, accessed, if_true, hr]
  cases r <;> rfl

theorem hostTurn_write {s : State} {off : Nat} {bytes : List Byte} {r : WindowReg}
    {ops : List HostOp} (hh : s.env.host = .write off bytes :: ops) (hlen : bytes.length = 8)
    (hr : regAt off = some r) :
    hostTurn s = .next (writeReg { s with env := { s.env with host := ops } } r (wordOf bytes)) := by
  simp only [hostTurn, hh, hostWrite, accessed, hlen, if_true, hr]

theorem step_write {s : State} {off : Nat} {bytes : List Byte} {r : WindowReg} {ops : List HostOp}
    (hn : nextTurn s = .host) (hh : s.env.host = .write off bytes :: ops) (hlen : bytes.length = 8)
    (hr : regAt off = some r) :
    step s = .next (writeReg (afterHostOp s ops) r (wordOf bytes)) :=
  (step_of_host hn).trans (hostTurn_write hh hlen hr)

/-- The column "host read returns" of 20_memory R81. -/
theorem readReg_of_row {s : State} {off : Nat} {v : Word}
    (h : (off, v) ∈ [(0x00, 0#32 ++ s.lastCmd), (0x08, s.status), (0x10, s.din), (0x18, s.dout),
      (0x20, s.rcnt), (0x28, s.ccnt), (0x30, s.config)]) :
    ∃ r, regAt off = some r ∧ readReg s r = v := by
  simp only [List.mem_cons, Prod.mk.injEq, List.not_mem_nil, or_false] at h
  rcases h with ⟨rfl, rfl⟩ | ⟨rfl, rfl⟩ | ⟨rfl, rfl⟩ | ⟨rfl, rfl⟩ | ⟨rfl, rfl⟩ | ⟨rfl, rfl⟩ |
    ⟨rfl, rfl⟩ <;> exact ⟨_, rfl, rfl⟩

/-- Settles O26: the register of the offset is read before and after the schedule advances alike. -/
theorem hostReadReturnsRegister : Obligations.HostReadReturnsRegister := by
  intro s off v ops hn hh hrow
  obtain ⟨r, hr, rfl⟩ := readReg_of_row hrow
  refine (step_of_host hn).trans ((hostTurn_read (s := dropTurn s) hh hr).trans ?_)
  cases r <;> rfl

/-- The read-only registers (20_memory R85). -/
theorem writeReg_of_readOnly {off : Nat} (h : off ∈ [0x18, 0x20, 0x28, 0x30]) :
    ∃ r, regAt off = some r ∧ ∀ s v, writeReg s r v = s := by
  simp only [List.mem_cons, List.not_mem_nil, or_false] at h
  rcases h with rfl | rfl | rfl | rfl <;> exact ⟨_, rfl, fun _ _ => rfl⟩

theorem writeReg_status (s : State) (v : Word) :
    writeReg s .status v = { s with ovr := s.ovr && !v.getLsbD 1 } := by
  rw [writeReg]
  cases v.getLsbD 1 <;> simp

/-- Settles O27, register by register. -/
theorem hostWriteEffects : Obligations.HostWriteEffects := by
  intro s off bytes ops hn hh hlen
  refine ⟨?_, ?_, fun hoff => ?_⟩
  · rintro rfl
    rw [step_write hn hh hlen rfl, writeReg_status]
    rfl
  · rintro rfl
    exact step_write hn hh hlen rfl
  · obtain ⟨r, hr, hkept⟩ := writeReg_of_readOnly hoff
    rw [step_write hn hh hlen hr, hkept]

/-! ## What a pending command hides -/

/-- What a command writes at its completion, DOUT, RCNT, CCNT, ERR and the slot file, is the same in
`t` as in `s` (20_memory R86). -/
def EffectsHidden (s t : State) : Prop :=
  t.dout = s.dout ∧ t.rcnt = s.rcnt ∧ t.ccnt = s.ccnt ∧ t.err = s.err ∧ t.slots = s.slots

theorem writeReg_effectsHidden (s : State) (r : WindowReg) (v : Word) :
    EffectsHidden s (writeReg s r v) := by
  rcases writeReg_cases s r v with h | ⟨b, h⟩ | h | ⟨-, -, h⟩ <;> rw [h] <;> simp [EffectsHidden]

theorem hostTurn_effectsHidden {s t : State} (h : hostTurn s = .next t) : EffectsHidden s t := by
  rcases hostTurn_next_cases h with rfl | ⟨_, -, -, rfl⟩ | ⟨_, _, _, -, -, rfl⟩ |
    ⟨_, bytes, r, _, -, -, -, rfl⟩
  · simp [EffectsHidden]
  · simp [EffectsHidden]
  · simp [EffectsHidden]
  · exact writeReg_effectsHidden _ r (wordOf bytes)

/-- Every end of a command clears the pending command, so one that stays pending did nothing. -/
theorem exec_eq_of_pending {i : Instr} {s t : State} {q : Pending} (h : exec i s = .next t)
    (hq : t.pending = some q) : t = s := by
  rcases exec_next_cases h with ⟨_, rfl⟩ | rfl | ⟨_, -, rfl⟩ | ⟨_, _, -, -, rfl⟩
  · simp at hq
  · rfl
  · simp at hq
  · simp at hq

theorem datapathTurn_eq_of_pending {s t : State} {q : Pending} (h : datapathTurn s = .next t)
    (hq : t.pending = some q) : t = s := by
  rcases datapathTurn_cases s with ⟨-, hd⟩ | ⟨_, _, -, -, hd⟩ | ⟨_, i, -, -, hd⟩ <;> rw [hd] at h
  · cases h; rfl
  · cases h; simp at hq
  · exact exec_eq_of_pending h hq

/-- Settles O23, turn by turn: reset clears the pending command, and no other turn touches what it
hides. -/
theorem pendingCommandHidesItsEffects : Obligations.PendingCommandHidesItsEffects := by
  intro s t q _ hstep hq
  rcases step_next_cases hstep with ⟨-, h⟩ | ⟨-, h⟩ | ⟨a, -, rfl⟩ | ⟨-, rfl⟩
  · exact hostTurn_effectsHidden (s := dropTurn s) h
  · rw [datapathTurn_eq_of_pending h hq]
    simp
  · simp
  · simp at hq

end Sys2Proof.Machine
/-! PROOF. The checks of every command against the tables of 60_exceptions R322 to R325, the draws it
makes once they pass, and the wait of 20_memory R91. -/

namespace Sys2Proof.Machine

/-! ## Checks and causes -/

theorem firstFail_cons (c : Bool) (e : ErrCode) (cs : List (Bool × ErrCode)) :
    firstFail ((c, e) :: cs) = bif c then firstFail cs else some e :=
  (cond_eq_ite c _ _).symm

/-- Two checks in a row that report the same are one check. -/
theorem cond_and {α : Type} (a b : Bool) (x y : α) :
    (bif a && b then x else y) = bif a then (bif b then x else y) else y := by
  cases a <;> rfl

/-- The causes as a list of checks, in the order of 60_exceptions R328. -/
theorem errorOf_eq_firstFail (s : State) (i : Instr) :
    errorOf s i = firstFail [(i.wellFormed s.cfg, .illegal), (!invalidOrderCause s i, .invalidOrder),
      (!domainMismatchCause s i, .domainMismatch), (!allocationCause s i, .allocation)] := by
  simp only [errorOf, firstFail_cons, cond_eq_ite, Bool.not_eq_true', ← Bool.not_eq_true, ite_not]
  rfl

theorem slotInRange_eq (s : State) (r : SlotNo) : slotInRange s r = slotExists s.cfg r := rfl

theorem batchInRange_eq (s : State) (rd : SlotNo) (cnt : BitVec 5) :
    batchInRange s rd cnt = batchExists s.cfg rd cnt := rfl

theorem isLive_eq (s : State) (r : SlotNo) : isLive s r.toNat = liveSlot s r := rfl

theorem orderOk_eq_not_badOrder (s : State) (ord : BitVec 4) : orderOk s ord = !badOrder s ord := by
  rw [Bool.eq_iff_iff]
  simp [orderOk, badOrder, ← BitVec.toNat_inj]
  omega

theorem countOk_eq (cnt : BitVec 5) : countOk cnt = !decide (cnt.toNat < 2) := by
  simp only [countOk, ← decide_not, Nat.not_lt]

theorem allFree_eq_not_any (s : State) (i k : Nat) :
    allFree s i k = !(List.range k).any fun j => (s.slot (i + j)).valid := by
  simp [allFree, isLive, List.not_any_eq_all_not]

theorem decide_sig_eq (a b : Slot) : decide (sig a = sig b) = sameSig a b := by
  rw [sameSig, ← Bool.decide_and, decide_eq_decide]
  exact sig_eq_iff a b

/-- The check compares `rs1` with `rs2` and `rs2` with `rd`, the table `rs1` with both. -/
theorem binaryOperandsOk_eq_not_binaryMismatch (s : State) (rd rs1 rs2 : SlotNo) :
    binaryOperandsOk s rd rs1 rs2 = !binaryMismatch s rd rs1 rs2 := by
  rw [Bool.eq_iff_iff]
  simp only [binaryOperandsOk, binaryMismatch, isLive, liveSlot, hasGadgets, decide_sig_eq, sameSig]
  grind

theorem unaryOperandOk_eq_not_unaryMismatch (s : State) (rd : SlotNo) :
    unaryOperandOk s rd = !unaryMismatch s rd := by
  simp [unaryOperandOk, unaryMismatch, isLive, liveSlot, hasGadgets]

theorem allCompatible_eq_not_any (s : State) (i k : Nat) :
    allCompatible s i k = !(List.range k).any fun j =>
      !(s.slot (i + j)).valid || !sameSig (s.slot (i + j)) (s.slot i) := by
  simp [allCompatible, isLive, decide_sig_eq, List.not_any_eq_all_not]

/-! ## The checks of every command -/

/-- The checks of the unary Boolean gadgets. -/
def unaryChecks (s : State) (rd : SlotNo) : List (Bool × ErrCode) :=
  [(slotInRange s rd, .illegal), (unaryOperandOk s rd, .domainMismatch)]

/-- The checks of the commands that ask only for one live slot. -/
def liveChecks (s : State) (rd : SlotNo) : List (Bool × ErrCode) :=
  [(slotInRange s rd, .illegal), (isLive s rd.toNat, .domainMismatch)]

/-- The checks of ALLOC and MASK. -/
def newSlotChecks (s : State) (rd : SlotNo) (ord : BitVec 4) : List (Bool × ErrCode) :=
  [(slotInRange s rd, .illegal), (orderOk s ord, .invalidOrder), (!isLive s rd.toNat, .allocation)]

/-- The checks that `exec` makes of each command, in their order; `checksThenDraws` ties them to it. -/
def checksOf (s : State) : Instr → List (Bool × ErrCode)
  | .nop => []
  | .alloc rd _ ord _ | .mask rd _ ord _ => newSlotChecks s rd ord
  | .unmask rd | .refresh rd | .btoa rd | .atob rd => liveChecks s rd
  | .clone rd rs1 _ =>
    [(slotInRange s rd && slotInRange s rs1, .illegal), (isLive s rs1.toNat, .domainMismatch),
      (!isLive s rd.toNat, .allocation)]
  | .free rd | .info rd => [(slotInRange s rd, .illegal)]
  | .allocm rd cnt _ ord _ =>
    [(slotInRange s rd && batchInRange s rd cnt, .illegal),
      (orderOk s ord && countOk cnt, .invalidOrder), (allFree s rd.toNat cnt.toNat, .allocation)]
  | .freem rd cnt =>
    [(slotInRange s rd && batchInRange s rd cnt, .illegal), (countOk cnt, .invalidOrder)]
  | .xor rd rs1 rs2 | .and rd rs1 rs2 | .or rd rs1 rs2 | .add rd rs1 rs2 | .sub rd rs1 rs2
  | .mult rd rs1 rs2 => binaryChecks s rd rs1 rs2
  | .not rd | .shr rd _ | .shl rd _ | .rotr rd _ | .rotl rd _ => unaryChecks s rd
  | .towide rd rs1 wc =>
    [(slotInRange s rd && slotInRange s rs1, .illegal), (isLive s rs1.toNat, .domainMismatch),
      (decide (slotBits s rs1 < widthBits wc), .domainMismatch),
      (decide (rs1.toNat + widthBits wc / slotBits s rs1 ≤ s.cfg.nmv), .domainMismatch),
      (allCompatible s rs1.toNat (widthBits wc / slotBits s rs1), .domainMismatch),
      (!isLive s rd.toNat, .allocation)]
  | .tonarrow rd rs1 wc =>
    [(slotInRange s rd && slotInRange s rs1, .illegal), (isLive s rs1.toNat, .domainMismatch),
      (decide (widthBits wc < slotBits s rs1), .domainMismatch),
      (decide (rd.toNat + slotBits s rs1 / widthBits wc ≤ s.cfg.nmv) &&
        allFree s rd.toNat (slotBits s rs1 / widthBits wc), .allocation)]

/-- The checks find the first cause of the tables (60_exceptions R322 to R325, R328). -/
theorem firstFail_checksOf (s : State) (i : Instr) : firstFail (checksOf s i) = errorOf s i := by
  rw [errorOf_eq_firstFail]
  cases i
  all_goals simp only [checksOf, newSlotChecks, liveChecks, binaryChecks, unaryChecks,
    Instr.wellFormed, invalidOrderCause, domainMismatchCause, allocationCause, slotInRange_eq,
    batchInRange_eq, isLive_eq, firstFail_cons, Bool.not_false, Bool.not_not, cond_true]
  case alloc | mask => rw [orderOk_eq_not_badOrder]
  case allocm => rw [orderOk_eq_not_badOrder, countOk_eq, allFree_eq_not_any, Bool.not_or]
  case freem => rw [countOk_eq]
  case xor | and | or | add | sub | mult => rw [binaryOperandsOk_eq_not_binaryMismatch]
  case not | shr | shl | rotr | rotl => rw [unaryOperandOk_eq_not_unaryMismatch]
  case towide =>
    simp only [allCompatible_eq_not_any, Bool.not_or, Bool.not_not, ← decide_not, Nat.not_le,
      Nat.not_lt, cond_and]
  case tonarrow =>
    simp only [allFree_eq_not_any, Bool.not_or, Bool.not_not, ← decide_not, Nat.not_le, Nat.not_lt,
      cond_and]

/-! ## The draws of every command -/

/-- `exec i s` makes the checks `checksOf s i`, and once they pass it makes the draws that the rule of
the command counts. -/
def ChecksThenDraws (i : Instr) (s : State) : Prop :=
  ∃ b, exec i s = runCommand s (checksOf s i) b ∧
    (firstFail (checksOf s i) = none → DrawsExactly b (drawsOf s i) fun _ => True)

/-- What follows the draws draws nothing more. -/
theorem drawsExactly_then_pure {α β : Type} {m : Draw α} {k : Nat} {P : α → Prop}
    (hm : DrawsExactly m k P) (g : α → β) :
    DrawsExactly (m >>= fun a => pure (g a)) k fun _ => True :=
  drawsExactly_bind hm fun _ _ => drawsExactly_pure trivial

theorem checksThenDraws_binary {i : Instr} {d : Domain} {F : ShareFunction} {k : Nat}
    {rd rs1 rs2 : SlotNo} {s : State} (hchecks : checksOf s i = binaryChecks s rd rs1 rs2)
    (hexec : exec i s = runCommand s (binaryChecks s rd rs1 rs2) (binaryBody d F rd rs1 rs2 s))
    (hF : KeepsShareCount F (shareCount (s.slot rs1.toNat)) k)
    (hk : drawsOf s i = bothDraws d s rs1 rs2 + k) : ChecksThenDraws i s := by
  refine ⟨_, by rw [hchecks]; exact hexec, fun hc => ?_⟩
  obtain ⟨-, hops, -⟩ : _ ∧ binaryOperandsOk s rd rs1 rs2 = true ∧ _ := by
    simpa only [hchecks, binaryChecks, firstFail_cons_eq_none] using hc
  obtain ⟨-, hv1, hv2, -, hn1, hn2⟩ := binaryOperandsOk_spec hops
  refine (drawsExactly_bind (drawsExactly_coerce d hv1) fun x hx => drawsExactly_bind
    ((drawsExactly_coerce d (((hx.moves.slot _).valid).trans hv2)).of_eq (coerceDraws_second hx))
    fun y hy => drawsExactly_then_pure (hF _ _ _ ?_ ?_) _).of_eq
      (by rw [hk, bothDraws, Nat.add_assoc]; rfl)
  all_goals rw [readShares_length, ((fileReshared_trans hx.moves hy.moves).slot _).shareCount]
  · rfl
  · exact hn2.trans hn1.symm

theorem checksThenDraws_unary {i : Instr} {G : (w : Nat) → List (BitVec w) → List (BitVec w)}
    {rd : SlotNo} {s : State} (hchecks : checksOf s i = unaryChecks s rd)
    (hexec : exec i s = boolUnary G rd s) (hk : drawsOf s i = toBoolDraws (s.slot rd.toNat)) :
    ChecksThenDraws i s := by
  exact ⟨_, by rw [hchecks]; exact hexec, fun _ =>
    (drawsExactly_then_pure (drawsExactly_toBool _ _ _) _).of_eq hk.symm⟩

theorem checksThenDraws_towide (rd rs1 : SlotNo) (wc : Width) (s : State) :
    ChecksThenDraws (.towide rd rs1 wc) s := by
  refine ⟨_, rfl, fun hc => ?_⟩
  simp only [checksOf, firstFail_cons_eq_none] at hc
  obtain ⟨-, -, -, -, hcompat, -⟩ := hc
  exact drawsExactly_then_pure (drawsExactly_toBoolRange (allCompatible_live hcompat)) _

theorem checksThenDraws (i : Instr) (s : State) : ChecksThenDraws i s := by
  cases i with
  | nop | alloc | unmask | clone | free | allocm | freem | info =>
    exact ⟨_, rfl, fun _ => drawsExactly_pure trivial⟩
  | mask rd dom ord wc =>
    exact ⟨_, rfl, fun _ => drawsExactly_then_pure (drawsExactly_maskShares _ dom _) _⟩
  | refresh rd =>
    exact ⟨_, rfl, fun _ => (drawsExactly_then_pure (drawsExactly_refreshShares _ _) _).of_eq
      (by simp [shareCount, drawsOf])⟩
  | btoa rd =>
    exact ⟨_, rfl, fun _ => drawsExactly_then_pure (drawsExactly_toArith _ _ _) _⟩
  | atob rd =>
    exact ⟨_, rfl, fun _ => drawsExactly_then_pure (drawsExactly_toBool _ _ _) _⟩
  | xor rd rs1 rs2 =>
    exact checksThenDraws_binary rfl (boolBinary_eq (fun _ a b => pure (vecXor a b)) rd rs1 rs2 s)
      (keepsShareCount_pure (fun _ => vecXor_length) _) rfl
  | and rd rs1 rs2 =>
    exact checksThenDraws_binary rfl (boolBinary_eq (fun _ a b => domAnd a b) rd rs1 rs2 s)
      (keepsShareCount_domAnd _) rfl
  | or rd rs1 rs2 =>
    exact checksThenDraws_binary rfl (boolBinary_eq (fun _ a b => orShares a b) rd rs1 rs2 s)
      (keepsShareCount_orShares _) rfl
  | add rd rs1 rs2 =>
    exact checksThenDraws_binary rfl (arithBinary_eq (fun _ a b => pure (vecAdd a b)) rd rs1 rs2 s)
      (keepsShareCount_pure (fun _ => vecAdd_length) _) rfl
  | sub rd rs1 rs2 =>
    exact checksThenDraws_binary rfl (arithBinary_eq (fun _ a b => pure (vecSub a b)) rd rs1 rs2 s)
      (keepsShareCount_pure (fun _ => vecSub_length) _) rfl
  | mult rd rs1 rs2 =>
    exact checksThenDraws_binary rfl (arithBinary_eq (fun _ a b => domMult a b) rd rs1 rs2 s)
      (keepsShareCount_domMult _) (Nat.add_assoc _ _ _)
  | not rd => exact checksThenDraws_unary (G := fun _ a => updateShare a 0 (~~~ ·)) rfl rfl rfl
  | shr rd k =>
    exact checksThenDraws_unary (G := fun w a => a.map fun v : BitVec w => v >>> shiftCount k w)
      rfl rfl rfl
  | shl rd k =>
    exact checksThenDraws_unary (G := fun w a => a.map fun v : BitVec w => v <<< shiftCount k w)
      rfl rfl rfl
  | rotr rd k =>
    exact checksThenDraws_unary (G := fun w a => a.map (rotr (shiftCount k w))) rfl rfl rfl
  | rotl rd k =>
    exact checksThenDraws_unary (G := fun w a => a.map (rotl (shiftCount k w))) rfl rfl rfl
  | towide rd rs1 wc => exact checksThenDraws_towide rd rs1 wc s
  | tonarrow rd rs1 wc =>
    exact ⟨_, rfl, fun _ => drawsExactly_then_pure (drawsExactly_toBool _ _ _) _⟩

/-! ## The wait -/

theorem runCommand_of_blocked {s : State} {cs : List (Bool × ErrCode)} {b : Draw Effect} {k : Nat}
    {P : Effect → Prop} {ws : List Word} (hc : firstFail cs = none) (hb : DrawsExactly b k P)
    (hanswers : s.env.answers = ws.map .word) (hlt : ws.length < k) :
    runCommand s cs b = .next s := by
  obtain ⟨f, -, hb⟩ := hb
  simp [runCommand, hc, hb, hanswers, takeWords_blocked ws hlt]

/-- Settles O17: the checks pass, and the draws the command's rule counts block. -/
theorem unansweredCommandsWait : Obligations.UnansweredCommandsWait := by
  intro i s ws herr hanswers hlt
  obtain ⟨b, hexec, hdraws⟩ := checksThenDraws i s
  have hc := (firstFail_checksOf s i).trans herr
  rw [hexec]
  exact runCommand_of_blocked hc (hdraws hc) hanswers hlt

end Sys2Proof.Machine

/-! PROOF. The decoder and the encoder undo each other (30_encoding R100 to R112): where the fields of a
word lie, which bits a row of R109 fixes, and the words that spell no command. -/

namespace Sys2Proof

/-! ## Slices of a word -/

theorem append_eq_iff {v w : Nat} {x : BitVec v} {y : BitVec w} {z : BitVec (v + w)} :
    x ++ y = z ↔ x = z.extractLsb' w v ∧ y = z.extractLsb' 0 w := by
  constructor
  · rintro rfl
    exact ⟨BitVec.extractLsb'_append_eq_left.symm, BitVec.extractLsb'_append_eq_right.symm⟩
  · rintro ⟨rfl, rfl⟩
    exact BitVec.extractLsb'_append_extractLsb'

theorem extractLsb'_extractLsb' {u s t m n : Nat} (c : BitVec u) (h : t + n ≤ m) :
    (c.extractLsb' s m).extractLsb' t n = c.extractLsb' (s + t) n := by
  ext k hk
  simp only [BitVec.getElem_extractLsb', BitVec.getLsbD_extractLsb', Nat.add_assoc]
  simp only [show t + k < m by omega, decide_true, Bool.true_and]

/-! ## The codes of the operands (30_encoding R104, R107) -/

theorem widthCode_eq_iff {wc : Width} {b : BitVec 2} : widthCode wc = b ↔ wc = widthOfCode b := by
  cases wc <;> revert b <;> decide

theorem domainBit_eq_iff {dom : Domain} {b : BitVec 1} : domainBit dom = b ↔ dom = domainOfBit b := by
  cases dom <;> revert b <;> decide

theorem ofBool_eq_iff {z : Bool} {b : BitVec 1} : BitVec.ofBool z = b ↔ z = (b == 1#1) := by
  cases z <;> revert b <;> decide

/-! ## Each format, field by field (30_encoding R102)

A word is packed in a format exactly when each operand is its field of the word and the reserved
fields are 0. -/

theorem packZ_eq_iff {c : CmdWord} {o : BitVec 6} :
    packZ o = c ↔ o = fieldOp c ∧ 0 = c.extractLsb' 0 26 := by
  rw [packZ, append_eq_iff]
  rfl

theorem packN_eq_iff {c : CmdWord} {o : BitVec 6} {rd : SlotNo} {dom : Domain} {ord : BitVec 4}
    {wc : Width} : packN o rd ord (widthCode wc) (domainBit dom) = c ↔
      o = fieldOp c ∧ rd = fieldRd c ∧ 0 = c.extractLsb' 11 10 ∧ ord = fieldOrd c ∧
      wc = fieldWc c ∧ dom = fieldDom c ∧ 0 = c.extractLsb' 0 4 := by
  rw [packN, append_eq_iff]
  simp (disch := decide) only [append_eq_iff, extractLsb'_extractLsb', and_assoc,
    widthCode_eq_iff, domainBit_eq_iff]
  rfl

theorem packNB_eq_iff {c : CmdWord} {o : BitVec 6} {rd : SlotNo} {cnt : BitVec 5} {dom : Domain}
    {ord : BitVec 4} {wc : Width} : packNB o rd cnt ord (widthCode wc) (domainBit dom) = c ↔
      o = fieldOp c ∧ rd = fieldRd c ∧ cnt = fieldCnt c ∧ 0 = c.extractLsb' 11 5 ∧
      ord = fieldOrd c ∧ wc = fieldWc c ∧ dom = fieldDom c ∧ 0 = c.extractLsb' 0 4 := by
  rw [packNB, append_eq_iff]
  simp (disch := decide) only [append_eq_iff, extractLsb'_extractLsb', and_assoc,
    widthCode_eq_iff, domainBit_eq_iff]
  rfl

theorem packB_eq_iff {c : CmdWord} {o : BitVec 6} {rd : SlotNo} {cnt : BitVec 5} :
    packB o rd cnt = c ↔
      o = fieldOp c ∧ rd = fieldRd c ∧ cnt = fieldCnt c ∧ 0 = c.extractLsb' 0 16 := by
  rw [packB, append_eq_iff]
  simp (disch := decide) only [append_eq_iff, extractLsb'_extractLsb', and_assoc]
  rfl

theorem packR1_eq_iff {c : CmdWord} {o : BitVec 6} {rd : SlotNo} :
    packR1 o rd = c ↔ o = fieldOp c ∧ rd = fieldRd c ∧ 0 = c.extractLsb' 0 21 := by
  rw [packR1, append_eq_iff]
  simp (disch := decide) only [append_eq_iff, extractLsb'_extractLsb', and_assoc]
  rfl

theorem packRC_eq_iff {c : CmdWord} {o : BitVec 6} {rd rs1 : SlotNo} {z : Bool} :
    packRC o rd rs1 (BitVec.ofBool z) = c ↔
      o = fieldOp c ∧ rd = fieldRd c ∧ rs1 = fieldRs1 c ∧ 0 = c.extractLsb' 5 11 ∧
      z = fieldZero c ∧ 0 = c.extractLsb' 0 4 := by
  rw [packRC, append_eq_iff]
  simp (disch := decide) only [append_eq_iff, extractLsb'_extractLsb', and_assoc, ofBool_eq_iff]
  rfl

theorem packR3_eq_iff {c : CmdWord} {o : BitVec 6} {rd rs1 rs2 : SlotNo} :
    packR3 o rd rs1 rs2 = c ↔
      o = fieldOp c ∧ rd = fieldRd c ∧ rs1 = fieldRs1 c ∧ rs2 = fieldRs2 c ∧
      0 = c.extractLsb' 0 11 := by
  rw [packR3, append_eq_iff]
  simp (disch := decide) only [append_eq_iff, extractLsb'_extractLsb', and_assoc]
  rfl

theorem packSH_eq_iff {c : CmdWord} {o : BitVec 6} {rd : SlotNo} {shamt : BitVec 6} :
    packSH o rd shamt = c ↔
      o = fieldOp c ∧ rd = fieldRd c ∧ 0 = c.extractLsb' 6 15 ∧ shamt = fieldShamt c := by
  rw [packSH, append_eq_iff]
  simp (disch := decide) only [append_eq_iff, extractLsb'_extractLsb', and_assoc]
  rfl

theorem packW_eq_iff {c : CmdWord} {o : BitVec 6} {rd rs1 : SlotNo} {wc : Width} :
    packW o rd rs1 (widthCode wc) = c ↔
      o = fieldOp c ∧ rd = fieldRd c ∧ rs1 = fieldRs1 c ∧ 0 = c.extractLsb' 7 9 ∧
      wc = fieldWc c ∧ 0 = c.extractLsb' 0 5 := by
  rw [packW, append_eq_iff]
  simp (disch := decide) only [append_eq_iff, extractLsb'_extractLsb', and_assoc, widthCode_eq_iff]
  rfl

/-! ## The bits a row of the opcode table fixes (30_encoding R108, R109) -/

/-- `c` has the fixed bits of the row of `o`: its opcode, and 0 at every reserved bit. -/
def HasFixedBits (o : Op) (c : CmdWord) : Prop := c &&& opMask o = opMatch o

/-- A slice that the mask covers is the match's slice. -/
theorem HasFixedBits.slice {o : Op} {c : CmdWord} (h : HasFixedBits o c) {s n : Nat}
    (hmask : (opMask o).extractLsb' s n = BitVec.allOnes n) :
    (opMatch o).extractLsb' s n = c.extractLsb' s n := by
  rw [← h, BitVec.extractLsb'_and, hmask, BitVec.and_allOnes]

theorem opMask_covers_opcode (o : Op) : (opMask o).extractLsb' 26 6 = BitVec.allOnes 6 := by
  cases o <;> decide

theorem HasFixedBits.opCode_eq {o : Op} {c : CmdWord} (h : HasFixedBits o c) :
    opCode o = fieldOp c :=
  calc opCode o = (opMatch o).extractLsb' 26 6 := BitVec.extractLsb'_append_eq_left.symm
    _ = fieldOp c := h.slice (opMask_covers_opcode o)

theorem HasFixedBits.reserved {o : Op} {c : CmdWord} (h : HasFixedBits o c) {s n : Nat}
    (hs : s + n ≤ 26 := by decide)
    (hmask : (opMask o).extractLsb' s n = BitVec.allOnes n := by decide) :
    0#n = c.extractLsb' s n :=
  calc 0#n = (opMatch o).extractLsb' s n := by
        rw [opMatch, BitVec.extractLsb'_append_eq_of_add_le hs, BitVec.extractLsb'_zero]
    _ = c.extractLsb' s n := h.slice hmask

theorem hasFixedBits_encode (i : Instr) : HasFixedBits (instrOp i) (encode i) := by
  cases i with
  | nop => exact packZ_fixed ..
  | alloc | mask => exact packN_fixed ..
  | allocm => exact packNB_fixed ..
  | freem => exact packB_fixed ..
  | unmask | refresh | free | info | not | btoa | atob => exact packR1_fixed ..
  | clone => exact packRC_fixed ..
  | xor | and | or | add | sub | mult => exact packR3_fixed ..
  | shr | shl | rotr | rotl => exact packSH_fixed ..
  | towide | tonarrow => exact packW_fixed ..

/-! ## The fields of a command's word -/

theorem fieldsOf_of_encode_eq {i : Instr} {c : CmdWord} (h : encode i = c) :
    fieldsOf (instrOp i) c = i := by
  cases i with
  | nop => rfl
  | alloc | mask =>
    obtain ⟨-, rfl, -, rfl, rfl, rfl, -⟩ := packN_eq_iff.1 h
    rfl
  | allocm =>
    obtain ⟨-, rfl, rfl, -, rfl, rfl, rfl, -⟩ := packNB_eq_iff.1 h
    rfl
  | freem =>
    obtain ⟨-, rfl, rfl, -⟩ := packB_eq_iff.1 h
    rfl
  | unmask | refresh | free | info | not | btoa | atob =>
    obtain ⟨-, rfl, -⟩ := packR1_eq_iff.1 h
    rfl
  | clone =>
    obtain ⟨-, rfl, rfl, -, rfl, -⟩ := packRC_eq_iff.1 h
    rfl
  | xor | and | or | add | sub | mult =>
    obtain ⟨-, rfl, rfl, rfl, -⟩ := packR3_eq_iff.1 h
    rfl
  | shr | shl | rotr | rotl =>
    obtain ⟨-, rfl, -, rfl⟩ := packSH_eq_iff.1 h
    rfl
  | towide | tonarrow =>
    obtain ⟨-, rfl, rfl, -, rfl, -⟩ := packW_eq_iff.1 h
    rfl

/-- A word with a row's fixed bits is the word of the command it spells: every bit lies in the opcode,
in an operand or in a reserved field. -/
theorem HasFixedBits.encode_fieldsOf {o : Op} {c : CmdWord} (h : HasFixedBits o c) :
    encode (fieldsOf o c) = c := by
  have hop := h.opCode_eq
  cases o with
  | nop => exact packZ_eq_iff.2 ⟨hop, h.reserved⟩
  | alloc | mask => exact packN_eq_iff.2 ⟨hop, rfl, h.reserved, rfl, rfl, rfl, h.reserved⟩
  | allocm => exact packNB_eq_iff.2 ⟨hop, rfl, rfl, h.reserved, rfl, rfl, rfl, h.reserved⟩
  | freem => exact packB_eq_iff.2 ⟨hop, rfl, rfl, h.reserved⟩
  | unmask | refresh | free | info | not | btoa | atob =>
    exact packR1_eq_iff.2 ⟨hop, rfl, h.reserved⟩
  | clone => exact packRC_eq_iff.2 ⟨hop, rfl, rfl, h.reserved, rfl, h.reserved⟩
  | xor | and | or | add | sub | mult =>
    exact packR3_eq_iff.2 ⟨hop, rfl, rfl, rfl, h.reserved⟩
  | shr | shl | rotr | rotl => exact packSH_eq_iff.2 ⟨hop, rfl, h.reserved, rfl⟩
  | towide | tonarrow => exact packW_eq_iff.2 ⟨hop, rfl, rfl, h.reserved, rfl, h.reserved⟩

/-! ## What decodes -/

theorem opOfCode_opCode (o : Op) : opOfCode (opCode o) = some o := by
  cases o <;> rfl

theorem opCode_inj {o o' : Op} : opCode o = opCode o' ↔ o = o' := by
  refine ⟨fun h => ?_, congrArg opCode⟩
  simpa only [opOfCode_opCode, Option.some.injEq] using congrArg opOfCode h

/-- The opcode selects the row; a word with a row's fixed bits has the row's opcode. -/
theorem decode_eq_ok_iff_fixedBits {c : CmdWord} {i : Instr} :
    decode c = .ok i ↔ ∃ o, HasFixedBits o c ∧ fieldsOf o c = i := by
  constructor
  · intro h
    unfold decode at h
    split at h
    · cases h
    · split at h
      next hfixed => exact ⟨_, hfixed, Except.ok.inj h⟩
      · cases h
  · rintro ⟨o, h, rfl⟩
    rw [decode, ← h.opCode_eq, opOfCode_opCode]
    exact if_pos h

/-- A word decodes to a command exactly when it is the command's word (30_encoding R112). -/
theorem decode_eq_ok_iff_encode {c : CmdWord} {i : Instr} : decode c = .ok i ↔ encode i = c := by
  rw [decode_eq_ok_iff_fixedBits]
  constructor
  · rintro ⟨o, h, rfl⟩
    exact h.encode_fieldsOf
  · intro h
    exact ⟨instrOp i, h ▸ hasFixedBits_encode i, fieldsOf_of_encode_eq h⟩

/-- Settles O2: the word of a command is its own word. -/
theorem decodeEncodeRoundTrip : Obligations.DecodeEncodeRoundTrip := fun _ =>
  decode_eq_ok_iff_encode.2 rfl

/-- Settles O3: a word with a row's fixed bits is packed from its own fields. -/
theorem encodeDecodeRoundTrip : Obligations.EncodeDecodeRoundTrip := fun _ _ =>
  decode_eq_ok_iff_encode.1

/-- Settles O1, by running the decoder on the eleven words. -/
theorem specWordsDecode : Obligations.SpecWordsDecode := by
  unfold Obligations.SpecWordsDecode
  decide

/-- The opcodes of the table lie outside the reserved ranges of 30_encoding R110. -/
theorem opCode_not_reserved (o : Op) :
    ¬ let op := (opCode o).toNat
      (0x0A ≤ op ∧ op ≤ 0x0F) ∨ (0x1B ≤ op ∧ op ≤ 0x1F) ∨ (0x22 ≤ op ∧ op ≤ 0x27) ∨
        (0x2A ≤ op ∧ op ≤ 0x3F) := by
  cases o <;> decide

end Sys2Proof

namespace Sys2Proof.Machine

/-! ## Pending words that spell no command -/

theorem step_of_datapath {s : State} (h : nextTurn s = .datapath) :
    step s = datapathTurn (dropTurn s) := by
  rw [step, h, takeTurn]

/-- A pending word that is no row's word completes with ILLEGAL (60_exceptions R322). -/
theorem step_of_no_fixedBits {s : State} {q : Pending} (hq : s.pending = some q)
    (hn : nextTurn s = .datapath) (hword : ∀ o, ¬ HasFixedBits o q.word) :
    step s = .next (failedState (dropTurn s) .illegal) := by
  rw [step_of_datapath hn]
  rcases datapathTurn_cases (dropTurn s) with ⟨hidle, -⟩ | ⟨_, _, -, -, hturn⟩ |
    ⟨_, _, hq', hdecode, -⟩
  · cases hq.symm.trans hidle
  · exact hturn
  · cases hq.symm.trans hq'
    obtain ⟨o, ho, -⟩ := decode_eq_ok_iff_fixedBits.1 hdecode
    exact absurd ho (hword o)

/-- Settles O4: no row has a reserved opcode. -/
theorem reservedOpcodesAreIllegal : Obligations.ReservedOpcodesAreIllegal := by
  intro s q hq hn hop
  refine step_of_no_fixedBits hq hn fun o ho => opCode_not_reserved o ?_
  rw [ho.opCode_eq]
  exact hop

theorem writeCmd_congr (s : State) {v v' : Word} (h : v.setWidth 32 = v'.setWidth 32) :
    writeCmd s v = writeCmd s v' := by
  rw [writeCmd, writeCmd, h]

/-- Settles O5: the only row with the word's opcode asks for other bits, and a CMD write looks at the
low 32 bits alone. -/
theorem reservedBitsAreIllegal : Obligations.ReservedBitsAreIllegal := by
  refine ⟨fun s q o hq hn hop hbits => ?_, fun s _ _ => writeCmd_congr s⟩
  refine step_of_no_fixedBits hq hn fun o' ho' => hbits ?_
  obtain rfl : o' = o := opCode_inj.1 (ho'.opCode_eq.trans hop)
  exact ho'

/-- Settles O6: NOP's row fixes every bit to 0, so any other word with its opcode has a reserved bit
set. -/
theorem opcodeZeroIsNop : Obligations.OpcodeZeroIsNop := by
  refine ⟨decodeEncodeRoundTrip .nop, fun s q hq hn hop hword => ?_⟩
  refine reservedBitsAreIllegal.1 s q .nop hq hn hop fun hfixed => hword ?_
  calc q.word = q.word &&& opMask .nop := BitVec.and_allOnes.symm
    _ = 0 := hfixed

end Sys2Proof.Machine

/-! PROOF. Random draws with their answers given: what a drawing computation makes of the words it is
handed (00_scope R17), and how a command whose words have arrived completes (70_reset R374). -/

namespace Sys2Proof.Machine

/-! ## Drawing computations, run on given words -/

/-- `m` draws the words `ws`, in this order, and answers `a`, whatever answers stand behind them. -/
def RunsTo {α : Type} (m : Draw α) (ws : List Word) (a : α) : Prop :=
  ∀ (rest : List Answer) (c : Nat), m { answers := ws.map .word ++ rest, count := c } =
    .ok (a, { answers := rest, count := c + ws.length })

theorem runsTo_pure {α : Type} (a : α) : RunsTo (pure a : Draw α) [] a := fun _ _ => rfl

theorem runsTo_draw (w : Nat) (e : Word) : RunsTo (draw w) [e] (e.setWidth w) := fun _ _ => rfl

theorem RunsTo.bind {α β : Type} {m : Draw α} {g : α → Draw β} {us vs : List Word} {a : α} {b : β}
    (hm : RunsTo m us a) (hg : RunsTo (g a) vs b) : RunsTo (m >>= g) (us ++ vs) b := by
  intro rest c
  show (m _ >>= fun ap => g ap.1 ap.2) = _
  rw [List.map_append, List.append_assoc, hm, List.length_append, ← Nat.add_assoc]
  exact hg rest (c + us.length)

/-- What follows the draws draws nothing more. -/
theorem RunsTo.map {α β : Type} {m : Draw α} {ws : List Word} {a : α} (hm : RunsTo m ws a)
    (g : α → β) : RunsTo (m >>= fun a => pure (g a)) ws (g a) := by
  simpa using hm.bind (g := fun a => pure (g a)) (runsTo_pure (g a))

theorem runsTo_drawMany (w : Nat) (ws : List Word) :
    RunsTo (drawMany w ws.length) ws (ws.map (BitVec.setWidth w)) := by
  induction ws with
  | nil => exact runsTo_pure _
  | cons e ws ih => exact (runsTo_draw w e).bind (ih.map _)

/-! ## A command that completes -/

/-- A command that does not fail has passed its checks. -/
theorem checksOf_pass {s : State} {i : Instr} (herr : errorOf s i = none) :
    firstFail (checksOf s i) = none :=
  (firstFail_checksOf s i).trans herr

theorem completed_commit {s : State} {e : Effect} (hlen : e.slots.length = s.slots.length) (p : Port) :
    Completed s (commit s e p) p.count p.answers := by
  simp [Completed, hlen]

/-- A command whose checks pass and whose draws are answered completes with its body's effect. -/
theorem exec_of_runsTo {i : Instr} {s : State} {b : Draw Effect} {ws : List Word}
    {rest : List Answer} {e : Effect} (hexec : exec i s = runCommand s (checksOf s i) b)
    (herr : errorOf s i = none) (hb : RunsTo b ws e) (hanswers : s.env.answers = ws.map .word ++ rest)
    (hlen : e.slots.length = s.slots.length) :
    ∃ t, exec i s = .next t ∧ Completed s t ws.length rest ∧ t.slots = e.slots ∧ t.dout = e.dout ∧
      ∀ j, t.slot j = slotAt s.cfg e.slots j := by
  refine ⟨commit s e { answers := rest, count := ws.length }, ?_, completed_commit hlen _, rfl, rfl,
    fun _ => rfl⟩
  rw [hexec, runCommand, checksOf_pass herr, hanswers]
  simp [hb rest 0]

/-- The same for a command that draws nothing. -/
theorem exec_of_pure {i : Instr} {s : State} {e : Effect}
    (hexec : exec i s = runCommand s (checksOf s i) (pure e)) (herr : errorOf s i = none)
    (hlen : e.slots.length = s.slots.length) :
    ∃ t, exec i s = .next t ∧ Completed s t 0 s.env.answers ∧ t.slots = e.slots ∧ t.dout = e.dout ∧
      ∀ j, t.slot j = slotAt s.cfg e.slots j :=
  exec_of_runsTo (ws := []) hexec herr (runsTo_pure e) rfl hlen

/-- A slot that was written holds the record, unless it has no place in the file; there every slot
reads as free. -/
theorem slotAt_setSlot_self {p : Params} {x : List Slot} {i : Nat} {r : Slot}
    (h : i < x.length ∨ r = Slot.free p) : slotAt p (setSlot x i r) i = r := by
  by_cases hi : i < x.length
  · exact slotAt_setSlot_same p r hi
  · obtain rfl := h.resolve_left hi
    rw [slotAt, List.getD_eq_default _ _ (by simpa using hi)]

/-- A command whose only effect is the record `r` in slot `i`. -/
theorem exec_writes_slot {c : Instr} {s : State} {b : Draw Effect} {ws : List Word}
    {rest : List Answer} {i : Nat} {r : Slot} (hexec : exec c s = runCommand s (checksOf s c) b)
    (herr : errorOf s c = none) (hb : RunsTo b ws { slots := setSlot s.slots i r, dout := s.dout })
    (hanswers : s.env.answers = ws.map .word ++ rest)
    (hr : i < s.slots.length ∨ r = Slot.free s.cfg) :
    ∃ t, exec c s = .next t ∧ Completed s t ws.length rest ∧ t.dout = s.dout ∧
      OtherSlotsKept s t [i] ∧ t.slot i = r := by
  obtain ⟨t, ht, hdone, -, hdout, hslot⟩ :=
    exec_of_runsTo hexec herr hb hanswers (setSlot_length s.slots i r)
  refine ⟨t, ht, hdone, hdout, fun j hj => ?_, (hslot i).trans (slotAt_setSlot_self hr)⟩
  exact (hslot j).trans (slotAt_setSlot_other _ _ _ (by simpa [eq_comm] using hj))

/-- The same for a command that draws nothing. -/
theorem exec_writes_slot_of_pure {c : Instr} {s : State} {i : Nat} {r : Slot}
    (hexec : exec c s =
      runCommand s (checksOf s c) (pure { slots := setSlot s.slots i r, dout := s.dout }))
    (herr : errorOf s c = none) (hr : i < s.slots.length ∨ r = Slot.free s.cfg) :
    ∃ t, exec c s = .next t ∧ Completed s t 0 s.env.answers ∧ t.dout = s.dout ∧
      OtherSlotsKept s t [i] ∧ t.slot i = r :=
  exec_writes_slot (ws := []) hexec herr (runsTo_pure _) rfl hr

/-- Under the invariant, every slot number that the range check passes has its place in the file. -/
theorem State.Inv.slot_in_file {s : State} (h : s.Inv) {r : SlotNo} (hr : slotInRange s r = true) :
    r.toNat < s.slots.length := by
  obtain ⟨-, hlen, -, -, -⟩ := h
  simpa [hlen, slotInRange] using hr

/-! ## Shares and secrets -/

theorem readShares_getD (r : Slot) (w k : Nat) : (readShares r w).getD k 0 =
    if k < shareCount r then (r.sh.getD k 0).setWidth w else 0 := by
  split <;> simp [readShares, List.getD_eq_getElem?_getD, *]

/-- The secret of a slot that holds the shares `o`, as many as its order asks for. -/
theorem slotSecret_of_sh {r : Slot} {w : Nat} (hw : w = widthBits r.wc) {o : List (BitVec w)}
    {rest : List Word} (ho : o.length = shareCount r)
    (h : r.sh = o.map (BitVec.setWidth 64) ++ rest) :
    slotSecret r = (secretOf r.dom o).setWidth 64 := by
  subst hw
  rw [slotSecret, readShares_of_sh (widthBits_le _) ho h]

theorem slotSecret_newSlot (p : Params) (dom : Domain) {ord : BitVec 4} {wc : Width}
    {o : List (BitVec (widthBits wc))} (ho : o.length = ord.toNat + 1) :
    slotSecret (newSlot p dom ord wc o) = (secretOf dom o).setWidth 64 :=
  slotSecret_of_sh (r := newSlot p dom ord wc o) rfl ho rfl

theorem slotSecret_writeShares {r : Slot} {o : List (BitVec (widthBits r.wc))}
    (ho : o.length = shareCount r) : slotSecret (writeShares r o) = (secretOf r.dom o).setWidth 64 :=
  slotSecret_of_sh (r := writeShares r o) rfl ho rfl

theorem updateShare_zero {w : Nat} (a : BitVec w) (s : List (BitVec w)) (f : BitVec w → BitVec w) :
    updateShare (a :: s) 0 f = f a :: s := rfl

theorem updateShare_succ {w : Nat} (a : BitVec w) (s : List (BitVec w)) (i : Nat)
    (f : BitVec w → BitVec w) : updateShare (a :: s) (i + 1) f = a :: updateShare s i f := rfl

theorem updateShare_getD {w : Nat} {s : List (BitVec w)} {i : Nat} (h : i < s.length)
    (f : BitVec w → BitVec w) (k : Nat) :
    (updateShare s i f).getD k 0 = if i = k then f (s.getD k 0) else s.getD k 0 := by
  split
  next hk => subst hk; simp [updateShare, h]
  next hk => simp [updateShare, hk]

theorem xorAll_cons {w : Nat} (a : BitVec w) (s : List (BitVec w)) :
    xorAll (a :: s) = a ^^^ xorAll s := rfl

theorem sumAll_cons {w : Nat} (a : BitVec w) (s : List (BitVec w)) :
    sumAll (a :: s) = a + sumAll s := rfl

/-- The XOR changes by the difference at the share that changed. -/
theorem xorAll_updateShare {w : Nat} {s : List (BitVec w)} {i : Nat} (h : i < s.length)
    (f : BitVec w → BitVec w) :
    xorAll (updateShare s i f) = xorAll s ^^^ (s.getD i 0 ^^^ f (s.getD i 0)) := by
  induction s generalizing i with
  | nil => simp at h
  | cons a s ih =>
    cases i with
    | zero =>
      rw [updateShare_zero, xorAll_cons, xorAll_cons, List.getD_cons_zero, BitVec.xor_comm a,
        BitVec.xor_assoc, ← BitVec.xor_assoc a a, BitVec.xor_self, BitVec.zero_xor, BitVec.xor_comm]
    | succ i =>
      rw [updateShare_succ, xorAll_cons, xorAll_cons, ih (by simpa using h), List.getD_cons_succ,
        BitVec.xor_assoc]

/-- The sum changes by the difference at the share that changed. -/
theorem sumAll_updateShare {w : Nat} {s : List (BitVec w)} {i : Nat} (h : i < s.length)
    (f : BitVec w → BitVec w) :
    sumAll (updateShare s i f) = sumAll s + (f (s.getD i 0) - s.getD i 0) := by
  induction s generalizing i with
  | nil => simp at h
  | cons a s ih =>
    cases i with
    | zero =>
      rw [updateShare_zero, sumAll_cons, sumAll_cons, List.getD_cons_zero]
      ring
    | succ i =>
      rw [updateShare_succ, sumAll_cons, sumAll_cons, ih (by simpa using h), List.getD_cons_succ,
        add_assoc]

/-! ## Folding a word into a share, for both domains at once -/

/-- A word folded into a share: XOR in the Boolean domain, addition in the arithmetic one. -/
def addWord {w : Nat} (d : Domain) (v r : BitVec w) : BitVec w :=
  match d with
  | .boolean => v ^^^ r
  | .arith => v + r

/-- A word taken out of a share. -/
def removeWord {w : Nat} (d : Domain) (v r : BitVec w) : BitVec w :=
  match d with
  | .boolean => v ^^^ r
  | .arith => v - r

theorem addWord_removeWord {w : Nat} (d : Domain) (v r : BitVec w) :
    addWord d (removeWord d v r) r = v := by
  cases d
  case boolean => simp [addWord, removeWord]
  case arith => simp [addWord, removeWord]

theorem secretOf_cons {w : Nat} (d : Domain) (a : BitVec w) (s : List (BitVec w)) :
    secretOf d (a :: s) = addWord d a (secretOf d s) := by
  cases d <;> rfl

theorem secretOf_updateShare_addWord {w : Nat} {s : List (BitVec w)} {i : Nat} (h : i < s.length)
    (d : Domain) (r : BitVec w) :
    secretOf d (updateShare s i (addWord d · r)) = addWord d (secretOf d s) r := by
  cases d
  case boolean =>
    simp [secretOf, addWord, xorAll_updateShare h]
  case arith =>
    simp [secretOf, addWord, sumAll_updateShare h]

theorem secretOf_updateShare_removeWord {w : Nat} {s : List (BitVec w)} {i : Nat} (h : i < s.length)
    (d : Domain) (r : BitVec w) :
    secretOf d (updateShare s i (removeWord d · r)) = removeWord d (secretOf d s) r := by
  cases d
  case boolean => exact secretOf_updateShare_addWord h .boolean r
  case arith => simp [secretOf, removeWord, sumAll_updateShare h]; ring

/-! ## MaskShares (40_lifecycle R142) -/

/-- The shares that MaskShares makes of the plaintext `v` and the words `ws`. -/
def maskedShares {w : Nat} (d : Domain) (v : BitVec w) (ws : List Word) : List (BitVec w) :=
  removeWord d v (secretOf d (ws.map (BitVec.setWidth w))) :: ws.map (BitVec.setWidth w)

theorem runsTo_maskShares {w : Nat} (d : Domain) (v : BitVec w) (ws : List Word) :
    RunsTo (maskShares v d (ws.length + 1)) ws (maskedShares d v ws) := by
  cases d <;> exact (runsTo_drawMany w ws).map _

@[simp] theorem maskedShares_length {w : Nat} (d : Domain) (v : BitVec w) (ws : List Word) :
    (maskedShares d v ws).length = ws.length + 1 := by
  simp [maskedShares]

theorem secretOf_maskedShares {w : Nat} (d : Domain) (v : BitVec w) (ws : List Word) :
    secretOf d (maskedShares d v ws) = v := by
  rw [maskedShares, secretOf_cons, addWord_removeWord]

theorem maskedShares_getD_succ {w : Nat} (d : Domain) (v : BitVec w) {ws : List Word} {k : Nat} :
    (maskedShares d v ws).getD (k + 1) 0 = (ws.getD k 0).setWidth w := by
  rw [maskedShares, List.getD_cons_succ]
  simpa using List.getD_map (l := ws) (n := k) (d := 0) (BitVec.setWidth w)

/-! ## RefreshShares (40_lifecycle R145) -/

/-- Round `i` of RefreshShares with the word `r`. -/
def refreshStep {w : Nat} (d : Domain) (s : List (BitVec w)) (i : Nat) (r : BitVec w) :
    List (BitVec w) :=
  updateShare (updateShare s 0 (removeWord d · r)) i (addWord d · r)

/-- The rounds of RefreshShares from round `i` on, with the words `ws`. -/
def refreshedFrom {w : Nat} (d : Domain) : Nat → List Word → List (BitVec w) → List (BitVec w)
  | _, [], s => s
  | i, e :: ws, s => refreshedFrom d (i + 1) ws (refreshStep d s i (e.setWidth w))

theorem refreshRound_eq {w : Nat} (d : Domain) (s : List (BitVec w)) (i : Nat) :
    refreshRound d s i = draw w >>= fun r => pure (refreshStep d s i r) := by
  cases d <;> rfl

theorem runsTo_refreshRounds {w : Nat} (d : Domain) (i : Nat) (ws : List Word)
    (s : List (BitVec w)) : RunsTo ((List.range' i ws.length).foldlM (refreshRound d) s) ws
      (refreshedFrom d i ws s) := by
  induction ws generalizing i s with
  | nil => exact runsTo_pure s
  | cons e ws ih =>
    rw [List.length_cons, List.range'_succ, List.foldlM_cons, refreshRound_eq]
    exact ((runsTo_draw w e).map _).bind (ih (i + 1) _)

theorem runsTo_refreshShares {w : Nat} (d : Domain) {ws : List Word} {s : List (BitVec w)}
    (h : s.length = ws.length + 1) : RunsTo (refreshShares s d) ws (refreshedFrom d 1 ws s) := by
  rw [refreshShares, h, Nat.add_sub_cancel]
  exact runsTo_refreshRounds d 1 ws s

@[simp] theorem refreshStep_length {w : Nat} (d : Domain) (s : List (BitVec w)) (i : Nat)
    (r : BitVec w) : (refreshStep d s i r).length = s.length := by
  simp [refreshStep]

@[simp] theorem refreshedFrom_length {w : Nat} (d : Domain) (i : Nat) (ws : List Word)
    (s : List (BitVec w)) : (refreshedFrom d i ws s).length = s.length := by
  induction ws generalizing i s with
  | nil => rfl
  | cons e ws ih => rw [refreshedFrom, ih, refreshStep_length]

/-- A round takes the word out of share 0 and folds it into share `i`. -/
theorem secretOf_refreshStep {w : Nat} (d : Domain) {s : List (BitVec w)} {i : Nat}
    (h : i < s.length) (r : BitVec w) : secretOf d (refreshStep d s i r) = secretOf d s := by
  rw [refreshStep, secretOf_updateShare_addWord (by simpa using h),
    secretOf_updateShare_removeWord (Nat.zero_lt_of_lt h), addWord_removeWord]

theorem secretOf_refreshedFrom {w : Nat} (d : Domain) {i : Nat} {ws : List Word}
    {s : List (BitVec w)} (h : i + ws.length ≤ s.length) :
    secretOf d (refreshedFrom d i ws s) = secretOf d s := by
  induction ws generalizing i s with
  | nil => rfl
  | cons e ws ih =>
    rw [List.length_cons] at h
    rw [refreshedFrom, ih (by rw [refreshStep_length]; omega), secretOf_refreshStep d (by omega)]

/-- A round leaves every share but share 0 and its own. -/
theorem refreshStep_getD {w : Nat} (d : Domain) {s : List (BitVec w)} {i : Nat} (h : i < s.length)
    (r : BitVec w) {k : Nat} (hk : k ≠ 0) : (refreshStep d s i r).getD k 0 =
      if i = k then addWord d (s.getD k 0) r else s.getD k 0 := by
  rw [refreshStep, updateShare_getD (by simpa using h), updateShare_getD (Nat.zero_lt_of_lt h),
    if_neg hk.symm]

theorem refreshedFrom_getD_of_lt {w : Nat} (d : Domain) {i : Nat} {ws : List Word}
    {s : List (BitVec w)} (h : i + ws.length ≤ s.length) {k : Nat} (hk : k ≠ 0) (hki : k < i) :
    (refreshedFrom d i ws s).getD k 0 = s.getD k 0 := by
  induction ws generalizing i s with
  | nil => rfl
  | cons e ws ih =>
    rw [List.length_cons] at h
    rw [refreshedFrom, ih (by rw [refreshStep_length]; omega) (by omega),
      refreshStep_getD d (by omega) _ hk, if_neg (by omega)]

/-- Share `i + k` takes word `k`, in its own round. -/
theorem refreshedFrom_getD {w : Nat} (d : Domain) {i : Nat} {ws : List Word} {s : List (BitVec w)}
    (h : i + ws.length ≤ s.length) (hi : i ≠ 0) {k : Nat} (hk : k < ws.length) :
    (refreshedFrom d i ws s).getD (i + k) 0 =
      addWord d (s.getD (i + k) 0) ((ws.getD k 0).setWidth w) := by
  induction ws generalizing i s k with
  | nil => simp at hk
  | cons e ws ih =>
    rw [List.length_cons] at h hk
    have hlen : i + 1 + ws.length ≤ (refreshStep d s i (e.setWidth w)).length := by
      rw [refreshStep_length]; omega
    rw [refreshedFrom]
    cases k with
    | zero =>
      rw [Nat.add_zero i, refreshedFrom_getD_of_lt d hlen hi (by omega),
        refreshStep_getD d (by omega) _ hi, if_pos rfl, List.getD_cons_zero]
    | succ k =>
      rw [show i + (k + 1) = i + 1 + k by omega, ih hlen (by omega) (by omega),
        refreshStep_getD d (by omega) _ (by omega), if_neg (by omega), List.getD_cons_succ]

end Sys2Proof.Machine

/-! PROOF. The results of the lifecycle commands (40_lifecycle), each from what its body makes of the
words it draws. -/

namespace Sys2Proof.Machine

/-! ## The commands that write one slot -/

/-- Settles O33: the one slot written is in the file. -/
theorem allocResult : Obligations.AllocResult := by
  intro s rd dom ord wc hinv herr
  have hc := checksOf_pass herr
  simp only [checksOf, newSlotChecks, firstFail_cons_eq_none] at hc
  obtain ⟨hrange, -⟩ := hc
  exact exec_writes_slot_of_pure rfl herr (.inl (hinv.slot_in_file hrange))

/-- Settles O34: MaskShares made the shares, and share 0 closes the secret. -/
theorem maskResult : Obligations.MaskResult := by
  intro s q rd dom ord wc ws rest hinv hq herr hanswers hlen
  have hc := checksOf_pass herr
  simp only [checksOf, newSlotChecks, firstFail_cons_eq_none] at hc
  obtain ⟨hrange, -⟩ := hc
  have hrun := runsTo_maskShares dom (s.dinL.setWidth (widthBits wc)) ws
  rw [hlen] at hrun
  obtain ⟨t, hexec, hdone, hdout, hothers, hslot⟩ := exec_writes_slot (c := .mask rd dom ord wc)
    rfl herr (hrun.map _) hanswers (.inl (hinv.slot_in_file hrange))
  rw [hlen] at hdone
  refine ⟨t, hexec, hdone, hdout, hothers, ?_⟩
  rw [hslot]
  refine ⟨rfl, rfl, rfl, rfl, ?secret, fun k hk => ?drawn, fun k hk => ?unused⟩
  case secret =>
    rw [slotSecret_newSlot _ _ (by simp [hlen]), secretOf_maskedShares, State.dinL, hq, lowBits]
  case drawn =>
    rw [newSlot_sh_getD, if_pos (by simpa [hlen] using hk), maskedShares_getD_succ]
    rfl
  case unused =>
    rw [newSlot_sh_getD, if_neg (by simpa [hlen] using hk)]

/-- Settles O36: every round of RefreshShares keeps the secret and folds its word into its share. -/
theorem refreshResult : Obligations.RefreshResult := by
  intro s rd ws rest herr hanswers hlen
  have hc := checksOf_pass herr
  simp only [checksOf, liveChecks, firstFail_cons_eq_none] at hc
  obtain ⟨-, hlive, -⟩ := hc
  have hcount : (readShares (s.slot rd.toNat) (widthBits (s.slot rd.toNat).wc)).length =
      ws.length + 1 := by
    rw [readShares_length, shareCount, hlen]
  obtain ⟨t, hexec, hdone, hdout, hothers, hslot⟩ := exec_writes_slot (c := .refresh rd) rfl herr
    ((runsTo_refreshShares (s.slot rd.toNat).dom hcount).map _) hanswers
    (.inl (lt_length_of_live hlive))
  rw [hlen] at hdone
  refine ⟨t, hexec, hdone, hdout, hothers, ?_⟩
  rw [hslot]
  refine ⟨⟨hlive, rfl, rfl, rfl, ?secret, fun k hk => ?unused⟩, fun k hk => ?folded⟩
  case secret =>
    rw [slotSecret_writeShares (by simp), secretOf_refreshedFrom _ (by omega), slotSecret]
  case unused =>
    rw [writeShares_sh_getD, if_neg (by simpa using hk)]
  case folded =>
    rw [writeShares_sh_getD, if_pos (by simpa [shareCount] using hk), Nat.add_comm k,
      refreshedFrom_getD _ (by omega) one_ne_zero (by omega), readShares_getD,
      if_pos (by rw [shareCount]; omega)]
    cases (s.slot rd.toNat).dom
    case boolean => simp [addWord, lowBits, slotBits, BitVec.setWidth_xor]
    case arith => simp [addWord, lowBits, slotBits, BitVec.setWidth_add _ _ (widthBits_le _)]

/-- Settles O37: the copy has as many shares as the source, which is legal. -/
theorem cloneResult : Obligations.CloneResult := by
  intro s rd rs1 zero hinv herr
  have hc := checksOf_pass herr
  simp only [checksOf, firstFail_cons_eq_none, Bool.and_eq_true] at hc
  obtain ⟨⟨hrange, -⟩, hlive, -⟩ := hc
  have hshares := (liveOk_of_live hlive hinv.slot_ok).length
  rw [← hshares, ← List.map_const']
  exact exec_writes_slot_of_pure rfl herr (.inl (hinv.slot_in_file hrange))

/-- Settles O38: a free record outside the file is what the file shows there anyway. -/
theorem freeResult : Obligations.FreeResult := fun _ _ herr =>
  exec_writes_slot_of_pure rfl herr (.inr rfl)

/-! ## The batch commands -/

/-- A loop that writes the record `r j` to slot `a + j` for every `j` of a list. -/
theorem slotAt_foldl_setSlot {p : Params} {a : Nat} {r : Nat → Slot} {l : List Nat} {x : List Slot}
    (h : ∀ j ∈ l, a + j < x.length ∨ r j = Slot.free p) (i : Nat) :
    slotAt p (l.foldl (fun x j => setSlot x (a + j) (r j)) x) i =
      if a ≤ i ∧ i - a ∈ l then r (i - a) else slotAt p x i := by
  induction l generalizing x with
  | nil => simp
  | cons j l ih =>
    rw [List.foldl_cons, ih (by simpa using fun k hk => h k (List.mem_cons_of_mem j hk))]
    by_cases hi : a + j = i
    · subst hi
      simp [slotAt_setSlot_self (h j List.mem_cons_self)]
    · have hne : a ≤ i → i - a ≠ j := by omega
      rw [slotAt_setSlot_other p x _ hi]
      simp only [List.mem_cons]
      exact if_congr (and_congr_right fun hai => (or_iff_right (hne hai)).symm) rfl rfl

theorem foldl_setSlot_length {a : Nat} {r : Nat → Slot} {l : List Nat} (x : List Slot) :
    (l.foldl (fun x j => setSlot x (a + j) (r j)) x).length = x.length := by
  induction l generalizing x with
  | nil => rfl
  | cons j l ih => rw [List.foldl_cons, ih, setSlot_length]

/-- A loop that skips the elements with `c` is a loop over the others. -/
theorem foldl_skip {α β : Type} (c : α → Bool) (f : β → α → β) (l : List α) (b : β) :
    l.foldl (fun b a => if c a then b else f b a) b = (l.filter fun a => !c a).foldl f b := by
  rw [List.foldl_filter]
  congr
  funext b a
  cases c a <;> rfl

/-- Settles O39: the range lies in the file. -/
theorem allocmResult : Obligations.AllocmResult := by
  intro s rd cnt dom ord wc hinv herr
  have hc := checksOf_pass herr
  simp only [checksOf, firstFail_cons_eq_none, Bool.and_eq_true, batchInRange,
    decide_eq_true_eq] at hc
  obtain ⟨⟨-, hrange⟩, -⟩ := hc
  obtain ⟨-, hfile, -, -, -⟩ := hinv
  obtain ⟨t, hexec, hdone, -, hdout, hslot⟩ := exec_of_pure (i := .allocm rd cnt dom ord wc) rfl herr
    (foldl_setSlot_length s.slots)
  refine ⟨t, hexec, hdone, hdout, fun i => ?_⟩
  rw [hslot, slotAt_foldl_setSlot fun j hj => .inl (by rw [List.mem_range] at hj; omega)]
  exact if_congr (by rw [List.mem_range]; omega) rfl rfl

/-- Settles O40: the elements that the mask does not name are cleared, whether or not they lie in the
file. -/
theorem freemResult : Obligations.FreemResult := by
  intro s q rd cnt hq herr
  have hdinL : s.dinL = q.dinL := by rw [State.dinL, hq]
  obtain ⟨t, hexec, hdone, -, hdout, hslot⟩ := exec_of_pure (i := .freem rd cnt) rfl herr
    (by rw [foldl_skip, foldl_setSlot_length])
  refine ⟨t, hexec, hdone, hdout, fun i => ?_⟩
  rw [hslot, foldl_skip, slotAt_foldl_setSlot fun j _ => .inr rfl, hdinL]
  refine if_congr ?_ rfl rfl
  rw [List.mem_filter, List.mem_range, Bool.not_eq_true', ← and_assoc, ← and_assoc]
  exact and_congr_left' (by omega)

/-! ## The commands that change no slot -/

/-- Settles O32: with no draw, RCNT and the answers stay as they were. -/
theorem nopResult : Obligations.NopResult := by
  intro s
  have h : exec .nop s = .next (commit s { slots := s.slots, dout := s.dout }
      { answers := s.env.answers, count := 0 }) := runCommand_pure (cs := []) _ rfl
  simp [h, commit]

/-- Settles O35: UNMASK's effect is the secret in DOUT. -/
theorem unmaskResult : Obligations.UnmaskResult := by
  intro s rd herr
  obtain ⟨t, hexec, hdone, hslots, hdout, -⟩ := exec_of_pure (i := .unmask rd) rfl herr rfl
  exact ⟨t, hexec, hdone, hslots, hdout⟩

theorem toNat_append_eq_add {m n : Nat} (x : BitVec m) (y : BitVec n) :
    (x ++ y).toNat = x.toNat * 2 ^ n + y.toNat := by
  rw [BitVec.toNat_append, ← Nat.shiftLeft_add_eq_or_of_lt y.isLt, Nat.shiftLeft_eq]

/-- The fields of INFO's word do not overlap (40_lifecycle R151). -/
theorem toNat_infoWord (r : Slot) : (infoWord r).toNat =
    r.valid.toNat + 2 * (domainBit r.dom).toNat + 16 * r.ord.toNat +
      256 * (widthCode r.wc).toNat + 65536 * (4 * r.ord.toNat + (widthCode r.wc).toNat) := by
  simp only [infoWord, sig, toNat_append_eq_add, BitVec.toNat_ofBool, BitVec.toNat_zero]
  ring

/-- Settles O41: INFO's effect is the metadata word in DOUT. -/
theorem infoResult : Obligations.InfoResult := by
  intro s rd herr
  obtain ⟨t, hexec, hdone, hslots, hdout, -⟩ := exec_of_pure (i := .info rd) rfl herr rfl
  exact ⟨t, hexec, hdone, hslots, by rw [hdout]; exact toNat_infoWord _⟩

end Sys2Proof.Machine

/-! PROOF. What every answer of a drawing computation satisfies, whatever it draws; the XOR of a share
vector; and the product of DomAnd (41_boolean R190). -/

namespace Sys2Proof.Machine

/-! ## What every answer satisfies -/

/-- Whatever `m` draws, an answer it gives satisfies `P`. -/
def Yields {α : Type} (m : Draw α) (P : α → Prop) : Prop :=
  ∀ (p : Port) (a : α) (p' : Port), m p = .ok (a, p') → P a

theorem yields_pure {α : Type} {a : α} {P : α → Prop} (h : P a) : Yields (pure a) P := by
  rintro p b p' ⟨⟩
  exact h

theorem Yields.bind {α β : Type} {m : Draw α} {g : α → Draw β} {P : α → Prop} {Q : β → Prop}
    (hm : Yields m P) (hg : ∀ a, P a → Yields (g a) Q) : Yields (m >>= g) Q := by
  intro p b p' h
  change (m p >>= fun ap => g ap.1 ap.2) = _ at h
  cases hp : m p with
  | error r => rw [hp] at h; cases h
  | ok ap => rw [hp] at h; exact hg _ (hm p _ _ hp) _ _ _ h

theorem yields_draw_then {w : Nat} {β : Type} {g : BitVec w → Draw β} {Q : β → Prop}
    (hg : ∀ r, Yields (g r) Q) : Yields (draw w >>= g) Q :=
  Yields.bind (P := fun _ => True) (fun _ _ _ _ => trivial) fun r _ => hg r

theorem Yields.mono {α : Type} {m : Draw α} {P Q : α → Prop} (h : Yields m P)
    (hPQ : ∀ a, P a → Q a) : Yields m Q := fun p a p' hp => hPQ a (h p a p' hp)

theorem Yields.and {α : Type} {m : Draw α} {P Q : α → Prop} (hP : Yields m P) (hQ : Yields m Q) :
    Yields m fun a => P a ∧ Q a := fun p a p' h => ⟨hP p a p' h, hQ p a p' h⟩

theorem DrawsExactly.yields {α : Type} {m : Draw α} {k : Nat} {P : α → Prop}
    (h : DrawsExactly m k P) : Yields m P := by
  obtain ⟨f, hf, hm⟩ := h
  intro p a p' hp
  rw [hm] at hp
  rcases takeWords_cases k p.answers with ⟨ws, rest, -, hk, ht⟩ | ⟨ws, -, -, ht⟩ |
    ⟨ws, rest, -, -, ht⟩ <;> rw [ht] at hp <;> cases hp
  exact hf ws hk

/-- With enough words before it, a drawing computation answers. -/
theorem DrawsExactly.exists_runsTo {α : Type} {m : Draw α} {k : Nat} {P : α → Prop}
    (h : DrawsExactly m k P) {ws : List Word} (hws : ws.length = k) : ∃ a, P a ∧ RunsTo m ws a := by
  obtain ⟨f, hf, hm⟩ := h
  subst hws
  exact ⟨f ws, hf ws rfl, fun rest c => by rw [hm, takeWords_words]⟩

theorem RunsTo.of_yields {α : Type} {m : Draw α} {ws : List Word} {a : α} {P : α → Prop}
    (h : RunsTo m ws a) (hm : Yields m P) : P a := hm _ _ _ (h [] 0)

/-- The draws counted, and what every answer satisfies. -/
theorem DrawsExactly.with_yields {α : Type} {m : Draw α} {k : Nat} {P Q : α → Prop}
    (h : DrawsExactly m k P) (hQ : Yields m Q) : DrawsExactly m k fun a => P a ∧ Q a := by
  obtain ⟨f, hf, hm⟩ := h
  refine ⟨f, fun ws hws => ⟨hf ws hws, RunsTo.of_yields (ws := ws) (fun rest c => ?_) hQ⟩, hm⟩
  rw [hm, ← hws, takeWords_words]

/-- A command whose checks pass and whose draws are answered completes with an effect its body
allows. -/
theorem exec_of_drawsExactly {i : Instr} {s : State} {b : Draw Effect} {P : Effect → Prop}
    {ws : List Word} {rest : List Answer} (hexec : exec i s = runCommand s (checksOf s i) b)
    (herr : errorOf s i = none) (hb : DrawsExactly b (drawsOf s i) P)
    (hlen : ∀ {e}, P e → e.slots.length = s.slots.length)
    (hanswers : s.env.answers = ws.map .word ++ rest) (hws : ws.length = drawsOf s i) :
    ∃ e t, P e ∧ exec i s = .next t ∧ Completed s t (drawsOf s i) rest ∧ t.dout = e.dout ∧
      ∀ j, t.slot j = slotAt s.cfg e.slots j := by
  obtain ⟨e, he, hrun⟩ := hb.exists_runsTo hws
  obtain ⟨t, ht, hdone, -, hdout, hslot⟩ := exec_of_runsTo hexec herr hrun hanswers (hlen he)
  exact ⟨e, t, he, ht, hws ▸ hdone, hdout, hslot⟩

/-! ## The XOR of a share vector -/

@[simp] theorem xorAll_nil {w : Nat} : xorAll ([] : List (BitVec w)) = 0 := rfl

theorem xorAll_append {w : Nat} (s t : List (BitVec w)) :
    xorAll (s ++ t) = xorAll s ^^^ xorAll t := by
  induction s with
  | nil => simp
  | cons a s ih => simp [xorAll_cons, ih, BitVec.xor_assoc]

theorem xorAll_vecXor {w : Nat} {a b : List (BitVec w)} (h : a.length = b.length) :
    xorAll (vecXor a b) = xorAll a ^^^ xorAll b := by
  induction a generalizing b with
  | nil =>
    obtain rfl := List.eq_nil_of_length_eq_zero h.symm
    simp [vecXor]
  | cons x a ih =>
    cases b with
    | nil => simp at h
    | cons y b =>
      have ih := ih (b := b) (by simpa using h)
      simp only [vecXor, List.zipWith_cons_cons, xorAll_cons] at ih ⊢
      rw [ih]
      ac_rfl

/-- A function that distributes over XOR acts on the XOR as on every share. -/
theorem xorAll_map {v w : Nat} {f : BitVec v → BitVec w} (hf : ∀ x y, f (x ^^^ y) = f x ^^^ f y)
    (s : List (BitVec v)) : xorAll (s.map f) = f (xorAll s) := by
  induction s with
  | nil =>
    have h0 := hf 0 0
    simp only [BitVec.xor_self] at h0
    simpa using h0.symm
  | cons a s ih => simp [xorAll_cons, ih, hf]

theorem xorAll_vecShl {w : Nat} (s : List (BitVec w)) (d : Nat) :
    xorAll (vecShl s d) = xorAll s <<< d :=
  xorAll_map (fun x y => BitVec.shiftLeft_xor_distrib x y d) s

/-! ## DomAnd (41_boolean R190) -/

/-- The pairs with 0, then the pairs of the rest (00_scope R18). -/
theorem pairs_succ (n : Nat) : pairs (n + 1) =
    (List.range n).map (fun j => (0, j + 1)) ++ (pairs n).map fun ij => (ij.1 + 1, ij.2 + 1) := by
  have hrow (i : Nat) : (List.range' (i + 1 + 1) (n + 1 - 1 - (i + 1))).map (fun j => (i + 1, j)) =
      (List.range' (i + 1) (n - 1 - i)).map fun j => (i + 1, j + 1) := by
    rw [List.range'_succ_left, List.map_map, show n + 1 - 1 - (i + 1) = n - 1 - i by omega]
    rfl
  have hzero : (List.range' (0 + 1) (n + 1 - 1 - 0)).map (fun j => (0, j)) =
      (List.range n).map fun j => (0, j + 1) := by
    rw [List.range'_succ_left, List.map_map, List.range_eq_range']
    rfl
  rw [pairs, List.range_succ_eq_map, List.flatMap_cons, List.flatMap_map, hzero]
  simp only [Nat.succ_eq_add_one, hrow, pairs, List.map_flatMap, List.map_map]
  rfl

theorem pairs_lt {n : Nat} {ij : Nat × Nat} (h : ij ∈ pairs n) : ij.1 < n ∧ ij.2 < n := by
  simp only [pairs, List.mem_flatMap, List.mem_range, List.mem_map, List.mem_range'] at h
  obtain ⟨i, hi, j, ⟨k, hk, rfl⟩, rfl⟩ := h
  exact ⟨hi, by omega⟩

/-- The XOR of two shares, multiplied out. -/
theorem xor_and_xor {w : Nat} (x y u v : BitVec w) :
    (x ^^^ u) &&& (y ^^^ v) = (x &&& y) ^^^ ((x &&& v) ^^^ (u &&& y)) ^^^ (u &&& v) := by
  ext i hi
  simp only [BitVec.getElem_and, BitVec.getElem_xor]
  grind

theorem xor_update_pair {w : Nat} (v x y p q r : BitVec w) :
    v ^^^ (x ^^^ (x ^^^ (p ^^^ r))) ^^^ (y ^^^ (y ^^^ (q ^^^ r))) = v ^^^ (p ^^^ q) := by
  have hbit : ∀ v x y p q r : Bool,
      ((v ^^ (x ^^ (x ^^ (p ^^ r)))) ^^ (y ^^ (y ^^ (q ^^ r)))) = (v ^^ (p ^^ q)) := by decide
  exact BitVec.eq_of_getElem_eq fun i hi => by simpa only [BitVec.getElem_xor] using hbit ..

/-- What the pair `(i, j)` adds to the XOR of the shares. -/
def crossAnd {w : Nat} (a b : List (BitVec w)) (ij : Nat × Nat) : BitVec w :=
  (a.getD ij.1 0 &&& b.getD ij.2 0) ^^^ (a.getD ij.2 0 &&& b.getD ij.1 0)

/-- The random word of a round goes into two shares, and cancels. -/
theorem yields_domAndRound {w : Nat} (a b : List (BitVec w)) {o : List (BitVec w)} {ij : Nat × Nat}
    (hi : ij.1 < o.length) (hj : ij.2 < o.length) :
    Yields (domAndRound a b o ij) fun o' =>
      o'.length = o.length ∧ xorAll o' = xorAll o ^^^ crossAnd a b ij := by
  refine yields_draw_then fun r => yields_pure ⟨by simp, ?_⟩
  rw [xorAll_updateShare (by simpa using hj), xorAll_updateShare hi]
  exact xor_update_pair ..

theorem yields_domAndRounds {w : Nat} (a b : List (BitVec w)) {l : List (Nat × Nat)}
    {o : List (BitVec w)} (hl : ∀ ij ∈ l, ij.1 < o.length ∧ ij.2 < o.length) :
    Yields (l.foldlM (domAndRound a b) o) fun o' =>
      xorAll o' = xorAll o ^^^ xorAll (l.map (crossAnd a b)) := by
  induction l generalizing o with
  | nil => exact yields_pure (by simp)
  | cons ij l ih =>
    rw [List.forall_mem_cons] at hl
    obtain ⟨⟨hi, hj⟩, hl⟩ := hl
    rw [List.foldlM_cons]
    refine (yields_domAndRound a b hi hj).bind fun o' ⟨hlen, hxor⟩ =>
      (ih (by rwa [hlen])).mono fun o'' ho'' => ?_
    rw [ho'', hxor, List.map_cons, xorAll_cons, BitVec.xor_assoc]

/-- The products of a share `x` of one vector with the other vector's shares, and the other way. -/
theorem xorAll_products {w : Nat} (x y : BitVec w) {a b : List (BitVec w)}
    (h : a.length = b.length) :
    xorAll ((List.range a.length).map fun j => (x &&& b.getD j 0) ^^^ (a.getD j 0 &&& y)) =
      (x &&& xorAll b) ^^^ (xorAll a &&& y) := by
  induction a generalizing b with
  | nil =>
    obtain rfl := List.eq_nil_of_length_eq_zero h.symm
    simp
  | cons u a ih =>
    obtain _ | ⟨v, b⟩ := b
    · simp at h
    · rw [List.length_cons, List.range_succ_eq_map, List.map_cons, List.map_map, xorAll_cons]
      simp only [Function.comp_def, List.getD_cons_succ, List.getD_cons_zero, xorAll_cons,
        Nat.succ_eq_add_one, ih (Nat.succ.inj h)]
      ext i hi
      simp only [BitVec.getElem_and, BitVec.getElem_xor]
      grind

/-- The shares' own products and the pairs' products are all the products of a share of `a` and a share
of `b`. -/
theorem xorAll_vecAnd_crossAnd {w : Nat} {a b : List (BitVec w)} (h : a.length = b.length) :
    xorAll (vecAnd a b) ^^^ xorAll ((pairs a.length).map (crossAnd a b)) = xorAll a &&& xorAll b := by
  induction a generalizing b with
  | nil => simp [vecAnd, pairs]
  | cons x a ih =>
    obtain _ | ⟨y, b⟩ := b
    · simp at h
    · have h : a.length = b.length := Nat.succ.inj h
      have hand : vecAnd (x :: a) (y :: b) = (x &&& y) :: vecAnd a b := rfl
      rw [List.length_cons, pairs_succ, List.map_append, List.map_map, List.map_map, xorAll_append,
        hand, xorAll_cons, xorAll_cons, xorAll_cons, xor_and_xor, ← ih h, ← xorAll_products x y h]
      simp only [Function.comp_def, crossAnd, List.getD_cons_succ, List.getD_cons_zero]
      ac_rfl

theorem yields_domAnd {w : Nat} {a b : List (BitVec w)} (h : a.length = b.length) :
    Yields (domAnd a b) fun o => o.length = a.length ∧ xorAll o = xorAll a &&& xorAll b := by
  refine (drawsExactly_domAnd a b).yields.and (yields_domAndRounds a b fun ij hij => ?_) |>.mono
    fun o ⟨hlen, hxor⟩ => ⟨by rw [hlen, h, Nat.min_self], by rw [hxor, xorAll_vecAnd_crossAnd h]⟩
  simpa [h] using pairs_lt hij

/-- Settles O55: the shares hold every product of a share of `a` and a share of `b` once, and every
random word twice. -/
theorem domAndKeepsProduct : Obligations.DomAndKeepsProduct := by
  intro w a b o p p' h hrun
  obtain ⟨-, hxor⟩ := yields_domAnd h p o p' hrun
  exact hxor

end Sys2Proof.Machine

/-! PROOF. A2B keeps the secret (43_domain R260 to R272): the masked copies, the carry-save tree and the
Kogge-Stone adder, each by what it does to the secrets. -/

namespace Sys2Proof.Machine

/-! ## The carry-save tree (43_domain R260 to R264) -/

/-- Two vectors without a common bit are added by joining their bits. -/
theorem add_eq_of_disjoint {w : Nat} {x y z : BitVec w} (hand : ∀ i (_ : i < w), (x[i] && y[i]) = false)
    (hor : ∀ i (_ : i < w), (x[i] || y[i]) = z[i]) : x + y = z := by
  have hzero : x &&& y = 0#w := BitVec.eq_of_getElem_eq fun i hi => by simpa using hand i hi
  rw [BitVec.add_eq_or_of_and_eq_zero x y hzero]
  exact BitVec.eq_of_getElem_eq fun i hi => by simpa using hor i hi

theorem shiftLeft_one_eq_add {w : Nat} (x : BitVec w) : x <<< 1 = x + x := by
  apply BitVec.eq_of_toNat_eq
  rw [BitVec.toNat_shiftLeft, BitVec.toNat_add, Nat.shiftLeft_eq, pow_one, Nat.mul_two]

/-- A sum is the bits' XOR and their carries, which stand one place higher. -/
theorem add_eq_xor_add_and {w : Nat} (x y : BitVec w) : x + y = (x ^^^ y) + ((x &&& y) <<< 1) := by
  have hsplit : ∀ u v : BitVec w, (u &&& ~~~v) + (u &&& v) = u := fun u v =>
    add_eq_of_disjoint (fun i hi => by grind) (fun i hi => by grind)
  have hxor : (x &&& ~~~y) + (y &&& ~~~x) = x ^^^ y :=
    add_eq_of_disjoint (fun i hi => by grind) (fun i hi => by grind)
  calc x + y = ((x &&& ~~~y) + (x &&& y)) + ((y &&& ~~~x) + (y &&& x)) := by rw [hsplit, hsplit]
    _ = ((x &&& ~~~y) + (y &&& ~~~x)) + ((x &&& y) + (x &&& y)) := by rw [BitVec.and_comm y x]; ring
    _ = (x ^^^ y) + ((x &&& y) <<< 1) := by rw [hxor, shiftLeft_one_eq_add]

/-- A full adder at every bit: the XOR of the three bits and their majority, one place higher. -/
theorem xor_add_majority {w : Nat} (x y z : BitVec w) :
    (x ^^^ y ^^^ z) + (x ^^^ ((x ^^^ y) &&& (x ^^^ z))) <<< 1 = x + y + z := by
  have hmaj : ((x ^^^ y) &&& z) + (x &&& y) = x ^^^ ((x ^^^ y) &&& (x ^^^ z)) :=
    add_eq_of_disjoint (fun i hi => by grind) (fun i hi => by grind)
  calc (x ^^^ y ^^^ z) + (x ^^^ ((x ^^^ y) &&& (x ^^^ z))) <<< 1
      = ((x ^^^ y ^^^ z) + ((x ^^^ y) &&& z) <<< 1) + (x &&& y) <<< 1 := by
        rw [← hmaj, BitVec.shiftLeft_add_distrib, add_assoc]
    _ = ((x ^^^ y) + (x &&& y) <<< 1) + z := by rw [← add_eq_xor_add_and]; ring
    _ = x + y + z := by rw [← add_eq_xor_add_and]

theorem yields_csa {w n : Nat} {x y z : List (BitVec w)} (hx : x.length = n) (hy : y.length = n)
    (hz : z.length = n) : Yields (csa x y z) fun r => r.1.length = n ∧ r.2.length = n ∧
      xorAll r.1 + xorAll r.2 = xorAll x + xorAll y + xorAll z := by
  refine (yields_domAnd (by simp [hx, hy, hz])).bind fun v ⟨hlen, hv⟩ => yields_pure ?_
  have hlen : v.length = n := by simpa [hx, hy] using hlen
  refine ⟨by simp [hx, hy, hz], by simp [hx, hlen], ?_⟩
  rw [xorAll_vecShl, xorAll_vecXor (hx.trans hlen.symm), hv, xorAll_vecXor (by simp [hx, hy, hz]),
    xorAll_vecXor (hx.trans hy.symm), xorAll_vecXor (hx.trans hz.symm), xor_add_majority]

theorem sumAll_append {w : Nat} (s t : List (BitVec w)) : sumAll (s ++ t) = sumAll s + sumAll t := by
  induction s with
  | nil => simp [sumAll]
  | cons a s ih => rw [List.cons_append, sumAll_cons, sumAll_cons, ih, add_assoc]

theorem xorAll_map_zero {w : Nat} (s : List (BitVec w)) : xorAll (s.map fun _ => (0 : BitVec w)) = 0 :=
  xorAll_map (by simp) s

/-- The tree keeps the sum of the vectors' secrets. -/
theorem yields_csaTree {w n : Nat} (f : Nat) {bs : List (List (BitVec w))}
    (h1 : 1 ≤ bs.length) (hf : bs.length ≤ f) (hn : ∀ b ∈ bs, b.length = n) :
    Yields (csaTree f bs) fun r => r.1.length = n ∧ r.2.length = n ∧
      xorAll r.1 + xorAll r.2 = sumAll (bs.map xorAll) := by
  induction f generalizing bs with
  | zero => omega
  | succ f ih =>
    match bs, h1, hf, hn with
    | [s], _, _, hn =>
      have hs := hn s (by simp)
      exact yields_pure ⟨hs, by simpa using hs, by rw [xorAll_map_zero]; rfl⟩
    | [s, c], _, _, hn => exact yields_pure (by simpa [sumAll] using hn)
    | [x, y, z], _, _, hn =>
      refine (yields_csa (hn x (by simp)) (hn y (by simp)) (hn z (by simp))).mono
        fun r ⟨h1, h2, hsum⟩ => ⟨h1, h2, ?_⟩
      simp [hsum, sumAll, add_assoc]
    | a :: b :: c :: d :: l, _, hf, hn =>
      set bs := a :: b :: c :: d :: l with hbs
      have hl : 4 ≤ bs.length := by simp [hbs]
      refine (ih (bs := bs.take (bs.length / 2)) (by simp; omega) (by simp; omega)
        fun e he => hn e (List.mem_of_mem_take he)).bind fun p ⟨hp1, hp2, hp⟩ => ?_
      refine (ih (bs := bs.drop (bs.length / 2)) (by simp; omega) (by simp; omega)
        fun e he => hn e (List.mem_of_mem_drop he)).bind fun q ⟨hq1, hq2, hq⟩ => ?_
      refine (yields_csa hp1 hp2 hq1).bind fun t ⟨ht1, ht2, ht⟩ => ?_
      refine (yields_csa ht1 ht2 hq2).mono fun r ⟨hr1, hr2, hr⟩ => ⟨hr1, hr2, ?_⟩
      rw [hr, ht, hp, add_assoc, hq, ← sumAll_append, ← List.map_append, List.take_append_drop]

theorem yields_maskShares {w : Nat} (v : BitVec w) (d : Domain) {n : Nat} (hn : 1 ≤ n) :
    Yields (maskShares v d n) fun s => s.length = n ∧ secretOf d s = v := by
  refine (drawsExactly_drawMany w (n - 1)).yields.bind fun rs hrs => ?_
  cases d
  case boolean => exact yields_pure ⟨by simp [hrs]; omega, addWord_removeWord .boolean v (xorAll rs)⟩
  case arith => exact yields_pure ⟨by simp [hrs]; omega, addWord_removeWord .arith v (sumAll rs)⟩

theorem yields_maskEach {w n : Nat} (hn : 1 ≤ n) (vs : List (BitVec w)) :
    Yields (maskEach n vs) fun bs => (∀ b ∈ bs, b.length = n) ∧ bs.map xorAll = vs := by
  induction vs with
  | nil => exact yields_pure (by simp)
  | cons v vs ih =>
    refine (yields_maskShares v .boolean hn).bind fun b ⟨hlen, hb⟩ => ih.bind fun bs ⟨hlens, hbs⟩ =>
      yields_pure ⟨List.forall_mem_cons.2 ⟨hlen, hlens⟩, ?_⟩
    rw [List.map_cons, hbs]
    exact congrArg (· :: vs) hb

/-! ## The Kogge-Stone adder (43_domain R270) -/

/-- `g` and `p` tell the carries of `x + y` over `m` bits: the carry out of bit `i` is generated in the
`m` bits up to it, or comes from below them and goes through. Below bit 0 there is no carry. -/
def CarriesOver {w : Nat} (x y : BitVec w) (m : Nat) (g p : BitVec w) : Prop :=
  ∀ i < w, BitVec.carry (i + 1) x y false =
    (g.getLsbD i ^^ (p.getLsbD i && BitVec.carry (i + 1 - m) x y false))

theorem carriesOver_one {w : Nat} (x y : BitVec w) : CarriesOver x y 1 (x &&& y) (x ^^^ y) := by
  intro i hi
  rw [BitVec.carry_succ, Nat.add_sub_cancel, BitVec.getLsbD_and, BitVec.getLsbD_xor]
  cases x.getLsbD i <;> cases y.getLsbD i <;> simp [Bool.atLeastTwo]

/-- A round doubles the span. -/
theorem CarriesOver.double {w : Nat} {x y : BitVec w} {m : Nat} {g p : BitVec w}
    (h : CarriesOver x y m g p) :
    CarriesOver x y (2 * m) (g ^^^ (p &&& g <<< m)) (p &&& p <<< m) := by
  intro i hi
  rw [h i hi]
  simp only [BitVec.getLsbD_xor, BitVec.getLsbD_and, BitVec.getLsbD_shiftLeft, hi, decide_true,
    Bool.true_and]
  by_cases hm : i < m
  · rw [show i + 1 - m = 0 by omega]
    simp [hm]
  · rw [show i + 1 - m = i - m + 1 by omega, h (i - m) (by omega),
      show i - m + 1 - m = i + 1 - 2 * m by omega]
    simp only [hm, decide_false, Bool.not_false, Bool.true_and, Bool.and_xor_distrib_left,
      Bool.xor_assoc, Bool.and_assoc]

/-- Over the full width the generated carries are all the carries. -/
theorem CarriesOver.add_eq {w : Nat} {x y g p : BitVec w} (h : CarriesOver x y w g p) :
    (x ^^^ y) ^^^ g <<< 1 = x + y := by
  apply BitVec.eq_of_getLsbD_eq
  intro i hi
  have hcarry : BitVec.carry i x y false = (!decide (i < 1) && g.getLsbD (i - 1)) := by
    cases i with
    | zero => simp
    | succ i => simp [h i (by omega), show i + 1 - w = 0 by omega]
  simp only [BitVec.getLsbD_add hi, hcarry, BitVec.getLsbD_xor, BitVec.getLsbD_shiftLeft, hi,
    decide_true, Bool.true_and, Bool.xor_assoc]

/-- The rounds at the distances 2^k, ..., 2^(k + c - 1). -/
theorem yields_ksRounds {w n : Nat} {x y : BitVec w} (k c : Nat) {g p : List (BitVec w)}
    (hg : g.length = n) (hp : p.length = n) (h : CarriesOver x y (2 ^ k) (xorAll g) (xorAll p)) :
    Yields (ksRounds ((List.range' k c).map (2 ^ ·)) g p) fun o => o.length = n ∧
      ∃ q, CarriesOver x y (2 ^ (k + c)) (xorAll o) q := by
  induction c generalizing k g p with
  | zero => exact yields_pure ⟨hg, _, h⟩
  | succ c ih =>
    rw [List.range'_succ, List.map_cons]
    refine (yields_domAnd (by simp [hp, hg])).bind fun u ⟨hu, hgu⟩ => ?_
    refine (yields_domAnd (by simp)).bind fun p' ⟨hp', hpp⟩ => ?_
    refine (ih (k + 1) (by simp [hg, hu, hp]) (hp'.trans hp) ?_).mono fun o ho => by
      rwa [Nat.add_right_comm] at ho
    rw [xorAll_vecXor (by simp [hg, hu, hp]), hgu, hpp, xorAll_vecShl, xorAll_vecShl, pow_succ']
    exact h.double

/-- All the rounds together tell every carry. -/
theorem yields_ksRounds_ksDistances {w n : Nat} (hw : 2 ^ Nat.log2 w = w) {x y : BitVec w}
    {g p : List (BitVec w)} (hg : g.length = n) (hp : p.length = n) (hgen : xorAll g = x &&& y)
    (hprop : xorAll p = x ^^^ y) :
    Yields (ksRounds (ksDistances w) g p) fun o =>
      o.length = n ∧ (x ^^^ y) ^^^ xorAll o <<< 1 = x + y := by
  have hfirst : CarriesOver x y (2 ^ 0) (xorAll g) (xorAll p) := by
    rw [hgen, hprop]
    exact carriesOver_one x y
  have hrounds := yields_ksRounds 0 (Nat.log2 w) hg hp hfirst
  rw [Nat.zero_add, hw, ← List.range_eq_range'] at hrounds
  exact hrounds.mono fun o ⟨ho, q, hcarries⟩ => ⟨ho, hcarries.add_eq⟩

theorem yields_ksAdd {w n : Nat} (hw : 2 ^ Nat.log2 w = w) {s c : List (BitVec w)}
    (hs : s.length = n) (hc : c.length = n) :
    Yields (ksAdd s c) fun o => o.length = n ∧ xorAll o = xorAll s + xorAll c := by
  have hsc : s.length = c.length := hs.trans hc.symm
  refine (yields_domAnd hsc).bind fun g ⟨hg, hgen⟩ => ?_
  refine (yields_ksRounds_ksDistances hw (hg.trans hs) (by simp [hs, hc]) hgen
    (xorAll_vecXor hsc)).bind fun o ⟨ho, hsum⟩ => yields_pure ⟨by simp [hs, hc, ho], ?_⟩
  rw [xorAll_vecXor (by simp [hs, hc, ho]), xorAll_vecXor hsc, xorAll_vecShl, hsum]

theorem two_pow_log2_widthBits (wc : Width) : 2 ^ Nat.log2 (widthBits wc) = widthBits wc := by
  cases wc <;> decide

/-- A2B turns the sum of the shares into their XOR (43_domain R272). -/
theorem yields_a2b {wc : Width} {a : List (BitVec (widthBits wc))} (h : 1 ≤ a.length) :
    Yields (a2b a) fun o => o.length = a.length ∧ xorAll o = sumAll a := by
  refine (yields_maskEach h a).bind fun bs ⟨hlens, hbs⟩ => ?_
  have hlen : bs.length = a.length := by rw [← hbs, List.length_map]
  refine (yields_csaTree a.length (by omega) hlen.le hlens).bind fun sc ⟨h1, h2, hsum⟩ => ?_
  refine (yields_ksAdd (two_pow_log2_widthBits wc) h1 h2).mono fun o ⟨ho, hxor⟩ => ⟨ho, ?_⟩
  rw [hxor, hsum, hbs]

end Sys2Proof.Machine

/-! PROOF. Coercion (43_domain R280): a conversion of the shares that keeps their secret makes a
coercion that keeps the slot's, and leaves the rest of the file. -/

namespace Sys2Proof.Machine

/-! ## Coercion keeps the secret (43_domain R280) -/

/-- The share function of the conversion to domain `d`. -/
def converter (d : Domain) {w : Nat} (a : List (BitVec w)) : Draw (List (BitVec w)) :=
  match d with
  | .boolean => a2b a
  | .arith => b2a a

theorem coerce_eq (d : Domain) (p : Params) (x : List Slot) (i : Nat) : coerce d p x i =
    if (slotAt p x i).dom = d then pure x
    else converter d (readShares (slotAt p x i) (widthBits (slotAt p x i).wc)) >>= fun o =>
      pure (setSlot x i { writeShares (slotAt p x i) o with dom := d }) := by
  cases d <;> cases h : (slotAt p x i).dom <;> simp [coerce, converter, toBool, toArith, h]

/-- The conversion to domain `d` keeps the secret of shares of the other domain. -/
def ConvertsTo (d : Domain) : Prop :=
  ∀ (wc : Width) (d' : Domain) (a : List (BitVec (widthBits wc))), d' ≠ d → 1 ≤ a.length →
    Yields (converter d a) fun o => o.length = a.length ∧ secretOf d o = secretOf d' a

theorem convertsTo_boolean : ConvertsTo .boolean := by
  intro wc d' a hd ha
  cases d'
  case boolean => exact absurd rfl hd
  case arith => exact yields_a2b ha

/-- Slot `r'` has the validity, order, width and unused shares of slot `r`. -/
structure SameFrame (r r' : Slot) : Prop where
  valid : r'.valid = r.valid
  ord : r'.ord = r.ord
  wc : r'.wc = r.wc
  unused : ∀ k, shareCount r ≤ k → r'.sh.getD k 0 = r.sh.getD k 0

theorem SameFrame.refl (r : Slot) : SameFrame r r := ⟨rfl, rfl, rfl, fun _ _ => rfl⟩

theorem SameFrame.shareCount {r r' : Slot} (h : SameFrame r r') : shareCount r' = shareCount r := by
  rw [Machine.shareCount, Machine.shareCount, h.ord]

theorem coercedTo_iff {d : Domain} {r r' : Slot} : CoercedTo d r r' ↔
    SameFrame r r' ∧ r'.dom = d ∧ slotSecret r' = slotSecret r ∧ (r.dom = d → r' = r) := by
  constructor
  · rintro ⟨hv, hord, hwc, hdom, hsecret, hunused, hsame⟩
    exact ⟨⟨hv, hord, hwc, hunused⟩, hdom, hsecret, hsame⟩
  · rintro ⟨⟨hv, hord, hwc, hunused⟩, hdom, hsecret, hsame⟩
    exact ⟨hv, hord, hwc, hdom, hsecret, hunused, hsame⟩

theorem CoercedTo.frame {d : Domain} {r r' : Slot} (h : CoercedTo d r r') : SameFrame r r' :=
  (coercedTo_iff.1 h).1

theorem coercedTo_refl {d : Domain} {r : Slot} (h : r.dom = d) : CoercedTo d r r :=
  coercedTo_iff.2 ⟨.refl r, h, rfl, fun _ => rfl⟩

/-- Coercing a coerced slot again changes nothing. -/
theorem CoercedTo.trans {d : Domain} {r r' r'' : Slot} (h : CoercedTo d r r')
    (h' : CoercedTo d r' r'') : CoercedTo d r r'' := by
  obtain ⟨-, hdom, -⟩ := coercedTo_iff.1 h
  obtain ⟨-, -, -, hsame⟩ := coercedTo_iff.1 h'
  rwa [hsame hdom]

/-- The secret of a slot, from the shares of the slot it was coerced to. -/
theorem CoercedTo.slotSecret_eq {d : Domain} {r r' : Slot} (h : CoercedTo d r r') {w : Nat}
    (hw : w = widthBits r.wc) : slotSecret r = (secretOf d (readShares r' w)).setWidth 64 := by
  obtain ⟨hframe, hdom, hsecret, -⟩ := coercedTo_iff.1 h
  subst hw
  rw [← hsecret, slotSecret, hdom, hframe.wc]

/-- Share `k` of a slot whose shares were written. -/
theorem written_share {d : Domain} {q : Slot} {w : Nat} {o : List (BitVec w)} {k : Nat}
    (hk : k < o.length) :
    ({ writeShares q o with dom := d } : Slot).sh.getD k 0 = (o.getD k 0).setWidth 64 :=
  (writeShares_sh_getD q o k).trans (if_pos hk)

/-- A live slot with all its shares written holds their secret. -/
theorem holdsSecret_writeShares {r q : Slot} (d : Domain) (hq : SameFrame r q) (hv : r.valid = true)
    {w : Nat} (hw : w = widthBits r.wc) {o : List (BitVec w)} (ho : o.length = shareCount r) :
    HoldsSecret d ((secretOf d o).setWidth 64) r { writeShares q o with dom := d } := by
  refine ⟨hq.valid.trans hv, hq.ord, hq.wc, rfl, ?secret, fun k hk => ?unused⟩
  case secret =>
    exact slotSecret_of_sh (r := { writeShares q o with dom := d })
      (hw.trans (congrArg widthBits hq.wc.symm)) (ho.trans hq.shareCount.symm) rfl
  case unused =>
    rw [← hq.unused k hk]
    exact (writeShares_sh_getD q o k).trans (if_neg (by omega))

theorem coercedTo_of_holdsSecret {d : Domain} {r r' : Slot} (h : HoldsSecret d (slotSecret r) r r')
    (hv : r.valid = true) (hd : r.dom ≠ d) : CoercedTo d r r' := by
  obtain ⟨hv', hord, hwc, hdom, hsecret, hunused⟩ := h
  exact ⟨hv'.trans hv.symm, hord, hwc, hdom, hsecret, hunused, fun h => absurd h hd⟩

/-- File `y` is file `x` with the slots of `l` coerced to domain `d`. -/
structure CoercedFile (p : Params) (d : Domain) (l : List Nat) (x y : List Slot) : Prop where
  length : y.length = x.length
  coerced : ∀ i ∈ l, CoercedTo d (slotAt p x i) (slotAt p y i)
  others : ∀ i ∉ l, slotAt p y i = slotAt p x i

theorem CoercedFile.frame {p : Params} {d : Domain} {l : List Nat} {x y : List Slot}
    (h : CoercedFile p d l x y) (i : Nat) : SameFrame (slotAt p x i) (slotAt p y i) := by
  by_cases hi : i ∈ l
  · exact (h.coerced i hi).frame
  · rw [h.others i hi]
    exact .refl _

/-- One more slot coerced first; the slots of `l` may name it again. -/
theorem CoercedFile.cons {p : Params} {d : Domain} {i : Nat} {l : List Nat} {x y z : List Slot}
    (h : CoercedFile p d [i] x y) (h' : CoercedFile p d l y z) : CoercedFile p d (i :: l) x z := by
  refine ⟨h'.length.trans h.length, fun j hj => ?coerced, fun j hj => ?others⟩
  case coerced =>
    by_cases hji : j ∈ [i] <;> by_cases hjl : j ∈ l
    · exact (h.coerced j hji).trans (h'.coerced j hjl)
    · rw [h'.others j hjl]
      exact h.coerced j hji
    · rw [← h.others j hji]
      exact h'.coerced j hjl
    · exact absurd hj (by simpa [hjl] using hji)
  case others =>
    simp only [List.mem_cons, not_or] at hj
    obtain ⟨hji, hjl⟩ := hj
    rw [h'.others j hjl, h.others j (by simpa using hji)]

theorem yields_coerce {d : Domain} (hconv : ConvertsTo d) {p : Params} {x : List Slot} {i : Nat}
    (hv : (slotAt p x i).valid = true) : Yields (coerce d p x i) (CoercedFile p d [i] x) := by
  rw [coerce_eq]
  split
  next hd =>
    refine yields_pure ⟨rfl, fun j hj => ?_, fun _ _ => rfl⟩
    obtain rfl := List.mem_singleton.1 hj
    exact coercedTo_refl hd
  next hd =>
    refine (hconv _ _ _ hd (by simp [shareCount_pos])).bind fun o ⟨hlen, hsecret⟩ =>
      yields_pure ⟨setSlot_length .., fun j hj => ?_, fun j hj =>
        slotAt_setSlot_other p x _ (by simpa [eq_comm] using hj)⟩
    obtain rfl := List.mem_singleton.1 hj
    rw [slotAt_setSlot_same p _ (lt_length_of_live hv)]
    have hholds := holdsSecret_writeShares d (.refl _) hv rfl (hlen.trans (readShares_length _ _))
    rw [hsecret] at hholds
    exact coercedTo_of_holdsSecret hholds hv hd

/-- Coercion, with its draws counted. -/
theorem drawsExactly_coerceFile {d : Domain} (hconv : ConvertsTo d) {p : Params} {x : List Slot}
    {i : Nat} (hv : (slotAt p x i).valid = true) :
    DrawsExactly (coerce d p x i) (coerceDraws d (slotAt p x i)) fun y =>
      CoercedAt p d i x y ∧ CoercedFile p d [i] x y :=
  (drawsExactly_coerce d hv).with_yields (yields_coerce hconv hv)

end Sys2Proof.Machine

/-! PROOF. The results of the binary gadgets (41_boolean R191 to R193, R200): a share function that
computes on the secrets of the shares makes a gadget that computes on those of the slots. -/

namespace Sys2Proof.Machine

/-! ## The binary gadgets (41_boolean R200, 42_arithmetic R234) -/

/-- The shares `o` hold `op` of the secrets of `a` and `b`; if the gadget works share by share, with
`share`, each share is that function of the words behind the shares of `a` and `b`. -/
structure GadgetShares (d : Domain) (op : Word → Word → Word) (share : Option (Word → Word → Word))
    {w : Nat} (a b o : List (BitVec w)) : Prop where
  length : o.length = a.length
  secret : (secretOf d o).setWidth 64 = op ((secretOf d a).setWidth 64) ((secretOf d b).setWidth 64)
  share : ∀ f, share = some f → ∀ k < a.length, ∀ x y : Word, a.getD k 0 = x.setWidth w →
    b.getD k 0 = y.setWidth w → o.getD k 0 = (f x y).setWidth w

/-- `F` draws `k` words for `n` shares of `w` bits and computes `op` on the secrets. -/
def Computes (d : Domain) (F : ShareFunction) (w n k : Nat) (op : Word → Word → Word)
    (share : Option (Word → Word → Word)) : Prop :=
  ∀ a b : List (BitVec w), a.length = n → b.length = n →
    DrawsExactly (F w a b) k (GadgetShares d op share a b)

/-- The effect of a binary gadget: both sources coerced, and the shares of the result written. -/
def BinaryEffect (d : Domain) (op : Word → Word → Word) (share : Option (Word → Word → Word))
    (rd rs1 rs2 : SlotNo) (s : State) (e : Effect) : Prop :=
  ∃ y, CoercedFile s.cfg d [rs1.toNat, rs2.toNat] s.slots y ∧
    ∃ o : List (BitVec (slotBits s rs1)),
      GadgetShares d op share (readShares (slotAt s.cfg y rs1.toNat) (slotBits s rs1))
        (readShares (slotAt s.cfg y rs2.toNat) (slotBits s rs1)) o ∧
      e = { slots := setSlot y rd.toNat { writeShares (slotAt s.cfg y rd.toNat) o with dom := d },
            dout := s.dout }

section BinaryGadget

variable {d : Domain} {op : Word → Word → Word} {share : Option (Word → Word → Word)}
  {rd rs1 rs2 : SlotNo} {s : State} {e : Effect}

theorem drawsExactly_binaryBody (hconv : ConvertsTo d) {F : ShareFunction} {k : Nat}
    (hops : binaryOperandsOk s rd rs1 rs2 = true)
    (hF : Computes d F (slotBits s rs1) (shareCount (s.slot rs1.toNat)) k op share) :
    DrawsExactly (binaryBody d F rd rs1 rs2 s) (bothDraws d s rs1 rs2 + k)
      (BinaryEffect d op share rd rs1 rs2 s) := by
  obtain ⟨-, hv1, hv2, -, hn1, hn2⟩ := binaryOperandsOk_spec hops
  refine (drawsExactly_bind (drawsExactly_coerceFile hconv hv1) fun x ⟨hx, hcx⟩ => drawsExactly_bind
    ((drawsExactly_coerceFile hconv ((hcx.frame _).valid.trans hv2)).of_eq (coerceDraws_second hx))
    fun y ⟨_, hcy⟩ => ?_).of_eq (j := _ + (_ + k)) (by rw [bothDraws, Nat.add_assoc]; rfl)
  have hy := hcx.cons hcy
  exact drawsExactly_bind (k := 0) (hF _ _
    ((readShares_length _ _).trans (hy.frame _).shareCount)
    ((readShares_length _ _).trans ((hy.frame _).shareCount.trans (hn2.trans hn1.symm))))
    fun o ho => drawsExactly_pure ⟨y, hy, o, ho, rfl⟩

theorem BinaryEffect.length (h : BinaryEffect d op share rd rs1 rs2 s e) :
    e.slots.length = s.slots.length := by
  obtain ⟨y, hy, o, -, rfl⟩ := h
  exact (setSlot_length ..).trans hy.length

theorem BinaryEffect.dout (h : BinaryEffect d op share rd rs1 rs2 s e) : e.dout = s.dout := by
  obtain ⟨y, -, o, -, rfl⟩ := h
  rfl

theorem sameWidth_of_binaryOperandsOk (h : binaryOperandsOk s rd rs1 rs2 = true) :
    slotBits s rs1 = slotBits s rs2 := by
  simp only [binaryOperandsOk, Bool.and_eq_true, decide_eq_true_eq, sig_eq_iff] at h
  obtain ⟨⟨⟨-, -, hwc⟩, -⟩, -⟩ := h
  rw [slotBits, hwc, slotBits]

/-- What the effect of a binary gadget leaves in the slots, whichever of them are equal. -/
theorem BinaryEffect.slots {t : State} (he : BinaryEffect d op share rd rs1 rs2 s e)
    (hops : binaryOperandsOk s rd rs1 rs2 = true)
    (hslot : ∀ j, t.slot j = slotAt s.cfg e.slots j) :
    OtherSlotsKept s t [rd.toNat, rs1.toNat, rs2.toNat] ∧
    HoldsSecret d (op (slotSecret (s.slot rs1.toNat)) (slotSecret (s.slot rs2.toNat)))
      (s.slot rd.toNat) (t.slot rd.toNat) ∧
    ∃ a b : Slot, CoercedTo d (s.slot rs1.toNat) a ∧ (rs1 ≠ rd → a = t.slot rs1.toNat) ∧
      CoercedTo d (s.slot rs2.toNat) b ∧ (rs2 ≠ rd → b = t.slot rs2.toNat) ∧ (rs1 = rs2 → a = b) ∧
      ∀ f, share = some f → ∀ k, k < shareCount (s.slot rd.toNat) →
        (t.slot rd.toNat).sh.getD k 0 =
          lowBits (slotBits s rd) (f (a.sh.getD k 0) (b.sh.getD k 0)) := by
  obtain ⟨y, hy, o, ho, rfl⟩ := he
  obtain ⟨hvd, -, -, hwc, hn1, hn2⟩ := binaryOperandsOk_spec hops
  have hbits : slotBits s rs1 = slotBits s rd := congrArg widthBits hwc
  have hother : ∀ j, rd.toNat ≠ j → t.slot j = slotAt s.cfg y j := fun j hj =>
    (hslot j).trans (slotAt_setSlot_other _ _ _ hj)
  have hrd : t.slot rd.toNat = { writeShares (slotAt s.cfg y rd.toNat) o with dom := d } :=
    (hslot _).trans (slotAt_setSlot_same _ _ (lt_length_of_live ((hy.frame _).valid.trans hvd)))
  have hsource : ∀ r : SlotNo, r ≠ rd → slotAt s.cfg y r.toNat = t.slot r.toNat := fun r hr =>
    (hother _ fun h => hr (BitVec.eq_of_toNat_eq h.symm)).symm
  have h1 : CoercedTo d (s.slot rs1.toNat) (slotAt s.cfg y rs1.toNat) := hy.coerced _ (by simp)
  have h2 : CoercedTo d (s.slot rs2.toNat) (slotAt s.cfg y rs2.toNat) := hy.coerced _ (by simp)
  have hcount1 := h1.frame.shareCount.trans hn1
  have hcount2 := h2.frame.shareCount.trans hn2
  have hlen := ho.length.trans ((readShares_length _ _).trans hcount1)
  refine ⟨fun j hj => ?kept, ?holds, _, _, h1, hsource _, h2, hsource _, fun heq => by rw [heq],
    fun f hf k hk => ?share⟩
  case kept =>
    simp only [List.mem_cons, not_or] at hj
    obtain ⟨hjd, hj⟩ := hj
    rw [hother j (Ne.symm hjd), hy.others j (by simpa using hj), slot_eq]
  case holds =>
    rw [hrd, h1.slotSecret_eq (w := slotBits s rs1) rfl,
      h2.slotSecret_eq (sameWidth_of_binaryOperandsOk hops), ← ho.secret]
    exact holdsSecret_writeShares d (hy.frame _) hvd hbits hlen
  case share =>
    rw [hrd, written_share (by rwa [hlen]), ← hbits]
    refine congrArg (BitVec.setWidth 64) (ho.share f hf k ?_ _ _ ?_ ?_)
    · rwa [readShares_length, hcount1]
    · rw [readShares_getD, if_pos (by rwa [hcount1])]
    · rw [readShares_getD, if_pos (by rwa [hcount2])]

/-- The result of a binary gadget, from what its share function computes. -/
theorem binaryGadgetResult {i : Instr} (hconv : ConvertsTo d) {F : ShareFunction} {k : Nat}
    (hchecks : checksOf s i = binaryChecks s rd rs1 rs2)
    (hexec : exec i s = runCommand s (binaryChecks s rd rs1 rs2) (binaryBody d F rd rs1 rs2 s))
    (hF : Computes d F (slotBits s rs1) (shareCount (s.slot rs1.toNat)) k op share)
    (hk : drawsOf s i = bothDraws d s rs1 rs2 + k) (herr : errorOf s i = none) :
    BinaryGadgetResult s i d (op (slotSecret (s.slot rs1.toNat)) (slotSecret (s.slot rs2.toNat)))
      share rd rs1 rs2 := by
  intro ws rest hanswers hws
  have hc := checksOf_pass herr
  rw [hchecks, binaryChecks, firstFail_cons_eq_none, firstFail_cons_eq_none] at hc
  obtain ⟨-, hops, -⟩ := hc
  obtain ⟨e, t, he, ht, hdone, hdout, hslot⟩ := exec_of_drawsExactly (hchecks ▸ hexec) herr
    (hk ▸ drawsExactly_binaryBody hconv hops hF) BinaryEffect.length hanswers hws
  obtain ⟨hkept, hholds, a, b, ha, hat, hb, hbt, hab, hshare⟩ := he.slots hops hslot
  exact ⟨t, ht, hdone, hdout.trans he.dout, hkept, hholds, fun hne => hat hne ▸ ha,
    fun hne => hbt hne ▸ hb, fun f hf => ⟨a, b, ha, hat, hb, hbt, hab, hshare f hf⟩⟩

end BinaryGadget

/-! ## The Boolean binary gadgets (41_boolean R191 to R193) -/

theorem computes_xor (w n : Nat) : Computes .boolean (fun _ a b => pure (vecXor a b)) w n 0
    (· ^^^ ·) (some (· ^^^ ·)) := by
  intro a b ha hb
  have hab := ha.trans hb.symm
  refine drawsExactly_pure ⟨by simp [hab], ?secret, ?share⟩
  case secret =>
    rw [secretOf, xorAll_vecXor hab, BitVec.setWidth_xor]
    rfl
  case share =>
    rintro f ⟨⟩ k hk x y hx hy
    have hkb : k < b.length := hab ▸ hk
    rw [BitVec.setWidth_xor, ← hx, ← hy]
    simp [vecXor, hk, hkb]

theorem computes_and (w n : Nat) : Computes .boolean (fun _ a b => domAnd a b) w n (pairDraws n)
    (· &&& ·) none := by
  intro a b ha hb
  refine ((keepsShareCount_domAnd n w a b ha hb).with_yields (yields_domAnd (ha.trans hb.symm))).mono
    fun o ⟨_, hlen, hxor⟩ => ⟨hlen, ?_, by simp⟩
  rw [secretOf, hxor, BitVec.setWidth_and]
  rfl

/-- `(x & y) ^ (x ^ y)` is `x | y`. -/
theorem and_xor_xor {w : Nat} (x y : BitVec w) : (x &&& y) ^^^ (x ^^^ y) = x ||| y := by
  have hbit : ∀ x y : Bool, ((x && y) ^^ (x ^^ y)) = (x || y) := by decide
  exact BitVec.eq_of_getElem_eq fun i hi => by simpa using hbit ..

theorem yields_orShares {w : Nat} {a b : List (BitVec w)} (h : a.length = b.length) :
    Yields (orShares a b) fun o => o.length = a.length ∧ xorAll o = xorAll a ||| xorAll b := by
  refine (yields_domAnd h).bind fun t ⟨hlen, ht⟩ => yields_pure ⟨by simp [hlen, h], ?_⟩
  rw [xorAll_vecXor (by simp [hlen, h]), ht, xorAll_vecXor h, and_xor_xor]

theorem computes_or (w n : Nat) : Computes .boolean (fun _ a b => orShares a b) w n (pairDraws n)
    (· ||| ·) none := by
  intro a b ha hb
  refine ((keepsShareCount_orShares n w a b ha hb).with_yields
    (yields_orShares (ha.trans hb.symm))).mono fun o ⟨_, hlen, hxor⟩ => ⟨hlen, ?_, by simp⟩
  rw [secretOf, hxor, BitVec.setWidth_or]
  rfl

/-- Settles O42: XOR works share by share, on the shares of the coerced sources. -/
theorem xorResult : Obligations.XorResult := fun s rd rs1 rs2 =>
  binaryGadgetResult convertsTo_boolean rfl
    (boolBinary_eq (fun _ a b => pure (vecXor a b)) rd rs1 rs2 s) (computes_xor _ _) rfl

/-- Settles O43, from DomAnd's product. -/
theorem andResult : Obligations.AndResult := fun s rd rs1 rs2 =>
  binaryGadgetResult convertsTo_boolean rfl
    (boolBinary_eq (fun _ a b => domAnd a b) rd rs1 rs2 s) (computes_and _ _) rfl

/-- Settles O44: OR is the XOR of the AND and the XOR. -/
theorem orResult : Obligations.OrResult := fun s rd rs1 rs2 =>
  binaryGadgetResult convertsTo_boolean rfl
    (boolBinary_eq (fun _ a b => orShares a b) rd rs1 rs2 s) (computes_or _ _) rfl

end Sys2Proof.Machine

/-! PROOF. The results of the unary Boolean gadgets (41_boolean R194 to R198, R200), each from what its
share function does to the shares and to their XOR. -/

namespace Sys2Proof.Machine

/-! ## The unary Boolean gadgets (41_boolean R200) -/

/-- The share function of a unary gadget, for every width. -/
abbrev UnaryShareFunction := (w : Nat) → List (BitVec w) → List (BitVec w)

/-- The pseudocode of the unary Boolean gadgets with share function `G`. -/
def unaryBody (G : UnaryShareFunction) (rd : SlotNo) (s : State) : Draw Effect := do
  let x ← coerce .boolean s.cfg s.slots rd.toNat
  let r := slotAt s.cfg x rd.toNat
  pure { slots := setSlot x rd.toNat
           { writeShares r (G (slotBits s rd) (readShares r (slotBits s rd))) with dom := .boolean },
         dout := s.dout }

theorem boolUnary_eq (G : UnaryShareFunction) (rd : SlotNo) (s : State) :
    boolUnary G rd s = runCommand s (unaryChecks s rd) (unaryBody G rd s) := rfl

/-- `G` makes as many shares as it is given; their secret is the value `g 0` gives for the old one, and
share `k` is the value `g k` gives for the old share. -/
structure ActsAs {w : Nat} (G : List (BitVec w) → List (BitVec w)) (g : Nat → Word → Word) : Prop where
  length : ∀ a, (G a).length = a.length
  secret : ∀ a, a ≠ [] → (xorAll (G a)).setWidth 64 = g 0 ((xorAll a).setWidth 64)
  share : ∀ a k, k < a.length → ((G a).getD k 0).setWidth 64 = g k ((a.getD k 0).setWidth 64)

/-- The effect of a unary gadget: the slot coerced, and its shares replaced. -/
def UnaryEffect (G : UnaryShareFunction) (rd : SlotNo) (s : State) (e : Effect) : Prop :=
  ∃ y, CoercedFile s.cfg .boolean [rd.toNat] s.slots y ∧
    e = { slots := setSlot y rd.toNat { writeShares (slotAt s.cfg y rd.toNat)
            (G (slotBits s rd) (readShares (slotAt s.cfg y rd.toNat) (slotBits s rd)))
            with dom := .boolean },
          dout := s.dout }

theorem UnaryEffect.length {G : UnaryShareFunction} {rd : SlotNo} {s : State} {e : Effect}
    (h : UnaryEffect G rd s e) : e.slots.length = s.slots.length := by
  obtain ⟨y, hy, rfl⟩ := h
  exact (setSlot_length ..).trans hy.length

theorem drawsExactly_unaryBody (G : UnaryShareFunction) {rd : SlotNo} {s : State}
    (hv : (s.slot rd.toNat).valid = true) :
    DrawsExactly (unaryBody G rd s) (toBoolDraws (s.slot rd.toNat)) (UnaryEffect G rd s) :=
  drawsExactly_bind (k := 0) (drawsExactly_coerceFile convertsTo_boolean hv) fun x ⟨_, hx⟩ =>
    drawsExactly_pure ⟨x, hx, rfl⟩

/-- The result of a unary gadget, from what its share function does. -/
theorem unaryGadgetResult {i : Instr} {G : UnaryShareFunction} {g : Nat → Word → Word} {rd : SlotNo}
    {s : State} (hchecks : checksOf s i = unaryChecks s rd) (hexec : exec i s = boolUnary G rd s)
    (hG : ActsAs (G (slotBits s rd)) g) (hk : drawsOf s i = toBoolDraws (s.slot rd.toNat))
    (herr : errorOf s i = none) : UnaryGadgetResult s i g rd := by
  intro ws rest hanswers hws
  have hc := checksOf_pass herr
  simp only [hchecks, unaryChecks, unaryOperandOk, firstFail_cons_eq_none, Bool.and_eq_true] at hc
  obtain ⟨-, ⟨hv, -⟩, -⟩ := hc
  obtain ⟨_, t, ⟨y, hy, rfl⟩, ht, hdone, hdout, hslot⟩ := exec_of_drawsExactly
    (hchecks ▸ hexec.trans (boolUnary_eq G rd s)) herr (hk ▸ drawsExactly_unaryBody G hv)
    UnaryEffect.length hanswers hws
  have h : CoercedTo .boolean (s.slot rd.toNat) (slotAt s.cfg y rd.toNat) := hy.coerced _ (by simp)
  have hrd := (hslot rd.toNat).trans
    (slotAt_setSlot_same _ _ (lt_length_of_live (h.frame.valid.trans hv)))
  have hlen : (G (slotBits s rd) (readShares (slotAt s.cfg y rd.toNat) (slotBits s rd))).length =
      shareCount (s.slot rd.toNat) :=
    (hG.length _).trans ((readShares_length _ _).trans h.frame.shareCount)
  refine ⟨t, ht, hdone, hdout, fun j hj => ?kept, ?holds, fun hd k hk => ?share⟩
  case kept =>
    have hj' : rd.toNat ≠ j := by simpa [eq_comm] using hj
    rw [hslot, slotAt_setSlot_other _ _ _ hj', hy.others j hj, slot_eq]
  case holds =>
    rw [hrd, h.slotSecret_eq (w := slotBits s rd) rfl, secretOf, ← hG.secret]
    · exact holdsSecret_writeShares .boolean h.frame hv rfl hlen
    · exact List.ne_nil_of_length_pos (by rw [readShares_length]; exact shareCount_pos _)
  case share =>
    obtain ⟨-, -, -, hsame⟩ := coercedTo_iff.1 h
    rw [hsame hd] at hrd hlen
    rw [hrd, written_share (by rwa [hlen]), hG.share _ _ (by rwa [readShares_length]),
      readShares_getD, if_pos hk, lowBits]

/-! ## The share functions of the unary gadgets (41_boolean R194 to R198) -/

/-- A function of every share that distributes over XOR acts on the secret as on the shares. -/
theorem actsAs_map {w : Nat} {f : BitVec w → BitVec w} {g : Word → Word}
    (hxor : ∀ x y, f (x ^^^ y) = f x ^^^ f y) (hg : ∀ x, (f x).setWidth 64 = g (x.setWidth 64)) :
    ActsAs (List.map f) fun _ => g where
  length _ := List.length_map _
  secret a _ := by rw [xorAll_map hxor, hg]
  share a k hk := by rw [← hg]; simp [hk]

theorem lowBits_not {w : Nat} (hw : w ≤ 64) (x : BitVec w) :
    lowBits w (~~~ x.setWidth 64) = (~~~ x).setWidth 64 := by
  rw [lowBits, BitVec.setWidth_not hw, BitVec.setWidth_setWidth_of_le _ hw, BitVec.setWidth_eq]

/-- Complementing share 0 complements the XOR. -/
theorem actsAs_not {w : Nat} (hw : w ≤ 64) : ActsAs (fun a : List (BitVec w) => updateShare a 0 (~~~ ·))
    fun k v => if k = 0 then lowBits w (~~~ v) else v where
  length a := updateShare_length a 0 _
  secret a ha := by
    obtain ⟨v, a, rfl⟩ := List.exists_cons_of_ne_nil ha
    rw [if_pos rfl, lowBits_not hw, updateShare_zero, xorAll_cons, xorAll_cons, BitVec.not_xor_left]
  share a k hk := by
    rw [updateShare_getD (by omega)]
    by_cases h : k = 0
    · rw [if_pos h.symm, if_pos h, lowBits_not hw]
    · rw [if_neg (Ne.symm h), if_neg h]

theorem actsAs_shr {w : Nat} (hw : w ≤ 64) (k : Nat) :
    ActsAs (List.map fun v : BitVec w => v >>> k) fun _ v => v >>> k :=
  actsAs_map (fun x y => BitVec.ushiftRight_xor_distrib x y k) fun _ => BitVec.setWidth_ushiftRight hw

theorem actsAs_shl {w : Nat} (hw : w ≤ 64) (k : Nat) :
    ActsAs (List.map fun v : BitVec w => v <<< k) fun _ v => lowBits w (v <<< k) := by
  refine actsAs_map (fun x y => BitVec.shiftLeft_xor_distrib x y k) fun x => ?_
  rw [lowBits]
  refine congrArg (BitVec.setWidth 64) (BitVec.eq_of_getLsbD_eq fun i hi => ?_)
  simp only [BitVec.getLsbD_setWidth, BitVec.getLsbD_shiftLeft, hi, show i < 64 by omega,
    show i - k < 64 by omega, decide_true, Bool.true_and]

theorem rotr_eq_rotateRight {w k : Nat} (hk : k < w) (v : BitVec w) : rotr k v = v.rotateRight k := by
  rw [rotr, BitVec.rotateRight_def, Nat.mod_eq_of_lt hk]
  split
  next h => subst h; simp
  next => rfl

theorem rotl_eq_rotateLeft {w k : Nat} (hk : k < w) (v : BitVec w) : rotl k v = v.rotateLeft k := by
  rw [rotl, BitVec.rotateLeft_def, Nat.mod_eq_of_lt hk]
  split
  next h => subst h; simp [BitVec.ushiftRight_eq_zero]
  next => rfl

theorem rotateRight_xor {w : Nat} (x y : BitVec w) (k : Nat) :
    (x ^^^ y).rotateRight k = x.rotateRight k ^^^ y.rotateRight k := by
  ext i hi
  simp only [BitVec.getElem_xor, BitVec.getElem_rotateRight]
  split <;> rfl

theorem rotateLeft_xor {w : Nat} (x y : BitVec w) (k : Nat) :
    (x ^^^ y).rotateLeft k = x.rotateLeft k ^^^ y.rotateLeft k := by
  ext i hi
  simp only [BitVec.getElem_xor, BitVec.getElem_rotateLeft]
  split <;> rfl

theorem setWidth_apply {w : Nat} (hw : w ≤ 64) (f : BitVec w → BitVec w) (x : BitVec w) :
    (f x).setWidth 64 = (f ((x.setWidth 64).setWidth w)).setWidth 64 := by
  rw [BitVec.setWidth_setWidth_of_le _ hw, BitVec.setWidth_eq]

theorem actsAs_rotr {w k : Nat} (hw : w ≤ 64) (hk : k < w) : ActsAs (List.map (rotr (w := w) k))
    fun _ v => ((v.setWidth w).rotateRight k).setWidth 64 := by
  have hrot : rotr k = (BitVec.rotateRight · k) := funext (rotr_eq_rotateRight hk)
  rw [hrot]
  exact actsAs_map (fun x y => rotateRight_xor x y k) (setWidth_apply hw _)

theorem actsAs_rotl {w k : Nat} (hw : w ≤ 64) (hk : k < w) : ActsAs (List.map (rotl (w := w) k))
    fun _ v => ((v.setWidth w).rotateLeft k).setWidth 64 := by
  have hrot : rotl k = (BitVec.rotateLeft · k) := funext (rotl_eq_rotateLeft hk)
  rw [hrot]
  exact actsAs_map (fun x y => rotateLeft_xor x y k) (setWidth_apply hw _)

theorem slotBits_le (s : State) (r : SlotNo) : slotBits s r ≤ 64 := widthBits_le _

theorem shiftCount_lt (shamt : BitVec 6) (wc : Width) :
    shiftCount shamt (widthBits wc) < widthBits wc := Nat.mod_lt _ (by cases wc <;> decide)

/-- Settles O45: share 0 is complemented, and the XOR with it. -/
theorem notResult : Obligations.NotResult := fun s rd =>
  unaryGadgetResult (G := fun _ a => updateShare a 0 (~~~ ·)) rfl rfl
    (actsAs_not (slotBits_le s rd)) rfl

/-- Settles O46: both shifts distribute over XOR. -/
theorem shiftResult : Obligations.ShiftResult := fun s rd shamt =>
  ⟨unaryGadgetResult (G := fun w a => a.map fun v : BitVec w => v >>> shiftCount shamt w) rfl rfl
      (actsAs_shr (slotBits_le s rd) _) rfl,
    unaryGadgetResult (G := fun w a => a.map fun v : BitVec w => v <<< shiftCount shamt w) rfl rfl
      (actsAs_shl (slotBits_le s rd) _) rfl⟩

/-- Settles O47: the count is below the width, and both rotations distribute over XOR. -/
theorem rotateResult : Obligations.RotateResult := fun s rd shamt =>
  ⟨unaryGadgetResult (G := fun w a => a.map (rotr (shiftCount shamt w))) rfl rfl
      (actsAs_rotr (slotBits_le s rd) (shiftCount_lt shamt _)) rfl,
    unaryGadgetResult (G := fun w a => a.map (rotl (shiftCount shamt w))) rfl rfl
      (actsAs_rotl (slotBits_le s rd) (shiftCount_lt shamt _)) rfl⟩

end Sys2Proof.Machine

/-! PROOF. B2A keeps the secret (43_domain R250 to R255): the blinding words cancel, and psi is affine in
its second argument. -/

namespace Sys2Proof.Machine

/-! ## Loops that keep a property -/

/-- What every round keeps, the loop keeps. -/
theorem yields_foldlM {α β : Type} {P : β → Prop} {f : β → α → Draw β} {l : List α} {b : β} (hb : P b)
    (hf : ∀ b, P b → ∀ i ∈ l, Yields (f b i) P) : Yields (l.foldlM f b) P := by
  induction l generalizing b with
  | nil => exact yields_pure hb
  | cons i l ih =>
    rw [List.foldlM_cons]
    exact (hf b hb i List.mem_cons_self).bind fun b' hb' =>
      ih hb' fun b hb j hj => hf b hb j (List.mem_cons_of_mem i hj)

/-! ## The affine map psi (43_domain R250) -/

/-- The borrow into bit `i` of `psi a b`, as the carry of adding `b` back. -/
def psiBorrow {w : Nat} (a b : BitVec w) (i : Nat) : Bool := BitVec.carry i (psi a b) b false

theorem psi_getLsbD {w : Nat} (a b : BitVec w) {i : Nat} (hi : i < w) :
    (psi a b).getLsbD i = (a.getLsbD i ^^ psiBorrow a b i) := by
  have hsum : psi a b + b = a ^^^ b := BitVec.sub_add_cancel ..
  have hbit := congrArg (BitVec.getLsbD · i) hsum
  simp only [BitVec.getLsbD_add hi, BitVec.getLsbD_xor] at hbit
  rw [← psiBorrow, Bool.xor_left_comm, Bool.xor_comm (a.getLsbD i), Bool.xor_right_inj] at hbit
  rw [← hbit, Bool.xor_assoc, Bool.xor_self, Bool.xor_false]

/-- A bit of `a` chooses between the bit of `b` and the borrow so far, so the borrow is linear in `b`. -/
theorem psiBorrow_succ {w : Nat} (a b : BitVec w) {i : Nat} (hi : i < w) :
    psiBorrow a b (i + 1) = if a.getLsbD i then b.getLsbD i else psiBorrow a b i := by
  rw [psiBorrow, BitVec.carry_succ, psi_getLsbD a b hi, ← psiBorrow]
  cases a.getLsbD i <;> cases b.getLsbD i <;> cases psiBorrow a b i <;> rfl

theorem psiBorrow_xor {w : Nat} (a b c : BitVec w) {i : Nat} (hi : i ≤ w) :
    psiBorrow a (b ^^^ c) i = (psiBorrow a b i ^^ psiBorrow a c i) := by
  induction i with
  | zero => simp [psiBorrow]
  | succ i ih =>
    rw [psiBorrow_succ _ _ hi, psiBorrow_succ _ _ hi, psiBorrow_succ _ _ hi, ih (by omega),
      BitVec.getLsbD_xor]
    split <;> rfl

/-- psi is affine in its second argument (93 I1). -/
theorem psi_xor {w : Nat} (a b c : BitVec w) : psi a (b ^^^ c) = psi a b ^^^ psi a c ^^^ a := by
  apply BitVec.eq_of_getLsbD_eq
  intro i hi
  simp only [BitVec.getLsbD_xor, psi_getLsbD _ _ hi, psiBorrow_xor a b c hi.le]
  grind

/-- The XOR of the values of psi is psi of the XOR, but for `a` when there is an even number of them. -/
theorem xorAll_map_psi {w : Nat} (a : BitVec w) (s : List (BitVec w)) :
    xorAll (s.map (psi a)) = psi a (xorAll s) ^^^ if s.length % 2 = 0 then a else 0 := by
  induction s with
  | nil => simp [psi]
  | cons b s ih =>
    rw [List.map_cons, xorAll_cons, xorAll_cons, psi_xor, ih, List.length_cons]
    by_cases h : s.length % 2 = 0
    · simp [if_pos h, if_neg (show ¬ (s.length + 1) % 2 = 0 by omega), BitVec.xor_assoc]
    · simp [if_neg h, if_pos (show (s.length + 1) % 2 = 0 by omega), BitVec.xor_assoc]

/-- The parity term makes the vector's XOR psi of the shares' XOR. -/
theorem xorAll_psiVector {w m : Nat} (a : BitVec w) {s : List (BitVec w)} (hs : s.length = m)
    (hm : 1 ≤ m) : xorAll (psiVector m (a :: s)) = psi a (xorAll s) := by
  rw [psiVector, List.tail_cons, List.getD_cons_zero]
  split
  next h =>
    rw [xorAll_updateShare (by simpa [hs]), xorAll_map_psi, if_pos (by omega)]
    simp
  next h =>
    rw [xorAll_map_psi, if_neg (by omega)]
    exact BitVec.xor_zero

/-! ## Convert (43_domain R251, R252) -/

theorem yields_blindRounds {w : Nat} {x : List (BitVec w)} {l : List Nat}
    (hl : ∀ i ∈ l, i < x.length) :
    Yields (l.foldlM blindRound x) fun y => y.length = x.length ∧ xorAll y = xorAll x := by
  refine yields_foldlM ⟨rfl, rfl⟩ fun y ⟨hlen, hxor⟩ i hi => yields_draw_then fun r =>
    yields_pure ⟨by simpa using hlen, ?_⟩
  have hiy : i < y.length := hlen ▸ hl i hi
  rw [xorAll_updateShare (by simpa using Nat.zero_lt_of_lt hiy), xorAll_updateShare hiy, ← hxor]
  simp

theorem sumAll_eq_sum {w : Nat} (s : List (BitVec w)) : sumAll s = s.sum := rfl

theorem sumAll_vecAdd {w : Nat} {a b : List (BitVec w)} (h : a.length = b.length) :
    sumAll (vecAdd a b) = sumAll a + sumAll b :=
  (List.sum_add_sum_eq_sum_zipWith_of_length_eq a b h).symm

theorem sumAll_eq_take_add_last {w k : Nat} {s : List (BitVec w)} (hs : s.length = k + 1) :
    sumAll s = sumAll (s.take k) + s.getD k 0 := by
  have hk : k < s.length := by omega
  have htake := List.sum_take_succ s k hk
  rw [← hs, List.take_length] at htake
  simpa [sumAll_eq_sum, hk] using htake

/-- Combining keeps the sum of the two results. -/
theorem sumAll_combine {w k : Nat} {z t : List (BitVec w)} (hz : z.length = k + 1)
    (ht : t.length = k + 1) : sumAll (combine k z t) = sumAll z + sumAll t := by
  rw [combine, sumAll_append, sumAll_vecAdd (by simp [hz, ht]), sumAll_eq_take_add_last hz,
    sumAll_eq_take_add_last ht]
  simp only [sumAll_eq_sum, List.sum_cons, List.sum_nil]
  ring

/-- Convert turns the XOR of m + 1 shares into the sum of m shares: the two halves' secrets are `v` and
`psi a v = (a ^ v) - v`. -/
theorem yields_convert {w m : Nat} {x : List (BitVec w)} (hm : 1 ≤ m) (hx : x.length = m + 1) :
    Yields (convert m x) fun o => o.length = m ∧ sumAll o = xorAll x := by
  refine (drawsExactly_convert m x hx).yields.and ?_
  induction m, hm using Nat.le_induction generalizing x with
  | base =>
    obtain ⟨u, v, rfl⟩ := List.length_eq_two.1 hx
    exact yields_pure (by simp [sumAll_eq_sum, xorAll_cons])
  | succ m hm ih =>
    obtain ⟨k, rfl⟩ := Nat.exists_eq_add_of_le' hm
    have hhalf : ∀ y : List (BitVec w), y.length = k + 2 → Yields (convert (k + 1) y) fun o =>
        o.length = k + 1 ∧ sumAll o = xorAll y := fun y hy =>
      (drawsExactly_convert _ y hy).yields.and (ih hy)
    refine (yields_blindRounds fun i hi => ?_).bind fun y ⟨hlen, hxor⟩ => ?_
    · rw [List.mem_range'_1] at hi
      omega
    · obtain ⟨a, s, rfl⟩ := List.exists_cons_of_length_pos (l := y) (by omega)
      have hs : s.length = k + 2 := by simpa [hx] using hlen
      refine (hhalf s hs).bind fun z ⟨hz, hzsum⟩ => ?_
      refine (hhalf _ (by simp [psiVector_length, hs])).bind fun t ⟨ht, htsum⟩ => yields_pure ?_
      calc sumAll (combine k z t) = xorAll s + psi a (xorAll s) := by
            rw [sumAll_combine hz ht, hzsum, htsum, xorAll_psiVector a hs (by omega)]
        _ = a ^^^ xorAll s := add_sub_cancel ..
        _ = xorAll x := hxor

/-- B2A turns the XOR of the shares into their sum (43_domain R255). -/
theorem yields_b2a {w : Nat} {s : List (BitVec w)} (h : 1 ≤ s.length) :
    Yields (b2a s) fun o => o.length = s.length ∧ sumAll o = xorAll s :=
  (yields_convert h (by simp)).mono fun o ⟨hlen, hsum⟩ =>
    ⟨hlen, by rw [hsum, xorAll_append]; simp [xorAll_cons]⟩

theorem convertsTo_arith : ConvertsTo .arith := by
  intro wc d' a hd ha
  cases d'
  case boolean => exact yields_b2a ha
  case arith => exact absurd rfl hd

end Sys2Proof.Machine

/-! PROOF. The product of DomMult (42_arithmetic R232): the pairs complete the sum of products, and the
refresh keeps it. -/

namespace Sys2Proof.Machine

/-- What the pair `(i, j)` adds to the sum of the shares. -/
def crossMul {w : Nat} (a b : List (BitVec w)) (ij : Nat × Nat) : BitVec w :=
  a.getD ij.1 0 * b.getD ij.2 0 + a.getD ij.2 0 * b.getD ij.1 0

/-- The random word of a round goes into one share and out of another. -/
theorem yields_domMultRound {w : Nat} (a b : List (BitVec w)) {o : List (BitVec w)} {ij : Nat × Nat}
    (hi : ij.1 < o.length) (hj : ij.2 < o.length) :
    Yields (domMultRound a b o ij) fun o' =>
      o'.length = o.length ∧ sumAll o' = sumAll o + crossMul a b ij := by
  refine yields_draw_then fun r => yields_pure ⟨by simp, ?_⟩
  rw [sumAll_updateShare (by simpa using hj), sumAll_updateShare hi, crossMul]
  ring

theorem yields_domMultRounds {w : Nat} (a b : List (BitVec w)) {l : List (Nat × Nat)}
    {o : List (BitVec w)} (hl : ∀ ij ∈ l, ij.1 < o.length ∧ ij.2 < o.length) :
    Yields (l.foldlM (domMultRound a b) o) fun o' =>
      o'.length = o.length ∧ sumAll o' = sumAll o + sumAll (l.map (crossMul a b)) := by
  induction l generalizing o with
  | nil => exact yields_pure ⟨rfl, by simp [sumAll_eq_sum]⟩
  | cons ij l ih =>
    rw [List.forall_mem_cons] at hl
    obtain ⟨⟨hi, hj⟩, hl⟩ := hl
    rw [List.foldlM_cons]
    refine (yields_domMultRound a b hi hj).bind fun o' ⟨hlen, hsum⟩ =>
      (ih (by rwa [hlen])).mono fun o'' ⟨hlen', hsum'⟩ => ⟨hlen'.trans hlen, ?_⟩
    rw [hsum', hsum, List.map_cons, sumAll_cons, add_assoc]

theorem map_getD_range {w : Nat} (s : List (BitVec w)) :
    (List.range s.length).map (s.getD · 0) = s :=
  List.ext_getElem (by simp) fun i _ hi => by simp [hi]

/-- The products of a share `x` of one vector with the other vector's shares, and the other way. -/
theorem sumAll_products {w : Nat} (x y : BitVec w) {a b : List (BitVec w)}
    (h : a.length = b.length) :
    sumAll ((List.range a.length).map fun j => x * b.getD j 0 + a.getD j 0 * y) =
      x * sumAll b + sumAll a * y := by
  simp only [sumAll_eq_sum, List.sum_map_add, List.sum_map_mul_left, List.sum_map_mul_right,
    map_getD_range]
  rw [h, map_getD_range]

/-- The shares' own products and the pairs' products are all the products of a share of `a` and a share
of `b`. -/
theorem sumAll_vecMul_crossMul {w : Nat} {a b : List (BitVec w)} (h : a.length = b.length) :
    sumAll (vecMul a b) + sumAll ((pairs a.length).map (crossMul a b)) = sumAll a * sumAll b := by
  induction a generalizing b with
  | nil => simp [vecMul, pairs, sumAll_eq_sum]
  | cons x a ih =>
    obtain _ | ⟨y, b⟩ := b
    · simp at h
    · have h : a.length = b.length := Nat.succ.inj h
      have hmul : vecMul (x :: a) (y :: b) = x * y :: vecMul a b := rfl
      have hzero : ((crossMul (x :: a) (y :: b)) ∘ fun j => (0, j + 1)) =
        fun j => x * b.getD j 0 + a.getD j 0 * y := rfl
      have hrest : (crossMul (x :: a) (y :: b) ∘ fun ij : Nat × Nat => (ij.1 + 1, ij.2 + 1)) =
        crossMul a b := rfl
      rw [List.length_cons, pairs_succ, List.map_append, List.map_map, List.map_map, hzero, hrest,
        sumAll_append, sumAll_products x y h, hmul, sumAll_cons, sumAll_cons, sumAll_cons]
      linear_combination ih h

theorem yields_refreshShares {w : Nat} (s : List (BitVec w)) (d : Domain) :
    Yields (refreshShares s d) fun o => o.length = s.length ∧ secretOf d o = secretOf d s := by
  refine yields_foldlM ⟨rfl, rfl⟩ fun o ⟨hlen, hsecret⟩ i hi => ?_
  rw [List.mem_range'_1] at hi
  rw [refreshRound_eq]
  exact yields_draw_then fun r => yields_pure ⟨(refreshStep_length ..).trans hlen,
    (secretOf_refreshStep d (by omega) r).trans hsecret⟩

/-- The pairs complete the product, and the refresh keeps it. -/
theorem yields_domMult {w : Nat} {a b : List (BitVec w)} (h : a.length = b.length) :
    Yields (domMult a b) fun o => o.length = a.length ∧ sumAll o = sumAll a * sumAll b := by
  refine (yields_domMultRounds a b fun ij hij => ?_).bind fun o ⟨hlen, hsum⟩ =>
    (yields_refreshShares o .arith).mono fun o' ⟨hlen', hsum'⟩ => ⟨?_, ?_⟩
  · simpa [h] using pairs_lt hij
  · simp [hlen', hlen, h]
  · exact hsum'.trans (hsum.trans (sumAll_vecMul_crossMul h))

/-- Settles O56: the shares hold every product of a share of `a` and a share of `b` once, and every
random word goes in and out. -/
theorem domMultKeepsProduct : Obligations.DomMultKeepsProduct := by
  intro w a b o p p' h hrun
  obtain ⟨-, hsum⟩ := yields_domMult h p o p' hrun
  exact hsum

end Sys2Proof.Machine

/-! PROOF. The results of the arithmetic gadgets (42_arithmetic R230, R231, R233, R234), each from what its
share function computes on the sums of the shares. -/

namespace Sys2Proof.Machine

/-- The function `g` of every width is `f` on the words behind its arguments. -/
def ActsOnWords (g : (w : Nat) → BitVec w → BitVec w → BitVec w) (f : Word → Word → Word) : Prop :=
  ∀ w ≤ 64, ∀ x y : Word, g w (x.setWidth w) (y.setWidth w) = (f x y).setWidth w

theorem actsOnWords_add : ActsOnWords (fun _ x y => x + y) (· + ·) := fun _ hw x y =>
  (BitVec.setWidth_add x y hw).symm

theorem actsOnWords_sub : ActsOnWords (fun _ x y => x - y) (· - ·) := fun _ hw x y => by
  simp only [BitVec.sub_eq_add_neg, BitVec.setWidth_add _ _ hw, BitVec.setWidth_neg_of_le hw]

theorem actsOnWords_mul : ActsOnWords (fun _ x y => x * y) (· * ·) := fun _ hw x y =>
  (BitVec.setWidth_mul x y hw).symm

/-- Computing at width `w` is computing on the zero-extended values modulo 2^w. -/
theorem ActsOnWords.setWidth_eq_lowBits {g : (w : Nat) → BitVec w → BitVec w → BitVec w}
    {f : Word → Word → Word} (h : ActsOnWords g f) {w : Nat} (hw : w ≤ 64) (x y : BitVec w) :
    (g w x y).setWidth 64 = lowBits w (f (x.setWidth 64) (y.setWidth 64)) := by
  have hback : ∀ v : BitVec w, (v.setWidth 64).setWidth w = v := fun v => by
    rw [BitVec.setWidth_setWidth_of_le _ hw, BitVec.setWidth_eq]
  rw [lowBits, ← h w hw, hback, hback]

/-- A function of every pair of shares that acts on the sums as on the shares. -/
theorem computes_zipWith {g : (w : Nat) → BitVec w → BitVec w → BitVec w} {f : Word → Word → Word}
    (hg : ActsOnWords g f) {w : Nat} (hw : w ≤ 64) (n : Nat)
    (hsum : ∀ a b : List (BitVec w), a.length = b.length →
      sumAll (List.zipWith (g w) a b) = g w (sumAll a) (sumAll b)) :
    Computes .arith (fun w a b => pure (List.zipWith (g w) a b)) w n 0
      (fun x y => lowBits w (f x y)) (some f) := by
  intro a b ha hb
  have hab := ha.trans hb.symm
  refine drawsExactly_pure ⟨by simp [hab], ?secret, ?share⟩
  case secret =>
    rw [secretOf, hsum a b hab]
    exact hg.setWidth_eq_lowBits hw ..
  case share =>
    rintro f ⟨⟩ k hk x y hx hy
    have hkb : k < b.length := hab ▸ hk
    rw [← hg w hw, ← hx, ← hy]
    simp [hk, hkb]

theorem sumAll_vecSub {w : Nat} {a b : List (BitVec w)} (h : a.length = b.length) :
    sumAll (vecSub a b) = sumAll a - sumAll b := by
  have hback : vecAdd (vecSub a b) b = a :=
    List.ext_getElem (by simp [h]) fun i _ _ => by simp [vecAdd, vecSub]
  rw [eq_sub_iff_add_eq, ← sumAll_vecAdd (by simp [h]), hback]

theorem computes_add {w : Nat} (hw : w ≤ 64) (n : Nat) :
    Computes .arith (fun _ a b => pure (vecAdd a b)) w n 0 (fun x y => lowBits w (x + y))
      (some (· + ·)) :=
  computes_zipWith actsOnWords_add hw n fun _ _ => sumAll_vecAdd

theorem computes_sub {w : Nat} (hw : w ≤ 64) (n : Nat) :
    Computes .arith (fun _ a b => pure (vecSub a b)) w n 0 (fun x y => lowBits w (x - y))
      (some (· - ·)) :=
  computes_zipWith actsOnWords_sub hw n fun _ _ => sumAll_vecSub

theorem computes_mult {w : Nat} (hw : w ≤ 64) (n : Nat) :
    Computes .arith (fun _ a b => domMult a b) w n (pairDraws n + (n - 1))
      (fun x y => lowBits w (x * y)) none := by
  intro a b ha hb
  refine ((keepsShareCount_domMult n w a b ha hb).with_yields
    (yields_domMult (ha.trans hb.symm))).mono fun o ⟨_, hlen, hsum⟩ => ⟨hlen, ?_, by simp⟩
  rw [secretOf, hsum]
  exact actsOnWords_mul.setWidth_eq_lowBits hw ..

/-- Settles O48: ADD works share by share, on the shares of the coerced sources. -/
theorem addResult : Obligations.AddResult := fun s rd rs1 rs2 =>
  binaryGadgetResult (op := fun x y => lowBits (slotBits s rs1) (x + y)) convertsTo_arith rfl
    (arithBinary_eq (fun _ a b => pure (vecAdd a b)) rd rs1 rs2 s)
    (computes_add (slotBits_le s rs1) _) rfl

/-- Settles O49: SUB works share by share, on the shares of the coerced sources. -/
theorem subResult : Obligations.SubResult := fun s rd rs1 rs2 =>
  binaryGadgetResult (op := fun x y => lowBits (slotBits s rs1) (x - y)) convertsTo_arith rfl
    (arithBinary_eq (fun _ a b => pure (vecSub a b)) rd rs1 rs2 s)
    (computes_sub (slotBits_le s rs1) _) rfl

/-- Settles O50, from DomMult's product. -/
theorem multResult : Obligations.MultResult := fun s rd rs1 rs2 =>
  binaryGadgetResult (op := fun x y => lowBits (slotBits s rs1) (x * y)) convertsTo_arith rfl
    (arithBinary_eq (fun _ a b => domMult a b) rd rs1 rs2 s)
    (computes_mult (slotBits_le s rs1) _) (Nat.add_assoc _ _ _)

end Sys2Proof.Machine

/-! PROOF. The results of the converters BTOA and ATOB (43_domain R253, R274), each a coercion of one slot,
and the secrets that their share functions keep (43_domain R255, R262, R270). -/

namespace Sys2Proof.Machine

/-! ## The commands BTOA and ATOB (43_domain R253, R274) -/

/-- The pseudocode of the conversion of slot `rd` to domain `d`. -/
def conversionBody (d : Domain) (rd : SlotNo) (s : State) : Draw Effect := do
  let x ← coerce d s.cfg s.slots rd.toNat
  pure { slots := x, dout := s.dout }

theorem exec_btoa_eq (rd : SlotNo) (s : State) :
    exec (.btoa rd) s = runCommand s (liveChecks s rd) (conversionBody .arith rd s) := rfl

theorem exec_atob_eq (rd : SlotNo) (s : State) :
    exec (.atob rd) s = runCommand s (liveChecks s rd) (conversionBody .boolean rd s) := rfl

/-- The effect of a conversion: slot `rd` coerced, and nothing else. -/
structure ConversionEffect (d : Domain) (rd : SlotNo) (s : State) (e : Effect) : Prop where
  file : CoercedFile s.cfg d [rd.toNat] s.slots e.slots
  dout : e.dout = s.dout

theorem drawsExactly_conversionBody {d : Domain} (hconv : ConvertsTo d) {rd : SlotNo} {s : State}
    (hv : (s.slot rd.toNat).valid = true) :
    DrawsExactly (conversionBody d rd s) (coerceDraws d (s.slot rd.toNat))
      (ConversionEffect d rd s) :=
  drawsExactly_bind (k := 0) (drawsExactly_coerceFile hconv hv) fun _ ⟨_, hx⟩ =>
    drawsExactly_pure ⟨hx, rfl⟩

/-- The result of a conversion, from a share function that keeps the secret. -/
theorem conversionResult {i : Instr} {d : Domain} {rd : SlotNo} {s : State} (hconv : ConvertsTo d)
    (hchecks : checksOf s i = liveChecks s rd)
    (hexec : exec i s = runCommand s (liveChecks s rd) (conversionBody d rd s))
    (hk : drawsOf s i = coerceDraws d (s.slot rd.toNat)) (herr : errorOf s i = none) :
    ConversionResult s i d rd := by
  intro ws rest hanswers hws
  have hc := checksOf_pass herr
  rw [hchecks, liveChecks, firstFail_cons_eq_none, firstFail_cons_eq_none] at hc
  obtain ⟨-, hv, -⟩ := hc
  obtain ⟨e, t, he, ht, hdone, hdout, hslot⟩ := exec_of_drawsExactly (hchecks ▸ hexec) herr
    (hk ▸ drawsExactly_conversionBody hconv hv) (fun he => he.file.length) hanswers hws
  refine ⟨t, ht, hdone, hdout.trans he.dout, fun j hj => ?kept, ?coerced⟩
  case kept => exact (hslot j).trans (he.file.others j hj)
  case coerced =>
    rw [hslot]
    exact he.file.coerced _ List.mem_cons_self

/-- Settles O51: BTOA coerces its slot, and B2A turns the XOR of the shares into their sum. -/
theorem btoaResult : Obligations.BtoaResult := fun s rd =>
  conversionResult convertsTo_arith rfl (exec_btoa_eq rd s) rfl

/-- Settles O52: ATOB coerces its slot, and A2B turns the sum of the shares into their XOR. -/
theorem atobResult : Obligations.AtobResult := fun s rd =>
  conversionResult convertsTo_boolean rfl (exec_atob_eq rd s) rfl

/-! ## The share functions (43_domain R255, R262, R270) -/

/-- Settles O57: the XOR of three bits and their majority, one place higher, add up to the three bits. -/
theorem csaKeepsSum : Obligations.CsaKeepsSum := by
  intro w x y z o c p p' hxy hyz hrun
  obtain ⟨-, -, hsum⟩ := yields_csa (hxy.trans hyz) hyz rfl p (o, c) p' hrun
  exact hsum

/-- Settles O58: after rounds at all the distances below the width, every carry is known. -/
theorem koggeStoneAdds : Obligations.KoggeStoneAdds := by
  intro wc a b o p p' hab hrun
  obtain ⟨-, hsum⟩ := yields_ksAdd (two_pow_log2_widthBits wc) hab rfl p o p' hrun
  exact hsum

/-- Settles O59: by induction on the level of Convert, whose halves hold `v` and `(a ^ v) - v`. -/
theorem booleanToArithmeticKeepsSecret : Obligations.BooleanToArithmeticKeepsSecret := by
  intro wc a o p p' hlen hrun
  obtain ⟨-, hsum⟩ := yields_b2a (Nat.one_le_of_lt hlen) p o p' hrun
  exact hsum

end Sys2Proof.Machine

/-! PROOF. The width converters TOWIDE and TONARROW (44_width R300 to R303): slicing a share undoes packing
it and distributes over XOR, so each narrow slot holds one lane of the wide slot, shares and secret. -/

namespace Sys2Proof.Machine

/-! ## Lanes (44_width R300) -/

/-- A lane placed at `i` is read back at `i`, and at every other place there is nothing. -/
theorem lane_shiftLeft {w wt j : Nat} (hj : (j + 1) * w ≤ wt) (v : BitVec w) (i : Nat) :
    lane w (v.setWidth wt <<< (i * w)) j = if j = i then v else 0 := by
  apply BitVec.eq_of_getLsbD_eq
  intro b hb
  rw [Nat.succ_mul] at hj
  simp only [lane, BitVec.getLsbD_extractLsb', BitVec.getLsbD_shiftLeft, BitVec.getLsbD_setWidth]
  rcases Nat.lt_trichotomy j i with hji | rfl | hij
  · have hplace : (j + 1) * w ≤ i * w := Nat.mul_le_mul_right w hji
    rw [Nat.succ_mul] at hplace
    have hbelow : j * w + b < i * w := by omega
    simp [hji.ne, hbelow]
  · have hin : j * w + b < wt := by omega
    have hoff : b < wt := by omega
    simp [hb, hin, hoff]
  · have hplace : (i + 1) * w ≤ j * w := Nat.mul_le_mul_right w hij
    rw [Nat.succ_mul] at hplace
    have habove : w ≤ j * w + b - i * w := by omega
    simp [hij.ne', BitVec.getLsbD_of_ge _ _ habove]

theorem lane_or {w wt : Nat} (x y : BitVec wt) (j : Nat) :
    lane w (x ||| y) j = lane w x j ||| lane w y j :=
  BitVec.extractLsb'_or

theorem lane_xor {w wt : Nat} (x y : BitVec wt) (j : Nat) :
    lane w (x ^^^ y) j = lane w x j ^^^ lane w y j :=
  BitVec.extractLsb'_xor

/-- Extending or truncating a share keeps every lane that stays inside it. -/
theorem lane_setWidth {w m n j : Nat} (hj : (j + 1) * w ≤ n) (v : BitVec m) :
    lane w (v.setWidth n) j = lane w v j := by
  apply BitVec.eq_of_getLsbD_eq
  intro b hb
  rw [Nat.succ_mul] at hj
  have hin : j * w + b < n := by omega
  simp [lane, hin]

/-- A last lane is packed behind the others. -/
theorem packLanes_concat {w : Nat} (wt : Nat) (lanes : List (BitVec w)) (v : BitVec w) :
    packLanes w wt (lanes ++ [v]) =
      packLanes w wt lanes ||| (v.setWidth wt <<< (lanes.length * w)) := by
  rw [packLanes, List.length_append, List.length_singleton, List.range_succ, List.foldl_concat,
    packLanes, List.getD_append_right _ _ _ _ le_rfl, Nat.sub_self, List.getD_cons_zero]
  congr 1
  refine List.foldl_ext _ _ _ fun o i hi => ?_
  rw [List.getD_append _ _ _ _ (List.mem_range.1 hi)]

theorem lane_packLanes {w wt j : Nat} (hj : (j + 1) * w ≤ wt) (lanes : List (BitVec w)) :
    lane w (packLanes w wt lanes) j = lanes.getD j 0 := by
  induction lanes using List.reverseRecOn with
  | nil => simp [packLanes, lane]
  | append_singleton lanes v ih =>
    rw [packLanes_concat, lane_or, ih, lane_shiftLeft hj]
    rcases Nat.lt_trichotomy j lanes.length with hlt | rfl | hgt
    · rw [if_neg hlt.ne, List.getD_append _ _ _ _ hlt]
      simp
    · simp
    · rw [if_neg hgt.ne', List.getD_eq_default _ _ hgt.le, List.getD_eq_default _ _ (by simpa)]
      simp

/-- Settles O60, by induction on the lanes packed: the last one is read at its place, the others as
before. -/
theorem slicingUndoesPacking : Obligations.SlicingUndoesPacking := fun _ _ _ lanes hfit hj =>
  lane_packLanes ((Nat.mul_le_mul_right _ hj).trans hfit) lanes

/-! ## A narrow slot that holds a lane of a wide one (44_width R301 to R303) -/

theorem lane_xorAll {w wt : Nat} (o : List (BitVec wt)) (j : Nat) :
    lane w (xorAll o) j = xorAll (o.map fun v => lane w v j) :=
  (xorAll_map (fun x y => lane_xor x y j) o).symm

theorem getD_map_lane {w wt : Nat} (o : List (BitVec wt)) (j q : Nat) :
    (o.map fun v => lane w v j).getD q 0 = lane w (o.getD q 0) j := by
  have hzero : lane w (0 : BitVec wt) j = 0 := BitVec.extractLsb'_zero
  rw [← hzero]
  exact List.getD_map (l := o) (d := 0) fun v => lane w v j

theorem lowBits_eq_of_lt {w : Nat} {v : Word} (h : v.toNat < 2 ^ w) : lowBits w v = v := by
  apply BitVec.eq_of_toNat_eq
  rw [lowBits, BitVec.toNat_setWidth, BitVec.toNat_setWidth, Nat.mod_eq_of_lt h,
    Nat.mod_eq_of_lt v.isLt]

/-- Boolean slot `narrow` has `w`-bit shares, and each is lane `j` of that share of Boolean slot `wide`. -/
structure IsLane (w j : Nat) (wide narrow : Slot) : Prop where
  wide_dom : wide.dom = .boolean
  narrow_dom : narrow.dom = .boolean
  width : widthBits narrow.wc = w
  fits : (j + 1) * w ≤ widthBits wide.wc
  shares : readShares narrow w = (readShares wide (widthBits wide.wc)).map fun v => lane w v j

section IsLane

variable {w j : Nat} {wide narrow : Slot} (h : IsLane w j wide narrow)
include h

theorem IsLane.shareCount_eq : shareCount narrow = shareCount wide := by
  simpa using congrArg List.length h.shares

/-- The secret of a lane is the lane of the secret: slicing distributes over XOR (44_width R303). -/
theorem IsLane.slotSecret_eq :
    ((slotSecret wide).extractLsb' (j * w) w).setWidth 64 = slotSecret narrow := by
  have hlane : lane w (slotSecret wide) j = xorAll (readShares narrow w) := by
    simp only [slotSecret, secretOf, h.wide_dom]
    rw [lane_setWidth (h.fits.trans (widthBits_le _)), h.shares, lane_xorAll]
  obtain ⟨-, hdom, rfl, -, -⟩ := h
  rw [← lane, hlane]
  simp only [slotSecret, secretOf, hdom]

/-- The shares of a lane are the lanes of the shares. -/
theorem IsLane.share_eq {p : Params} (hok : LiveOk p narrow) {q : Nat} (hq : q < shareCount wide) :
    ((wide.sh.getD q 0).extractLsb' (j * w) w).setWidth 64 = narrow.sh.getD q 0 := by
  have hqn : q < shareCount narrow := by rwa [h.shareCount_eq]
  have hfits := hok.share_lt q ((Nat.le_of_lt_succ hqn).trans hok.ord_le)
  have hshare := congrArg (·.getD q 0) h.shares
  simp only [getD_map_lane, readShares_getD, if_pos hq, if_pos hqn, lane_setWidth h.fits] at hshare
  rw [h.width] at hfits
  rw [← lane, ← hshare, ← lowBits, lowBits_eq_of_lt hfits]

end IsLane

/-! ## The slots of a range coerced (44_width R301) -/

theorem yields_toBoolLoop {p : Params} {x : List Slot} {i : Nat} {l : List Nat}
    (hv : ∀ j ∈ l, (slotAt p x (i + j)).valid = true) :
    Yields (l.foldlM (fun x j => toBool p x (i + j)) x)
      (CoercedFile p .boolean (l.map (i + ·)) x) := by
  induction l generalizing x with
  | nil => exact yields_pure ⟨rfl, by simp, fun _ _ => rfl⟩
  | cons j l ih =>
    refine (yields_coerce convertsTo_boolean (hv j List.mem_cons_self)).bind fun y hy =>
      (ih fun k hk => ?_).mono fun z hz => hy.cons hz
    exact (hy.frame _).valid.trans (hv k (List.mem_cons_of_mem j hk))

/-- TOWIDE's coercions, with their draws counted. -/
theorem drawsExactly_toBoolRangeFile {p : Params} {x : List Slot} {i k : Nat}
    (hv : ∀ j < k, (slotAt p x (i + j)).valid = true) :
    DrawsExactly (toBoolRange p x i k)
      ((List.range k).map fun j => toBoolDraws (slotAt p x (i + j))).sum fun y =>
        CoercedRange p i k x y ∧ CoercedFile p .boolean ((List.range k).map (i + ·)) x y :=
  (drawsExactly_toBoolRange hv).with_yields
    (yields_toBoolLoop fun j hj => hv j (List.mem_range.1 hj))

/-- Under the invariant, a live slot is still legal once its shares are coerced. -/
theorem State.Inv.liveOk_of_reshared {s : State} (h : s.Inv) {c : Bool} {i : Nat} {r : Slot}
    (hlive : (s.slot i).valid = true) (hr : Reshared s.cfg c (s.slot i) r) : LiveOk s.cfg r :=
  (slot_ok_iff_of_live (hr.valid.trans hlive)).1 (hr.ok (h.slot_ok i))

/-! ## TOWIDE (44_width R301) -/

theorem allCompatible_sameSig {s : State} {i k : Nat} (h : allCompatible s i k = true) :
    ∀ j < k, (s.slot (i + j)).ord = (s.slot i).ord ∧ (s.slot (i + j)).wc = (s.slot i).wc := by
  simp only [allCompatible, List.all_eq_true, List.mem_range, Bool.and_eq_true, decide_eq_true_eq,
    sig_eq_iff] at h
  exact fun j hj => (h j hj).2

@[simp] theorem wideShares_length (p : Params) (x : List Slot) (i k n w wt : Nat) :
    (wideShares p x i k n w wt).length = n := by
  simp [wideShares]

/-- The lanes `j` of the packed shares are the shares of slot `i + j`. -/
theorem map_lane_wideShares {p : Params} {x : List Slot} {i k w wt j : Nat} (hk : k * w ≤ wt)
    (hj : j < k) :
    (wideShares p x i k (shareCount (slotAt p x (i + j))) w wt).map (fun v => lane w v j) =
      readShares (slotAt p x (i + j)) w := by
  rw [wideShares, List.map_map, readShares]
  refine List.map_congr_left fun q _ => ?_
  rw [Function.comp_apply, lane_packLanes ((Nat.mul_le_mul_right w hj).trans hk)]
  simp [hj]

/-- Packing puts slot `i + j` into lane `j` of the wide slot. -/
theorem isLane_wideSlot {p : Params} {x : List Slot} {i k j w : Nat} {ord : BitVec 4} {wc : Width}
    (hk : k * w ≤ widthBits wc) (hj : j < k) (hw : widthBits (slotAt p x (i + j)).wc = w)
    (hord : (slotAt p x (i + j)).ord = ord) (hdom : (slotAt p x (i + j)).dom = .boolean) :
    IsLane w j (newSlot p .boolean ord wc (wideShares p x i k (ord.toNat + 1) w (widthBits wc)))
      (slotAt p x (i + j)) := by
  refine ⟨rfl, hdom, hw, (Nat.mul_le_mul_right _ hj).trans hk, ?_⟩
  subst hord
  rw [newSlot_wc, readShares_of_sh (widthBits_le wc) (wideShares_length ..) (newSlot_sh ..)]
  exact (map_lane_wideShares hk hj).symm

theorem newSlot_share_eq_lowBits (p : Params) (dom : Domain) (ord : BitVec 4) (wc : Width)
    (o : List (BitVec (widthBits wc))) (q : Nat) : (newSlot p dom ord wc o).sh.getD q 0 =
      lowBits (widthBits wc) ((newSlot p dom ord wc o).sh.getD q 0) := by
  rw [newSlot_sh_getD]
  split
  · exact (lowBits_eq_of_lt (toNat_setWidth_lt _ le_rfl)).symm
  · simp [lowBits]

/-- The effect of TOWIDE: the sources coerced, and their shares packed into slot `rd`. -/
def TowideEffect (rd rs1 : SlotNo) (wc : Width) (s : State) (e : Effect) : Prop :=
  let k := widthBits wc / slotBits s rs1
  ∃ x, CoercedRange s.cfg rs1.toNat k s.slots x ∧
    CoercedFile s.cfg .boolean ((List.range k).map (rs1.toNat + ·)) s.slots x ∧
    e = { slots := setSlot x rd.toNat (newSlot s.cfg .boolean (s.slot rs1.toNat).ord wc
            (wideShares s.cfg x rs1.toNat k (shareCount (s.slot rs1.toNat)) (slotBits s rs1)
              (widthBits wc))),
          dout := s.dout }

theorem TowideEffect.length {rd rs1 : SlotNo} {wc : Width} {s : State} {e : Effect}
    (h : TowideEffect rd rs1 wc s e) : e.slots.length = s.slots.length := by
  obtain ⟨x, -, hx, rfl⟩ := h
  exact (setSlot_length ..).trans hx.length

/-- What TOWIDE reads of source `j`: the slot coerced, legal, and lane `j` of the wide slot. -/
theorem towide_source_spec {s : State} {i k j : Nat} {wc : Width} {x : List Slot} (hinv : s.Inv)
    (hcompat : allCompatible s i k = true) (hmoves : CoercedRange s.cfg i k s.slots x)
    (hx : CoercedFile s.cfg .boolean ((List.range k).map (i + ·)) s.slots x)
    (hk : k * widthBits (s.slot i).wc ≤ widthBits wc) (hj : j < k) :
    CoercedTo .boolean (s.slot (i + j)) (slotAt s.cfg x (i + j)) ∧
    LiveOk s.cfg (slotAt s.cfg x (i + j)) ∧
    IsLane (widthBits (s.slot i).wc) j
      (newSlot s.cfg .boolean (s.slot i).ord wc (wideShares s.cfg x i k (shareCount (s.slot i))
        (widthBits (s.slot i).wc) (widthBits wc)))
      (slotAt s.cfg x (i + j)) := by
  have hc := hx.coerced (i + j) (by simpa using hj)
  obtain ⟨hframe, hdom, -, -⟩ := coercedTo_iff.1 hc
  obtain ⟨hord, hwc⟩ := allCompatible_sameSig hcompat j hj
  exact ⟨hc, hinv.liveOk_of_reshared (allCompatible_live hcompat j hj) (hmoves.moves.slot (i + j)),
    isLane_wideSlot hk hj (congrArg widthBits (hframe.wc.trans hwc)) (hframe.ord.trans hord) hdom⟩

/-- Settles O53: every source is coerced, and a lane of the wide slot. -/
theorem towideResult : Obligations.TowideResult := by
  intro s rd rs1 wc ws rest hinv herr hanswers hws w k
  have hc := checksOf_pass herr
  simp only [checksOf, firstFail_cons_eq_none, Bool.and_eq_true, Bool.not_eq_true'] at hc
  obtain ⟨⟨hrange, -⟩, -, -, -, hcompat, hfree, -⟩ := hc
  have hlive := allCompatible_live hcompat
  obtain ⟨_, t, ⟨x, hmoves, hx, rfl⟩, ht, hdone, hdout, hslot⟩ :=
    exec_of_drawsExactly (i := .towide rd rs1 wc) rfl herr
      (drawsExactly_bind (k := 0) (drawsExactly_toBoolRangeFile hlive) fun x ⟨hmoves, hx⟩ =>
        drawsExactly_pure ⟨x, hmoves, hx, rfl⟩)
      TowideEffect.length hanswers hws
  have hrd := (hslot rd.toNat).trans
    (slotAt_setSlot_same _ _ (hx.length.symm ▸ hinv.slot_in_file hrange))
  have hother : ∀ i, rd.toNat ≠ i → t.slot i = slotAt s.cfg x i := fun i hi =>
    (hslot i).trans (slotAt_setSlot_other _ _ _ hi)
  have hdisjoint : ∀ j < k, rd.toNat ≠ rs1.toNat + j := fun j hj heq =>
    Bool.false_ne_true (hfree.symm.trans ((congrArg (isLive s) heq).trans (hlive j hj)))
  refine ⟨t, ht, hdone, hdout, fun i hi => ?kept, ?_⟩
  case kept =>
    obtain ⟨hid, hi⟩ := not_or.1 (mt List.mem_cons.2 hi)
    rw [hother i (Ne.symm hid), hx.others i hi, slot_eq]
  rw [hrd]
  refine ⟨rfl, rfl, rfl, rfl, fun q hq => ?unused, fun q => newSlot_share_eq_lowBits ..,
    fun j hj => ?lane⟩
  case unused =>
    rw [newSlot_sh_getD, if_neg (by simpa [shareCount] using hq)]
  case lane =>
    obtain ⟨hcoerced, hok, hlane⟩ :=
      towide_source_spec hinv hcompat hmoves hx (Nat.div_mul_le_self _ _) hj
    obtain ⟨-, -, hsecret, -⟩ := coercedTo_iff.1 hcoerced
    rw [hother _ (hdisjoint j hj)]
    exact ⟨hcoerced, hlane.slotSecret_eq.trans hsecret, fun q hq =>
      hlane.share_eq hok (Nat.lt_succ_of_le hq)⟩

/-! ## TONARROW (44_width R302) -/

/-- The narrow slot that TONARROW makes of lane `j` of slot `r`. -/
def narrowSlot (p : Params) (r : Slot) (wc : Width) (j : Nat) : Slot :=
  newSlot p .boolean r.ord wc
    ((readShares r (widthBits r.wc)).map fun v => lane (widthBits wc) v j)

theorem narrowSlots_eq (p : Params) (x : List Slot) (i k : Nat) (r : Slot) (wc : Width) :
    narrowSlots p x i k r wc =
      (List.range k).foldl (fun x j => setSlot x (i + j) (narrowSlot p r wc j)) x := rfl

section NarrowSlots

variable {p : Params} {x : List Slot} {i k : Nat} (hin : i + k ≤ x.length) (r : Slot) (wc : Width)
include hin

theorem slotAt_narrowSlots (m : Nat) : slotAt p (narrowSlots p x i k r wc) m =
    if i ≤ m ∧ m - i ∈ List.range k then narrowSlot p r wc (m - i) else slotAt p x m :=
  slotAt_foldl_setSlot (fun j hj => .inl (by rw [List.mem_range] at hj; omega)) m

theorem slotAt_narrowSlots_new {j : Nat} (hj : j < k) :
    slotAt p (narrowSlots p x i k r wc) (i + j) = narrowSlot p r wc j := by
  rw [slotAt_narrowSlots hin, Nat.add_sub_cancel_left,
    if_pos ⟨Nat.le_add_right i j, List.mem_range.2 hj⟩]

theorem slotAt_narrowSlots_other {m : Nat} (hm : m ∉ (List.range k).map (i + ·)) :
    slotAt p (narrowSlots p x i k r wc) m = slotAt p x m := by
  rw [slotAt_narrowSlots hin, if_neg]
  rintro ⟨hle, hj⟩
  exact hm (List.mem_map.2 ⟨m - i, hj, Nat.add_sub_of_le hle⟩)

end NarrowSlots

/-- Slicing makes the narrow slot of lane `j` from a Boolean slot. -/
theorem isLane_narrowSlot (p : Params) {r : Slot} {wc : Width} {j : Nat} (hdom : r.dom = .boolean)
    (hj : (j + 1) * widthBits wc ≤ widthBits r.wc) :
    IsLane (widthBits wc) j r (narrowSlot p r wc j) := by
  refine ⟨hdom, rfl, rfl, hj, ?_⟩
  exact readShares_of_sh (widthBits_le wc) (by simp [narrowSlot, shareCount]) rfl

theorem narrowSlot_unused (p : Params) {r : Slot} (wc : Width) (j : Nat) {q : Nat}
    (hq : r.ord.toNat < q) : (narrowSlot p r wc j).sh.getD q 0 = 0 := by
  rw [narrowSlot, newSlot_sh_getD, if_neg (by simpa [shareCount] using hq)]

theorem liveOk_narrowSlot {p : Params} {r : Slot} (h : LiveOk p r) (wc : Width) (j : Nat) :
    LiveOk p (narrowSlot p r wc j) :=
  liveOk_newSlot .boolean h.ord_pos h.ord_le le_rfl (by simp [shareCount])

/-- The effect of TONARROW: the source coerced, and its lanes written to the slots from `rd` on. -/
def TonarrowEffect (rd rs1 : SlotNo) (wc : Width) (s : State) (e : Effect) : Prop :=
  ∃ x, CoercedAt s.cfg .boolean rs1.toNat s.slots x ∧
    CoercedFile s.cfg .boolean [rs1.toNat] s.slots x ∧
    e = { slots := narrowSlots s.cfg x rd.toNat (slotBits s rs1 / widthBits wc)
            (slotAt s.cfg x rs1.toNat) wc,
          dout := s.dout }

theorem TonarrowEffect.length {rd rs1 : SlotNo} {wc : Width} {s : State} {e : Effect}
    (h : TonarrowEffect rd rs1 wc s e) : e.slots.length = s.slots.length := by
  obtain ⟨x, -, hx, rfl⟩ := h
  rw [narrowSlots_eq, foldl_setSlot_length, hx.length]

/-- Settles O54: every new slot is a lane of the coerced source. -/
theorem tonarrowResult : Obligations.TonarrowResult := by
  intro s rd rs1 wc ws rest hinv herr hanswers hws w k
  have hc := checksOf_pass herr
  simp only [checksOf, firstFail_cons_eq_none, Bool.and_eq_true, decide_eq_true_eq] at hc
  obtain ⟨-, hlive, -, ⟨hfile, hfree⟩, -⟩ := hc
  obtain ⟨_, t, ⟨x, hmoves, hx, rfl⟩, ht, hdone, hdout, hslot⟩ :=
    exec_of_drawsExactly (i := .tonarrow rd rs1 wc) rfl herr
      (drawsExactly_bind (k := 0) (drawsExactly_coerceFile convertsTo_boolean hlive)
        fun x ⟨hmoves, hx⟩ => drawsExactly_pure ⟨x, hmoves, hx, rfl⟩)
      TonarrowEffect.length hanswers hws
  have hin : rd.toNat + k ≤ x.length := by
    obtain ⟨-, hlen, -⟩ := hinv
    rwa [hx.length, hlen]
  have hcoerced : CoercedTo .boolean (s.slot rs1.toNat) (slotAt s.cfg x rs1.toNat) :=
    hx.coerced _ List.mem_cons_self
  obtain ⟨hframe, hdom, hsecret, -⟩ := coercedTo_iff.1 hcoerced
  have hok := hinv.liveOk_of_reshared hlive (hmoves.moves.slot rs1.toNat)
  have hother : ∀ i ∉ (List.range k).map (rd.toNat + ·), t.slot i = slotAt s.cfg x i := fun i hi =>
    (hslot i).trans (slotAt_narrowSlots_other hin _ wc hi)
  have hdisjoint : rs1.toNat ∉ (List.range k).map (rd.toNat + ·) := by
    intro hmem
    obtain ⟨j, hj, heq⟩ := List.mem_map.1 hmem
    exact Bool.false_ne_true ((allFree_iff.1 hfree j (List.mem_range.1 hj)).symm.trans
      ((congrArg (isLive s) heq).trans hlive))
  refine ⟨t, ht, hdone, hdout, fun i hi => ?kept, ?_⟩
  case kept =>
    obtain ⟨hi1, hi⟩ := not_or.1 (mt List.mem_cons.2 hi)
    rw [hother i hi, hx.others i (by simpa using hi1), slot_eq]
  rw [hother _ hdisjoint]
  refine ⟨hcoerced, fun j hj => ?_⟩
  have hfits : (j + 1) * w ≤ widthBits (slotAt s.cfg x rs1.toNat).wc := by
    rw [hframe.wc]
    exact (Nat.mul_le_mul_right w hj).trans (Nat.div_mul_le_self _ w)
  have hlane := isLane_narrowSlot s.cfg hdom hfits
  rw [hslot, slotAt_narrowSlots_new hin _ wc hj, ← hsecret, ← hframe.ord]
  exact ⟨rfl, rfl, rfl, rfl, hlane.slotSecret_eq.symm,
    fun q hq => (hlane.share_eq (liveOk_narrowSlot hok wc j) (Nat.lt_succ_of_le hq)).symm,
    fun q hq => narrowSlot_unused s.cfg wc j hq⟩

end Sys2Proof.Machine

/-! PROOF. How a command ends badly (60_exceptions R320 to R329): the failing checks, the failed draw, and
the code that no step raises. -/

namespace Sys2Proof.Machine

/-! ## A failed command (60_exceptions R322 to R328) -/

theorem failWith_eq_failedState (s : State) (e : ErrCode) : failWith s e = failedState s e := rfl

/-- The code is read off the failed state. -/
theorem failWith_inj {s : State} {e e' : ErrCode} : failWith s e = failWith s e' ↔ e = e' :=
  ⟨congrArg State.err, congrArg (failWith s)⟩

/-- A failed command is counted in CCNT, so its end is no state with the old CCNT. -/
theorem ne_failWith_of_ccnt {s t : State} (h : t.ccnt = s.ccnt) (e : ErrCode) : t ≠ failWith s e := by
  rintro rfl
  simp at h

/-- The end of a command tells whether its checks failed: a completion has ERR = OK, and the wait and the
fatal event leave CCNT. -/
theorem runCommand_eq_failWith_iff {s : State} {cs : List (Bool × ErrCode)} {b : Draw Effect} {e : ErrCode}
    (he : e ≠ .ok) : runCommand s cs b = .next (failWith s e) ↔ firstFail cs = some e := by
  refine ⟨fun h => ?_, runCommand_of_fail b⟩
  cases hc : firstFail cs with
  | some e' =>
    rw [runCommand_of_fail b hc] at h
    rw [failWith_inj.1 (Host.Outcome.next.inj h)]
  | none =>
    simp only [runCommand, hc] at h
    split at h
    · exact absurd (congrArg State.err (Host.Outcome.next.inj h)).symm he
    · exact absurd (Host.Outcome.next.inj h) (ne_failWith_of_ccnt rfl e)
    · exact absurd (Host.Outcome.next.inj h) (ne_failWith_of_ccnt (fatalEvent_ccnt s _) e)

/-- Settles O14: the checks that `exec` makes find the first cause, and only a failing check ends in a
failed state. -/
theorem commandsFailExactlyByFirstCause : Obligations.CommandsFailExactlyByFirstCause := by
  intro i s e he
  obtain ⟨b, hexec, -⟩ := checksThenDraws i s
  rw [hexec, ← failWith_eq_failedState, runCommand_eq_failWith_iff he, firstFail_checksOf]

/-- The causes do not depend on the schedule. -/
@[simp] theorem errorOf_dropTurn (s : State) (i : Instr) : errorOf (dropTurn s) i = errorOf s i := by
  cases i <;> rfl

/-- Settles O15: a word that decodes runs the one command it is the word of, and any other word is
ILLEGAL. -/
theorem pendingWordFailsByFirstCause : Obligations.PendingWordFailsByFirstCause := by
  intro s q e hq hn he
  simp only [step_of_datapath hn, ne_eq, ← decode_eq_ok_iff_encode]
  rcases datapathTurn_cases (dropTurn s) with ⟨hidle, -⟩ | ⟨q', _, hq', hdecode, hturn⟩ |
    ⟨q', i, hq', hdecode, hturn⟩
  · cases hq.symm.trans hidle
  all_goals
    cases hq.symm.trans hq'
    simp only [hturn, hdecode]
  · simp [← failWith_eq_failedState, failWith_inj, eq_comm (a := e)]
  · simp [← commandsFailExactlyByFirstCause i (dropTurn s) e he]

/-! ## A failed draw (60_exceptions R329) -/

theorem fatalEvent_eq_fatalState (s : State) (rest : List Answer) :
    fatalEvent s rest = fatalState s rest := by
  simp [fatalEvent, fatalState]

theorem runCommand_of_failed_draw {s : State} {cs : List (Bool × ErrCode)} {b : Draw Effect} {k : Nat}
    {P : Effect → Prop} {ws : List Word} {rest : List Answer} (hc : firstFail cs = none)
    (hb : DrawsExactly b k P) (hanswers : s.env.answers = ws.map .word ++ .fail :: rest)
    (hlt : ws.length < k) : runCommand s cs b = .next (fatalEvent s rest) := by
  obtain ⟨f, -, hb⟩ := hb
  simp [runCommand, hc, hb, hanswers, takeWords_failed ws rest hlt]

/-- Settles O18: the checks pass, and the failure stands among the draws the command's rule counts. -/
theorem entropyFailureIsFatal : Obligations.EntropyFailureIsFatal := by
  intro i s ws rest herr hanswers hlt
  obtain ⟨b, hexec, hdraws⟩ := checksThenDraws i s
  have hc := checksOf_pass herr
  rw [hexec, ← fatalEvent_eq_fatalState]
  exact runCommand_of_failed_draw hc (hdraws hc) hanswers hlt

/-! ## The codes that are written (60_exceptions R326) -/

/-- No cause of the tables has the code CONVERSION_FAILURE. -/
theorem errorOf_ne_conversionFailure (s : State) (i : Instr) :
    errorOf s i ≠ some .conversionFailure := by
  unfold errorOf
  split_ifs <;> simp

/-- What a command leaves in STATUS.ERR: the old code, OK, or the code of its first cause. -/
theorem exec_err_cases {i : Instr} {s t : State} (h : exec i s = .next t) :
    t.err = s.err ∨ t.err = .ok ∨ errorOf s i = some t.err := by
  rcases exec_next_cases h with ⟨e, rfl⟩ | rfl | ⟨rest, -, rfl⟩ | ⟨e, p, -, -, rfl⟩
  · by_cases he : e = .ok
    · exact .inr (.inl he)
    · exact .inr (.inr ((commandsFailExactlyByFirstCause i s e he).2 h))
  · exact .inl rfl
  · exact .inl rfl
  · exact .inr (.inl rfl)

theorem exec_err_ne_conversionFailure {i : Instr} {s t : State} (hs : s.err ≠ .conversionFailure)
    (h : exec i s = .next t) : t.err ≠ .conversionFailure := by
  rcases exec_err_cases h with ht | ht | ht
  · rwa [ht]
  · simp [ht]
  · exact fun hcode => errorOf_ne_conversionFailure s i (hcode ▸ ht)

theorem datapathTurn_err_ne_conversionFailure {s t : State} (hs : s.err ≠ .conversionFailure)
    (h : datapathTurn s = .next t) : t.err ≠ .conversionFailure := by
  rcases datapathTurn_cases s with ⟨-, hd⟩ | ⟨_, _, -, -, hd⟩ | ⟨_, i, -, -, hd⟩ <;> rw [hd] at h
  · cases h; exact hs
  · cases h; simp
  · exact exec_err_ne_conversionFailure hs h

/-- Settles O19, turn by turn: of the agents only the datapath writes ERR, and reset writes OK. -/
theorem conversionFailureNeverRaised : Obligations.ConversionFailureNeverRaised := by
  intro s t hs hstep
  rcases step_next_cases hstep with ⟨-, h⟩ | ⟨-, h⟩ | ⟨a, -, rfl⟩ | ⟨-, rfl⟩
  · obtain ⟨-, -, -, herr, -⟩ := hostTurn_effectsHidden h
    exact herr ▸ hs
  · exact datapathTurn_err_ne_conversionFailure (s := dropTurn s) hs h
  · exact hs
  · simp

/-! ## No traps (60_exceptions R320) -/

/-- Settles O12: every command is its checks and a body, and each of the four ends of that is a next
state. -/
theorem commandsNeverStop : Obligations.CommandsNeverStop := exec_next

end Sys2Proof.Machine

/-! PROOF. Reset and hazards (70_reset R360 to R375): the schedule's turns, the three outcomes of a CMD
write, the latched copy of DIN, and the completion of a command. -/

namespace Sys2Proof.Machine

/-! ## The turns of the datapath and of reset -/

/-- An empty schedule gives the turn to the datapath while a command is pending. -/
theorem nextTurn_eq_datapath {s : State} {q : Pending} (hq : s.pending = some q)
    (hturns : s.env.turns = [] ∨ s.env.turns.head? = some .datapath) : nextTurn s = .datapath := by
  rw [nextTurn]
  rcases hturns with hnil | hhead
  · simp [hnil, State.busy, hq]
  · obtain ⟨ts, hcons⟩ := List.head?_eq_some_iff.1 hhead
    simp [hcons]

theorem datapathTurn_of_decode {s : State} {q : Pending} {i : Instr} (hq : s.pending = some q)
    (hdecode : decode q.word = .ok i) : datapathTurn s = exec i s := by
  simp [datapathTurn, hq, hdecode]

/-- Settles O7: the datapath has the turn, and advancing the schedule leaves the pending word. -/
theorem stepRunsPendingCommand : Obligations.StepRunsPendingCommand := by
  intro s q i hq hdecode hturns
  rw [step_of_datapath (nextTurn_eq_datapath hq hturns)]
  exact datapathTurn_of_decode (s := dropTurn s) hq hdecode

/-- Settles O9: reset looks at the configuration and the outside world only. -/
theorem resetAtAnyTime : Obligations.ResetAtAnyTime := by
  intro s ts hturns
  have hn : nextTurn s = .reset := by rw [nextTurn, hturns]
  rw [step, hn, takeTurn, resetInput, dropTurn, hturns]
  rfl

/-! ## CMD writes (70_reset R370, R372, R375) -/

theorem writeCmd_of_idle {s : State} (hfatal : s.fatal = false) (hidle : s.pending = none) (v : Word) :
    writeCmd s v = { s with
      lastCmd := v.setWidth 32, pending := some { word := v.setWidth 32, dinL := s.din } } := by
  simp [writeCmd, hfatal, State.busy, hidle]

theorem writeCmd_of_busy {s : State} (hfatal : s.fatal = false) (hbusy : s.pending.isSome = true)
    (v : Word) : writeCmd s v = { s with ovr := true } := by
  simp [writeCmd, hfatal, State.busy, hbusy]

theorem writeCmd_of_fatal {s : State} (hfatal : s.fatal = true) (v : Word) : writeCmd s v = s := by
  simp [writeCmd, hfatal]

/-- Settles O25, row by row of the table of 70_reset R375. -/
theorem cmdWriteOutcome : Obligations.CmdWriteOutcome := by
  intro s bytes ops hn hh hlen s' c
  have hstep : step s = .next (writeCmd s' (wordOf bytes)) := step_write hn hh hlen rfl
  refine ⟨fun hfatal hidle => ?_, fun hfatal hbusy => ?_, fun hfatal _ => ?_⟩
  · rw [hstep, writeCmd_of_idle (s := s') hfatal hidle]
    rfl
  · rw [hstep, writeCmd_of_busy (s := s') hfatal hbusy]
  · rw [hstep, writeCmd_of_fatal (s := s') hfatal]

/-! ## A later write to DIN (70_reset R373) -/

/-- A pending command reads its own copy of DIN. -/
theorem dinL_with_din {s : State} {q : Pending} (hq : s.pending = some q) (v : Word) :
    State.dinL { s with din := v } = s.dinL := by
  simp [State.dinL, hq]

/-- None of the four ways a command can go looks at DIN or writes it. -/
theorem runCommand_with_din {s t : State} {cs : List (Bool × ErrCode)} {b : Draw Effect}
    (h : runCommand s cs b = .next t) (v : Word) :
    runCommand { s with din := v } cs b = .next { t with din := v } := by
  unfold runCommand at h ⊢
  cases hc : firstFail cs with
  | some e =>
    simp only [hc] at h ⊢
    cases h
    rfl
  | none =>
    rcases hb : b { answers := s.env.answers, count := 0 } with (_ | rest) | ⟨e, p⟩
    all_goals
      simp only [hc, hb] at h ⊢
      cases h
      rfl

/-- While a command is pending, its checks and its body are the same whatever DIN holds: only MASK and
FREEM use it, and they read the copy. -/
theorem exec_with_din (i : Instr) {s : State} {q : Pending} (hq : s.pending = some q) (v : Word) :
    ∃ b, exec i s = runCommand s (checksOf s i) b ∧
      exec i { s with din := v } = runCommand { s with din := v } (checksOf s i) b := by
  cases i with
  | mask => exact ⟨_, rfl, by simp only [exec, execMask, dinL_with_din hq]; rfl⟩
  | freem => exact ⟨_, rfl, by simp only [exec, execFreem, dinL_with_din hq]; rfl⟩
  | nop | alloc | unmask | clone | free | allocm | info => exact ⟨pure _, rfl, rfl⟩
  | _ => exact ⟨_, rfl, rfl⟩

/-- Settles O24: the same checks and the same body run on both states. -/
theorem laterDinWriteHasNoEffect : Obligations.LaterDinWriteHasNoEffect := by
  intro i s t q v hq h
  obtain ⟨b, hexec, hexec'⟩ := exec_with_din i hq v
  rw [hexec']
  exact runCommand_with_din (hexec ▸ h) v

/-! ## Completion (70_reset R374) -/

/-- Whatever way a command goes, the slot file keeps its length. -/
theorem exec_slots_length {i : Instr} {s t : State} (h : exec i s = .next t) :
    t.slots.length = s.slots.length := by
  rcases exec_next_cases h with ⟨e, rfl⟩ | rfl | ⟨rest, -, rfl⟩ | ⟨e, p, he, -, rfl⟩
  · rfl
  · rfl
  · simp
  · exact he.slots.length

/-- The end state itself, with no condition on the effect's slot file (cf. `exec_of_runsTo`). -/
theorem exec_eq_commit {i : Instr} {s : State} {b : Draw Effect} {ws : List Word}
    {rest : List Answer} {e : Effect} (hexec : exec i s = runCommand s (checksOf s i) b)
    (herr : errorOf s i = none) (hb : RunsTo b ws e)
    (hanswers : s.env.answers = ws.map .word ++ rest) :
    exec i s = .next (commit s e { answers := rest, count := ws.length }) := by
  rw [hexec, runCommand, checksOf_pass herr, hanswers]
  simp [hb rest 0]

/-- Settles O16: the checks pass, the body draws as many words as its rule counts, and there are that
many. -/
theorem answeredCommandsComplete : Obligations.AnsweredCommandsComplete := by
  intro i s ws rest herr hanswers hws
  obtain ⟨b, hexec, hdraws⟩ := checksThenDraws i s
  obtain ⟨e, -, hrun⟩ := (hdraws (checksOf_pass herr)).exists_runsTo hws
  have hcommit := exec_eq_commit hexec herr hrun hanswers
  exact ⟨_, hcommit, hws ▸ completed_commit (exec_slots_length hcommit) _⟩

end Sys2Proof.Machine
